-- ==== Sys2Proof/Word.lean ====
section
/-! DEFINITION. The words the block exchanges and stores (spec/00_scope.md rules R8, R11). -/

namespace Sys2Proof

/-- A command word: 32 parallel bits, bit 0 the least significant (R8 `CW`, R42). -/
abbrev CommandWord := BitVec 32

/-- A response word: 16 parallel bits (R8 `RW`, R25). -/
abbrev ResponseWord := BitVec 16

/-- The status register's word, 16 bits (R18). -/
abbrev StatusWord := BitVec 16

end Sys2Proof
end

