-- ==== Sys2Proof/Syntax.lean ====
section
/-! DEFINITION. The command set NWCNTT-1 (spec/30_encoding.md): one constructor per row of
spec/opcode_table.json, and the assembler's four pseudo-instructions. -/

namespace Sys2Proof

/-- The four coefficient banks (R13); every two-bit bank field names one of them (R45). -/
inductive Bank where
  | x0 | x1 | x2 | x3
deriving DecidableEq, Repr

/-- The bank's number, as a bank field carries it (R45). -/
def Bank.num : Bank → Nat
  | .x0 => 0
  | .x1 => 1
  | .x2 => 2
  | .x3 => 3

/-- The fourteen commands (R48). Operands are the numbers the fields carry: `idx` and `t` unsigned 8-bit
(R46), `imm` unsigned 16-bit (R47), `tbl` the two-bit ROM table number (R43). That they fit their fields is
`Instr.wellFormed`; that the instance has such a word, stage or value is checked when the command runs. -/
inductive Instr where
  | nop
  | ldc (d : Bank) (idx : Nat) (imm : Nat)
  | rdc (a : Bank) (idx : Nat)
  | rdt (tbl : Nat) (idx : Nat)
  | rds
  | ntt (d : Bank)
  | intt (d : Bank)
  | pwm (d a b : Bank)
  | madd (d a b : Bank)
  | msub (d a b : Bank)
  | mmul (d a b : Bank)
  | mhlv (d a : Bank)
  | fstg (d : Bank) (t : Nat)
  | istg (d : Bank) (t : Nat)
deriving DecidableEq, Repr

/-- The assembler's pseudo-instructions (R54 to R57): other names for lists of commands. -/
inductive Pseudo where
  | ldv (d : Bank) (vs : List Nat)
  | rdv (a : Bank)
  | psqr (d a : Bank)
  | pmul (d a b : Bank)
deriving DecidableEq, Repr

end Sys2Proof
end

