-- ==== Sys2Proof/Config.lean ====
section
/-! DEFINITION. What one instance of the block fixes (spec/00_scope.md rules R6, R7), and the free values:
constants without a body that stand for every value the spec leaves open. -/

namespace Sys2Proof

/-- The three parameters of an instance (R6): the modulus `Q`, the transform size `N` and the root `W`.
Which triples yield hardware is `Machine.elaborate` (R81). -/
structure Config where
  q : Nat
  n : Nat
  w : Nat
deriving DecidableEq, Repr

/-- The reference instance `NWCNTT-1 Q=3329 N=8 W=40` (R3, R9). -/
def Config.reference : Config := ⟨3329, 8, 40⟩

/-- The functions of the two arithmetic units (R65): the select values 0, 1, 2 of `modular_add_sub_unit`,
its reserved value 3, and `modular_mult_unit`. -/
inductive UnitFn where
  | add | sub | hlv | reserved | mul
deriving DecidableEq, Repr

/-- Free value (93_implementation_defined.md U1, log entry 3): what a coefficient word that no command has
written since reset holds, by the number of resets seen, the bank and the index. -/
opaque Config.unwrittenWord : Config → Nat → Nat → Nat → Nat

/-- Free value (R15, log entry 3): what the `i`-th destination word receives from a command that read an
unwritten word, by the number of such commands seen and by `i`. -/
opaque Config.unspecifiedWord : Config → Nat → Nat → Nat

/-- Free value (R63 and U2, R65 and U3; log entry 4): the output of an arithmetic unit for operands outside
[0, Q), and for the reserved select value. The units are combinational (R65): a function of the operands. -/
opaque Config.unitOutput : Config → UnitFn → Nat → Nat → Nat

end Sys2Proof
end

