-- ==== Sys2Proof/WellFormed.lean ====
section
/-! DEFINITION. What the assembler refuses (spec/30_encoding.md rules R53, R54, R57): an operand that does
not fit its field, a vector of the wrong length, a `PMUL` of one bank by itself. It does not refuse what the
hardware will fault (`idx >= N`, `imm >= Q`). -/

namespace Sys2Proof

/-- The 8-bit index or stage field holds the number (R46, R53). -/
def fitsIdx (idx : Nat) : Bool := idx < 256

/-- The 16-bit immediate field holds the number (R47, R53). -/
def fitsImm (imm : Nat) : Bool := imm < 65536

/-- The two-bit table field holds the number (R43). -/
def fitsTable (tbl : Nat) : Bool := tbl < 4

/-- Every operand fits its field (R53). -/
def Instr.wellFormed : Instr → Bool
  | .nop => true
  | .ldc _ idx imm => fitsIdx idx && fitsImm imm
  | .rdc _ idx => fitsIdx idx
  | .rdt tbl idx => fitsTable tbl && fitsIdx idx
  | .rds => true
  | .ntt _ => true
  | .intt _ => true
  | .pwm _ _ _ => true
  | .madd _ _ _ => true
  | .msub _ _ _ => true
  | .mmul _ _ _ => true
  | .mhlv _ _ => true
  | .fstg _ t => fitsIdx t
  | .istg _ t => fitsIdx t

/-- What the assembler asks of a pseudo-instruction: `LDV` has exactly N values that fit (R54), `PMUL` has
two different sources (R57). -/
def Pseudo.wellFormed (c : Config) : Pseudo → Bool
  | .ldv _ vs => vs.length == c.n && vs.all fitsImm
  | .rdv _ => true
  | .psqr _ _ => true
  | .pmul _ a b => a != b

end Sys2Proof
end

