-- ==== Sys2Proof/Decode.lean ====
section
/-! DEFINITION. Decoding and encoding of command words (spec/30_encoding.md rules R42 to R51, R53). -/

namespace Sys2Proof

/-- The opcodes that name a command (R48). -/
inductive Opcode where
  | nop | ldc | rdc | rdt | rds | ntt | intt | pwm | madd | msub | mmul | mhlv | fstg | istg
deriving DecidableEq, Repr

/-- The seven formats (R44). -/
inductive Format where
  | z | l | r | b1 | s | b3 | b2
deriving DecidableEq, Repr

/-- The opcode field's value (R48). -/
def Opcode.code : Opcode → Nat
  | .nop => 0x0
  | .ldc => 0x1
  | .rdc => 0x2
  | .rdt => 0x3
  | .rds => 0x4
  | .ntt => 0x5
  | .intt => 0x6
  | .pwm => 0x7
  | .madd => 0x8
  | .msub => 0x9
  | .mmul => 0xA
  | .mhlv => 0xB
  | .fstg => 0xC
  | .istg => 0xD

/-- The command an opcode field selects; 0xE and 0xF are reserved (R48, R50). -/
def Opcode.ofCode : Nat → Option Opcode
  | 0x0 => some .nop
  | 0x1 => some .ldc
  | 0x2 => some .rdc
  | 0x3 => some .rdt
  | 0x4 => some .rds
  | 0x5 => some .ntt
  | 0x6 => some .intt
  | 0x7 => some .pwm
  | 0x8 => some .madd
  | 0x9 => some .msub
  | 0xA => some .mmul
  | 0xB => some .mhlv
  | 0xC => some .fstg
  | 0xD => some .istg
  | _ => none

/-- The format column of R48. -/
def Opcode.format : Opcode → Format
  | .nop => .z
  | .ldc => .l
  | .rdc => .r
  | .rdt => .r
  | .rds => .z
  | .ntt => .b1
  | .intt => .b1
  | .pwm => .b3
  | .madd => .b3
  | .msub => .b3
  | .mmul => .b3
  | .mhlv => .b2
  | .fstg => .s
  | .istg => .s

/-- The bits a format fixes: its opcode bits and its must-be-zero bits (R44, R48 column `mask`). -/
def Format.mask : Format → CommandWord
  | .z => 0xFFFFFFFF#32
  | .l => 0xF3000000#32
  | .r => 0xFC00FFFF#32
  | .b1 => 0xF3FFFFFF#32
  | .s => 0xF300FFFF#32
  | .b3 => 0xF03FFFFF#32
  | .b2 => 0xF0FFFFFF#32

/-- R48 column `mask`. -/
def Opcode.mask (o : Opcode) : CommandWord := o.format.mask

/-- R48 column `match`: the opcode in bits 31:28, zero elsewhere. -/
def Opcode.matchWord (o : Opcode) : CommandWord := BitVec.ofNat 32 o.code <<< 28

/-- Field `op`, `w[31:28]` (R43). -/
def fieldOp (w : CommandWord) : Nat := (w.extractLsb 31 28).toNat
/-- Field `d`, `w[27:26]` (R43). -/
def fieldD (w : CommandWord) : Nat := (w.extractLsb 27 26).toNat
/-- Field `a` (for `RDT` the table number), `w[25:24]` (R43). -/
def fieldA (w : CommandWord) : Nat := (w.extractLsb 25 24).toNat
/-- Field `b`, `w[23:22]` (R43). -/
def fieldB (w : CommandWord) : Nat := (w.extractLsb 23 22).toNat
/-- Field `idx` (for the stage commands `t`), `w[23:16]` (R43). -/
def fieldIdx (w : CommandWord) : Nat := (w.extractLsb 23 16).toNat
/-- Field `imm`, `w[15:0]` (R43). -/
def fieldImm (w : CommandWord) : Nat := (w.extractLsb 15 0).toNat

/-- The bank a two-bit field names (R45). -/
def Bank.ofNum : Nat → Bank
  | 0 => .x0
  | 1 => .x1
  | 2 => .x2
  | _ => .x3

/-- The command of a word whose opcode and must-be-zero bits have been checked: its fields picked apart as
its format says (R43, R44). -/
def Opcode.operands (o : Opcode) (w : CommandWord) : Instr :=
  let d := Bank.ofNum (fieldD w)
  let a := Bank.ofNum (fieldA w)
  let b := Bank.ofNum (fieldB w)
  match o with
  | .nop => .nop
  | .ldc => .ldc d (fieldIdx w) (fieldImm w)
  | .rdc => .rdc a (fieldIdx w)
  | .rdt => .rdt (fieldA w) (fieldIdx w)
  | .rds => .rds
  | .ntt => .ntt d
  | .intt => .intt d
  | .pwm => .pwm d a b
  | .madd => .madd d a b
  | .msub => .msub d a b
  | .mmul => .mmul d a b
  | .mhlv => .mhlv d a
  | .fstg => .fstg d (fieldIdx w)
  | .istg => .istg d (fieldIdx w)

/-- Why a word is no command (R49, R50). Both raise `ERR_OP` (R109). -/
inductive DecodeError where
  /-- Opcode 0xE or 0xF (R50). -/
  | reservedOpcode
  /-- A bit the format marks `0` is set (R49). -/
  | mustBeZeroSet
deriving DecidableEq, Repr

/-- `decode` of R51: total on all 32-bit words. -/
def decode (w : CommandWord) : Except DecodeError Instr :=
  match Opcode.ofCode (fieldOp w) with
  | none => .error .reservedOpcode
  | some o => if w &&& o.mask = o.matchWord then .ok (o.operands w) else .error .mustBeZeroSet

/-- A command's opcode (R48). -/
def Instr.opcode : Instr → Opcode
  | .nop => .nop
  | .ldc _ _ _ => .ldc
  | .rdc _ _ => .rdc
  | .rdt _ _ => .rdt
  | .rds => .rds
  | .ntt _ => .ntt
  | .intt _ => .intt
  | .pwm _ _ _ => .pwm
  | .madd _ _ _ => .madd
  | .msub _ _ _ => .msub
  | .mmul _ _ _ => .mmul
  | .mhlv _ _ => .mhlv
  | .fstg _ _ => .fstg
  | .istg _ _ => .istg

/-- A number placed with its bit 0 at bit `lo` of the word. -/
def place (v lo : Nat) : CommandWord := BitVec.ofNat 32 v <<< lo

/-- The operand bits of a command's word: the `word` column of R53 without the opcode. -/
def Instr.operandBits : Instr → CommandWord
  | .nop => 0#32
  | .ldc d idx imm => place d.num 26 ||| place idx 16 ||| place imm 0
  | .rdc a idx => place a.num 24 ||| place idx 16
  | .rdt tbl idx => place tbl 24 ||| place idx 16
  | .rds => 0#32
  | .ntt d => place d.num 26
  | .intt d => place d.num 26
  | .pwm d a b => place d.num 26 ||| place a.num 24 ||| place b.num 22
  | .madd d a b => place d.num 26 ||| place a.num 24 ||| place b.num 22
  | .msub d a b => place d.num 26 ||| place a.num 24 ||| place b.num 22
  | .mmul d a b => place d.num 26 ||| place a.num 24 ||| place b.num 22
  | .mhlv d a => place d.num 26 ||| place a.num 24
  | .fstg d t => place d.num 26 ||| place t 16
  | .istg d t => place d.num 26 ||| place t 16

/-- The word of a well-formed command (R53). -/
def encode (i : Instr) : CommandWord := i.opcode.matchWord ||| i.operandBits

/-- The host's reading of a table row: the command of the word whose low `nbits` bits are those of `w`, every
bit above them 0. The block takes a command word whole, as 32 parallel bits (R31): there is no byte order. -/
def decodeTableWord (nbits w : Nat) : Option Instr :=
  (decode (BitVec.ofNat 32 (w % 2 ^ nbits))).toOption

/-- R53's assembler name of a bank. -/
def Bank.asm : Bank → String
  | .x0 => "x0"
  | .x1 => "x1"
  | .x2 => "x2"
  | .x3 => "x3"

/-- The assembler text of a command (R53). R53 has no name for the reserved table 3: such a word is written
`.word` followed by its value. -/
def Instr.asm (i : Instr) : String :=
  match i with
  | .nop => "NOP"
  | .ldc d idx imm => "LDC " ++ d.asm ++ "[" ++ toString idx ++ "], " ++ toString imm
  | .rdc a idx => "RDC " ++ a.asm ++ "[" ++ toString idx ++ "]"
  | .rdt 0 idx => "RDT fwd[" ++ toString idx ++ "]"
  | .rdt 1 idx => "RDT inv[" ++ toString idx ++ "]"
  | .rdt 2 idx => "RDT wq[" ++ toString idx ++ "]"
  | .rdt _ _ => ".word " ++ toString (encode i).toNat
  | .rds => "RDS"
  | .ntt d => "NTT " ++ d.asm
  | .intt d => "INTT " ++ d.asm
  | .pwm d a b => "PWM " ++ d.asm ++ ", " ++ a.asm ++ ", " ++ b.asm
  | .madd d a b => "MADD " ++ d.asm ++ ", " ++ a.asm ++ ", " ++ b.asm
  | .msub d a b => "MSUB " ++ d.asm ++ ", " ++ a.asm ++ ", " ++ b.asm
  | .mmul d a b => "MMUL " ++ d.asm ++ ", " ++ a.asm ++ ", " ++ b.asm
  | .mhlv d a => "MHLV " ++ d.asm ++ ", " ++ a.asm
  | .fstg d t => "FSTG " ++ d.asm ++ ", " ++ toString t
  | .istg d t => "ISTG " ++ d.asm ++ ", " ++ toString t

/-- The commands a pseudo-instruction stands for (R54 to R57). -/
def Pseudo.expand (c : Config) : Pseudo → List Instr
  | .ldv d vs => vs.zipIdx.map fun (v, i) => .ldc d i v
  | .rdv a => (List.range c.n).map fun i => .rdc a i
  | .psqr d a => [.ntt a, .pwm d a a, .intt d]
  | .pmul d a b => [.ntt a, .ntt b, .pwm d a b, .intt d]

/-- What the assembler puts out for a pseudo-instruction: nothing where R54 or R57 has it refuse. -/
def Pseudo.assemble (c : Config) (p : Pseudo) : Option (List CommandWord) :=
  if p.wellFormed c then some ((p.expand c).map encode) else none

end Sys2Proof
end

