-- ==== Sys2Proof/Machine/State.lean ====
section
/-! DEFINITION. The architectural state of one engine (spec/10_state.md rules R13 to R28), the host's side of
its two ports, and its value after reset. Plain data throughout. -/

namespace Sys2Proof.Machine

/-- The address space `COEF` (R29): the four coefficient banks `X0` to `X3` (R13), each a list of its N words,
word 0 first. A word is `none` while no command has written it since reset (R15, R27); a written word is the
number it holds, all values being unsigned integers (R11). The width `DW` of a word depends on the instance, so
that the number is below `2 ^ DW` is part of the memory's form (`Memory.wf`), not of its type. -/
structure Memory where
  x0 : List (Option Nat)
  x1 : List (Option Nat)
  x2 : List (Option Nat)
  x3 : List (Option Nat)
deriving DecidableEq, Repr

/-- The loop fields of the sequencer (R20): stage `T`, distance `M`, block start `S`, first word (or pair, or
word) `J`, twiddle index `K`. -/
structure LoopPoint where
  t : Nat
  m : Nat
  s : Nat
  j : Nat
  k : Nat
deriving DecidableEq, Repr

/-- The sequencer while a command executes (R20): the command in execution, whose opcode is the field `OPC`
and whose bank numbers are part of the latched command word (R23), and the loop fields.

`draw` is the model's own (log entry 3): `none` if every word the command reads was written when it was accepted,
else the number of the free values that it leaves. The hardware detects no unwritten word (R15) and `draw` steers
no loop field (R21): it says which values the steps write, not which steps there are. -/
structure Sequencer where
  cmd : Instr
  point : LoopPoint
  draw : Option Nat
deriving DecidableEq, Repr

/-- What the host can put to the block (R101, R102): a command word on the command port, or `rst`. -/
inductive HostInput where
  | command (w : CommandWord)
  | reset
deriving DecidableEq, Repr

/-- The state of one engine, with the host's inputs still to come and the responses it has had.

* `cfg` is (Q, N, W): a constant of the engine (R6, R26), carried here because `exec` and `step` take the state
  alone; nothing ever changes it (log entry 1).
* `coef`, `status`, `seq` are the architectural state of R27; `seq = none` is the idle sequencer (R21).
* `responses` are the words delivered on the response port since reset, oldest first (R25, R127).
* `inbox` are the host's inputs the block has not yet accepted, next first (R26, log entry 2).
* `resets` and `draws` are the model's own: they number the free values (log entry 3). -/
structure State where
  cfg : Config
  coef : Memory
  status : StatusWord
  seq : Option Sequencer
  responses : List ResponseWord
  inbox : List HostInput
  resets : Nat
  draws : Nat
deriving DecidableEq, Repr

/-- Why the machine would stop with a fault. No constructor: "The block does not stop, trap or lock up after a
fault" (R108) and nothing in it is `stuck` (93_implementation_defined.md); the spec's run-time faults are flags
of `STATUS` and the machine goes on. Safe: no claim can rest on a stop the hardware lacks. -/
inductive Fault : Type where
deriving DecidableEq, Repr

/-- Why the model would decline a command. -/
inductive Refusal where
  /-- Raised by `exec` alone, for a command without a meaning; every command has one, so nothing raises it.
  Safe: it would stop the model where the hardware goes on. -/
  | notModelled (mnemonic : String)
deriving DecidableEq, Repr

/-- Banks of `n` words, none of them written (R15, R28). -/
def Memory.unwritten (n : Nat) : Memory :=
  ⟨List.replicate n none, List.replicate n none, List.replicate n none, List.replicate n none⟩

/-- The engine of configuration `c` right after reset (R28, R123): banks unwritten, `STATUS` zero, sequencer
idle, no response, and no input offered by the host. -/
def State.afterReset (c : Config) : State where
  cfg := c
  coef := Memory.unwritten c.n
  status := 0#16
  seq := none
  responses := []
  inbox := []
  resets := 0
  draws := 0

/-- The reference instance (R9) right after reset. -/
def State.reset : State := State.afterReset Config.reference

end Sys2Proof.Machine
end

