-- ==== Sys2Proof/Machine/Flags.lean ====
section
/-! DEFINITION. The status register `STATUS` and its three sticky flags (spec/10_state.md rule R18,
spec/60_exceptions.md rule R107). No arithmetic command sets any flag (R18, R62). -/

namespace Sys2Proof.Machine

/-- The run-time faults (R107): `ERR_OP`, `ERR_IDX`, `ERR_RANGE`. -/
inductive ErrFlag where
  | op | idx | range
deriving DecidableEq, Repr

/-- The fault's code, which is its bit of `STATUS` (R18, R107). -/
def ErrFlag.code : ErrFlag → Nat
  | .op => 0
  | .idx => 1
  | .range => 2

/-- The word with the fault's bit alone. -/
def ErrFlag.mask (e : ErrFlag) : StatusWord := 1#16 <<< e.code

/-- Setting one sticky flag: that bit becomes 1 and no other bit changes (R18, R108). -/
def setFlag (status : StatusWord) (e : ErrFlag) : StatusWord := status ||| e.mask

/-- Whether a flag is set. -/
def flagSet (status : StatusWord) (e : ErrFlag) : Bool := status.getLsbD e.code

/-- Bits 15:3 of `STATUS` read as 0 (R18). -/
def statusReserved (status : StatusWord) : Bool := status &&& 0xFFF8#16 == 0#16

end Sys2Proof.Machine
end

