-- ==== Sys2Proof/Machine/Params.lean ====
section
/-! DEFINITION. Derived constants (spec/00_scope.md rule R8) and elaboration: which configurations yield
hardware (R6, R7, R10) and the elaboration-time functions and failures (spec/41_twiddle_rom.md R79 to R81). -/

namespace Sys2Proof

/-- `LOGN = log2(N)` (R8). -/
def Config.logn (c : Config) : Nat := Nat.log2 c.n
/-- `L = LOGN - 1`: the number of stages, and the width of every bit reversal (R8). -/
def Config.l (c : Config) : Nat := c.logn - 1
/-- `H = N / 2`: the number of coefficient pairs and the depth of each ROM table (R8). -/
def Config.h (c : Config) : Nat := c.n / 2
/-- `DW = ceil(log2(Q))`: the width of a coefficient word (R8); for `Q >= 2` one more than `log2(Q - 1)`. -/
def Config.dw (c : Config) : Nat := Nat.log2 (c.q - 1) + 1
/-- `HALF = (Q + 1) / 2` (R8). -/
def Config.half (c : Config) : Nat := (c.q + 1) / 2
/-- `WINV = W^(N-1) mod Q` (R8, R72). -/
def Config.winv (c : Config) : Nat := c.w ^ (c.n - 1) % c.q

namespace Machine

/-- The failures of elaboration (R81). They yield no hardware; a running block never raises one (R107). -/
inductive ElabError where
  /-- `InvalidSizeError`: N is no power of two, is outside 2 to 256, or does not divide Q - 1. -/
  | invalidSize
  /-- `NoPrimitiveRootError`: `W^(N/2) mod Q` is not `Q - 1`. -/
  | noPrimitiveRoot
  /-- `NoInverseError`: `W mod Q` is 0, or Q is not prime. -/
  | noInverse
  /-- R81's last row, without a name in the document: Q even, below 3, or not below 2^16. -/
  | illegalModulus
  /-- W at or above Q, against R6's `W` in [1, Q); R81 names no failure for it (log entry 6). -/
  | rootOutOfRange
deriving DecidableEq, Repr

/-- The loop of `modPow` (R79): `fuel` bounds the number of passes. -/
def modPowLoop (q : Nat) : Nat → Nat → Nat → Nat → Nat
  | 0, r, _, _ => r
  | fuel + 1, r, x, e =>
    if e = 0 then r
    else modPowLoop q fuel (if e % 2 = 1 then r * x % q else r) (x * x % q) (e / 2)

/-- `modPow(base, e)`: exponentiation by repeated squaring modulo `q` (R79). One pass more than the exponent
has bits is enough. -/
def modPow (q base e : Nat) : Nat := modPowLoop q (Nat.log2 e + 1) 1 (base % q) e

/-- Trial division: `q` is at least 2 and has no divisor `d` with `d * d <= q` below 256; for `q < 2^16`, the
bound of R6, this is primality. -/
def isPrime16 (q : Nat) : Bool :=
  decide (2 ≤ q) && (List.range 256).all fun d => decide (d < 2) || decide (q < d * d) || decide (q % d ≠ 0)

/-- `modInverse(a)` (R80): Fermat's `a^(q-2)`; `NoInverseError` if `a` is 0 modulo `q` or `q` is not prime. -/
def modInverse (q a : Nat) : Except ElabError Nat :=
  if a % q = 0 ∨ isPrime16 q = false then .error .noInverse else .ok (modPow q a (q - 2))

/-- The checks of elaboration (R6, R7, R81): the failure reported, `none` where hardware is made. R81 states
no order among them (log entry 6). -/
def elabCheck (c : Config) : Option ElabError :=
  if c.q % 2 = 0 ∨ c.q < 3 ∨ 65536 ≤ c.q then some .illegalModulus
  else if c.n ≠ 2 ^ Nat.log2 c.n ∨ c.n < 2 ∨ 256 < c.n ∨ (c.q - 1) % c.n ≠ 0 then some .invalidSize
  else if c.w % c.q = 0 ∨ isPrime16 c.q = false then some .noInverse
  else if c.q ≤ c.w then some .rootOutOfRange
  else if modPow c.q c.w (c.n / 2) ≠ c.q - 1 then some .noPrimitiveRoot
  else none

/-- Elaboration (R10): the engine after its first reset, or no hardware at all (R81, 93 U13). -/
def elaborate (c : Config) : Except ElabError State :=
  match elabCheck c with
  | none => .ok (State.afterReset c)
  | some e => .error e

end Machine

/-- The configurations that yield hardware (R6, R7, R81). -/
abbrev Config.Legal (c : Config) : Prop := Machine.elabCheck c = none

end Sys2Proof
end

