-- ==== Sys2Proof/Machine/Ops.lean ====
section
/-! DEFINITION. The named operations over the banks, the status register, the response channel and the
command port (spec/10_state.md, spec/20_memory.md, spec/60_exceptions.md, spec/70_reset_and_hazards.md). -/

namespace Sys2Proof.Machine

/-- The words of one bank. -/
def Memory.bank (m : Memory) : Bank → List (Option Nat)
  | .x0 => m.x0
  | .x1 => m.x1
  | .x2 => m.x2
  | .x3 => m.x3

/-- One bank replaced. -/
def Memory.setBank (m : Memory) (b : Bank) (ws : List (Option Nat)) : Memory :=
  match b with
  | .x0 => { m with x0 := ws }
  | .x1 => { m with x1 := ws }
  | .x2 => { m with x2 := ws }
  | .x3 => { m with x3 := ws }

/-- What the word `COEF(b, i)` holds: `none` if no command has written it since reset (R15), and at an
address that does not exist (R30), which no command reads (R32). -/
def Memory.word (m : Memory) (b : Bank) (i : Nat) : Option Nat := ((m.bank b)[i]?).join

/-- `X[b][i] <- v`. The word becomes written (R15); no other word changes (R34). -/
def Memory.setWord (m : Memory) (b : Bank) (i : Nat) (v : Nat) : Memory :=
  m.setBank b ((m.bank b).set i (some v))

/-- A bank in its one form: N words (R13), each written one of DW bits (R8, R33). -/
def bankWf (c : Config) (ws : List (Option Nat)) : Bool :=
  ws.length == c.n && ws.all fun w => w.all fun v => decide (v < 2 ^ c.dw)

/-- The form every memory of an engine has: each bank exactly N words of DW bits. Two memories of this form
that agree word by word are the same data. -/
def Memory.wf (c : Config) (m : Memory) : Bool :=
  bankWf c m.x0 && bankWf c m.x1 && bankWf c m.x2 && bankWf c m.x3

/-- `raise <Fault>` (R12, R108): the fault's flag is set and nothing else changes. This is all that taking a
fault is: there is no trap, no saved state, no handler and no return (R114, R115). -/
def State.raise (s : State) (e : ErrFlag) : State := { s with status := setFlag s.status e }

/-- `respond(v)` (R12, R25): the word is delivered after all earlier ones. -/
def State.respond (s : State) (v : ResponseWord) : State := { s with responses := s.responses ++ [v] }

/-- The response of a faulting `RDC` or `RDT` (R25, R108). -/
def faultResponse : ResponseWord := 0xFFFF#16

/-- `zext_16(v)` (R12). -/
def zext16 (v : Nat) : ResponseWord := BitVec.ofNat 16 v

/-- What `X[b][i]` holds, if written. -/
def State.word (s : State) (b : Bank) (i : Nat) : Option Nat := s.coef.word b i

/-- The value a read of `X[b][i]` finds: the word's value, or, for an unwritten word, any value of DW bits,
the same until the word is written or the block reset (R15, R105, 93_implementation_defined.md U1; log entry 3). -/
def State.readWord (s : State) (b : Bank) (i : Nat) : Nat :=
  (s.word b i).getD (Config.unwrittenWord s.cfg s.resets b.num i % 2 ^ s.cfg.dw)

/-- `X[b][i] <- v`. -/
def State.writeWord (s : State) (b : Bank) (i : Nat) (v : Nat) : State :=
  { s with coef := s.coef.setWord b i v }

/-- The N words of a bank, if all are written; `none` if a word is unwritten (R15). -/
def State.readBank (s : State) (b : Bank) : Option (List Nat) :=
  (List.range s.cfg.n).mapM fun i => s.word b i

/-- All N words of a bank written. -/
def State.writeBank (s : State) (b : Bank) (ws : List Nat) : State :=
  { s with coef := s.coef.setBank b (ws.map some) }

/-- What word `i` of its destination receives from a command that read an unwritten word: any value of DW bits,
a fresh one for each such command (R15, log entry 3). -/
def unspecifiedResult (c : Config) (draw i : Nat) : Nat := Config.unspecifiedWord c draw i % 2 ^ c.dw

/-- The words a command leaves in its destination bank when it read an unwritten word (R15). -/
def unspecifiedBank (c : Config) (draw : Nat) : List Nat := (List.range c.n).map (unspecifiedResult c draw)

/-- The end of a command whose result, all N words of bank `d`, is computed from whole source banks: the
computed words, or unspecified ones where a source word was unwritten (`none`; R15, R16). No flag, no
response, no other bank. -/
def State.finishBank (s : State) (d : Bank) : Option (List Nat) → State
  | some ws => s.writeBank d ws
  | none => { s.writeBank d (unspecifiedBank s.cfg s.draws) with draws := s.draws + 1 }

/-- Reset (R123, R124): from any state the reset state of R28, whatever was executing. The engine's constants
and what the host offers next are not the block's to change; the two counters number the free values. -/
def State.takeReset (s : State) (rest : List HostInput) : State :=
  { State.afterReset s.cfg with inbox := rest, resets := s.resets + 1, draws := s.draws }

/-- The host's input taken off the front of the inbox: a command word accepted on the command port (R101). -/
def State.accept (s : State) (rest : List HostInput) : State := { s with inbox := rest }

/-- Output `cmd_ready` outside reset: high exactly when the sequencer is idle (R101). -/
def State.cmdReady (s : State) : Bool := s.seq.isNone

/-- Output `busy` outside reset: the complement of `cmd_ready` (R22, R101). -/
def State.busy (s : State) : Bool := !s.cmdReady

/-- `s` with one command word, its bits above `nbits` zero, as the next input the idle block will accept. -/
def State.offer (s : State) (nbits w : Nat) : State :=
  { s with seq := none, inbox := .command (BitVec.ofNat 32 (w % 2 ^ nbits)) :: s.inbox }

end Sys2Proof.Machine
end

