-- ==== Sys2Proof/Machine/Rom.lean ====
section
/-! DEFINITION. `twiddle_rom` (spec/41_twiddle_rom.md rules R70 to R75): constants of the configuration, read
and never written (R24). -/

namespace Sys2Proof.Machine

/-- `brv(x, len)` (R70): the loop's body `r <- (r << 1) | x[i]` for `i = 0, ..., len - 1`. The spec defines it
for `x < 2^len` and no rule applies it elsewhere (log entry 8). -/
def brv (x : Nat) : Nat → Nat
  | 0 => 0
  | len + 1 => 2 * brv x len + x / 2 ^ len % 2

/-- The flat table `wn[i] = W^i mod Q` (R71); elaboration only. -/
def wn (c : Config) (i : Nat) : Nat := c.w ^ i % c.q

/-- The flat table `wn_inv[i] = WINV^i mod Q` (R72); elaboration only. -/
def wnInv (c : Config) (i : Nat) : Nat := c.winv ^ i % c.q

/-- Word `i` of ROM table 0, `FWD[i] = wn[brv(i, L)]`, for `i < H` (R73). -/
def fwd (c : Config) (i : Nat) : Nat := wn c (brv i c.l)

/-- Word `i` of ROM table 1, `INV[i] = wn_inv[brv(i, L) + 1]`, for `i < H` (R74). -/
def inv (c : Config) (i : Nat) : Nat := wnInv c (brv i c.l + 1)

/-- Word `i` of ROM table 2, `WQ[i] = wn[2 * brv(i, L) + 1]`, for `i < H` (R75). -/
def wq (c : Config) (i : Nat) : Nat := wn c (2 * brv i c.l + 1)

/-- The address space `ROM` (R29, R30): table `t` in 0 to 2, index below H; no other word exists. -/
def romWord (c : Config) (t i : Nat) : Option Nat :=
  if i < c.h then
    match t with
    | 0 => some (fwd c i)
    | 1 => some (inv c i)
    | 2 => some (wq c i)
    | _ => none
  else none

end Sys2Proof.Machine
end

