-- ==== Sys2Proof/Machine/Operands.lean ====
section
/-! DEFINITION. The operand checks (spec/20_memory.md rule R32, spec/30_encoding.md R46, R47) in the order of
R51 and R113, and the whole-bank source operands (spec/10_state.md R16). -/

namespace Sys2Proof.Machine

/-- A word index the banks have: `idx < N` (R30, R46). -/
def wordIdxOk (c : Config) (idx : Nat) : Bool := idx < c.n

/-- A stage number the transforms have: `t < L` (R32, R46). -/
def stageOk (c : Config) (t : Nat) : Bool := t < c.l

/-- An immediate that is a field element: `imm < Q` (R47). -/
def immOk (c : Config) (imm : Nat) : Bool := imm < c.q

/-- `LDC`'s checks (R104, R113): the index before the value; the first that fails decides the one flag. -/
def loadCheck (c : Config) (idx imm : Nat) : Option ErrFlag :=
  if !wordIdxOk c idx then some .idx
  else if !immOk c imm then some .range
  else none

/-- A command over one source bank: its words, put through `f` (R16). -/
def State.mapBank (s : State) (a : Bank) (f : List Nat → List Nat) : Option (List Nat) :=
  (s.readBank a).map f

/-- A command over two source banks, which may be the same one (R16, R98). -/
def State.mapBanks (s : State) (a b : Bank) (f : List Nat → List Nat → List Nat) : Option (List Nat) :=
  (s.readBank a).bind fun xs => (s.readBank b).map fun ys => f xs ys

end Sys2Proof.Machine
end

