-- ==== Sys2Proof/Machine/HostAccess.lean ====
section
/-! DEFINITION. The host's commands `NOP`, `LDC`, `RDC`, `RDS` (spec/45_host_access.md rules R103 to R106) and
`RDT` (spec/41_twiddle_rom.md rule R78). -/

namespace Sys2Proof.Machine

/-- `NOP` (R103). -/
def execNop (s : State) : Host.Outcome State Fault Refusal := .next s

/-- `LDC xd[idx], imm` (R104): the low DW bits of the immediate (R33). -/
def execLdc (d : Bank) (idx imm : Nat) (s : State) : Host.Outcome State Fault Refusal :=
  match loadCheck s.cfg idx imm with
  | some e => .next (s.raise e)
  | none => .next (s.writeWord d idx (imm % 2 ^ s.cfg.dw))

/-- `RDC xa[idx]` (R105). -/
def execRdc (a : Bank) (idx : Nat) (s : State) : Host.Outcome State Fault Refusal :=
  if wordIdxOk s.cfg idx then .next (s.respond (zext16 (s.readWord a idx)))
  else .next ((s.raise .idx).respond faultResponse)

/-- `RDT tbl[idx]` (R78). -/
def execRdt (tbl idx : Nat) (s : State) : Host.Outcome State Fault Refusal :=
  match romWord s.cfg tbl idx with
  | some v => .next (s.respond (zext16 v))
  | none => .next ((s.raise .idx).respond faultResponse)

/-- `RDS` (R106): reading clears nothing. -/
def execRds (s : State) : Host.Outcome State Fault Refusal := .next (s.respond s.status)

end Sys2Proof.Machine
end

