-- ==== Sys2Proof/Machine/Units.lean ====
section
/-! DEFINITION. `modular_add_sub_unit` and `modular_mult_unit` (spec/40_modular_units.md rules R58 to R65). -/

namespace Sys2Proof.Machine

/-- The output of a unit for operands to which R58 to R61 give no result (R63): any value of DW bits
(93_implementation_defined.md U2). -/
def unspecifiedOutput (c : Config) (fn : UnitFn) (a b : Nat) : Nat :=
  Config.unitOutput c fn a b % 2 ^ c.dw

/-- `mod_add` (R58). -/
def modAdd (c : Config) (a b : Nat) : Nat :=
  if a < c.q ∧ b < c.q then
    let s := a + b
    if s ≥ c.q then s - c.q else s
  else unspecifiedOutput c .add a b

/-- `mod_sub` (R59): the difference is formed as an integer and corrected by Q where it is negative. -/
def modSub (c : Config) (a b : Nat) : Nat :=
  if a < c.q ∧ b < c.q then
    let t : Int := (a : Int) - (b : Int)
    if t < 0 then (t + (c.q : Int)).toNat else t.toNat
  else unspecifiedOutput c .sub a b

/-- `mod_hlv` (R60). -/
def modHlv (c : Config) (a : Nat) : Nat :=
  if a < c.q then
    if a % 2 = 0 then a >>> 1 else (a + c.q) >>> 1
  else unspecifiedOutput c .hlv a 0

/-- `mod_mul` (R61): the exact product, then its remainder. -/
def modMul (c : Config) (a b : Nat) : Nat :=
  if a < c.q ∧ b < c.q then
    let p := a * b
    p % c.q
  else unspecifiedOutput c .mul a b

/-- The port level of `modular_add_sub_unit` (R65): `fn` selects ADD, SUB or HLV; for the reserved value 3,
which the sequencer never drives, any value of DW bits (93_implementation_defined.md U3). -/
def addSubUnit (c : Config) (fn : BitVec 2) (a b : Nat) : Nat :=
  match fn.toNat with
  | 0 => modAdd c a b
  | 1 => modSub c a b
  | 2 => modHlv c a
  | _ => unspecifiedOutput c .reserved a b

/-- The port level of `modular_mult_unit` (R65). -/
def multUnit (c : Config) (a b : Nat) : Nat := modMul c a b

end Sys2Proof.Machine
end

