-- ==== Sys2Proof/Machine/Forward.lean ====
section
/-! DEFINITION. `ntt_forward_butterfly_stage`: the forward butterfly, stage and transform, and the commands
`FSTG` and `NTT` (spec/42_forward_stage.md rules R82 to R86). -/

namespace Sys2Proof.Machine

/-- The forward (Cooley-Tukey) butterfly `ct` (R82). -/
def ct (c : Config) (A B Wt : Nat) : Nat × Nat :=
  let T := modMul c Wt B
  (modAdd c A T, modSub c A T)

/-- Word `j` of a bank's words; the sequencer forms no index outside the bank (R21, R32). -/
def coeffAt (x : List Nat) (j : Nat) : Nat := x[j]?.getD 0

/-- One butterfly in place: both words of the pair `(j, j + m)` are read before either is written (R37). -/
def butterfly (f : Nat → Nat → Nat × Nat) (x : List Nat) (j m : Nat) : List Nat :=
  let r := f (coeffAt x j) (coeffAt x (j + m))
  (x.set j r.1).set (j + m) r.2

/-- The loop nest of forward stage `t` (R84), as the values the sequencer's fields take, in order: block `b`
of the stage starts at `s = b * 2m` and uses the twiddle index `k = 2^t + b` (R83). -/
def fwdPoints (c : Config) (t : Nat) : List LoopPoint :=
  let m := c.h >>> t
  (List.range (2 ^ t)).flatMap fun b =>
    (List.range m).map fun i => { t := t, m := m, s := b * (2 * m), j := b * (2 * m) + i, k := 2 ^ t + b }

/-- The forward butterfly at one point of the loop nest. -/
def fwdButterfly (c : Config) (x : List Nat) (p : LoopPoint) : List Nat :=
  butterfly (fun A B => ct c A B (fwd c p.k)) x p.j p.m

/-- `fwd_stage(d, t)` on a bank's words (R84). -/
def fwdStage (c : Config) (t : Nat) (x : List Nat) : List Nat :=
  (fwdPoints c t).foldl (fwdButterfly c) x

/-- The forward transform of a bank's words (R86): stages `0, ..., L - 1`. -/
def nttWords (c : Config) (x : List Nat) : List Nat :=
  (List.range c.l).foldl (fun y t => fwdStage c t y) x

/-- `FSTG xd, t` (R85). -/
def execFstg (d : Bank) (t : Nat) (s : State) : Host.Outcome State Fault Refusal :=
  if stageOk s.cfg t then .next (s.finishBank d (s.mapBank d (fwdStage s.cfg t)))
  else .next (s.raise .idx)

/-- `NTT xd` (R86). With `N = 2` there is no stage, so no word is read or written. -/
def execNtt (d : Bank) (s : State) : Host.Outcome State Fault Refusal :=
  if s.cfg.l = 0 then .next s
  else .next (s.finishBank d (s.mapBank d (nttWords s.cfg)))

end Sys2Proof.Machine
end

