-- ==== Sys2Proof/Machine/Inverse.lean ====
section
/-! DEFINITION. `ntt_inverse_butterfly_stage`: the inverse butterfly, stage and transform, and the commands
`ISTG` and `INTT` (spec/43_inverse_stage.md rules R90 to R94). -/

namespace Sys2Proof.Machine

/-- The inverse (Gentleman-Sande, halved) butterfly `gs` (R90). -/
def gs (c : Config) (A B Wt : Nat) : Nat × Nat :=
  let E := modAdd c A B
  let D := modSub c A B
  let O := modMul c D Wt
  (modHlv c E, modHlv c O)

/-- The loop nest of inverse stage `t` (R92), as the values the sequencer's fields take, in order: distance
`m = 2 << t`, block `b` starting at `s = b * 2m`, twiddle index `k = H - (H >> t) + b` (R91). -/
def invPoints (c : Config) (t : Nat) : List LoopPoint :=
  let m := 2 <<< t
  (List.range (c.h >>> (t + 1))).flatMap fun b =>
    (List.range m).map fun i =>
      { t := t, m := m, s := b * (2 * m), j := b * (2 * m) + i, k := c.h - (c.h >>> t) + b }

/-- The inverse butterfly at one point of the loop nest. -/
def invButterfly (c : Config) (x : List Nat) (p : LoopPoint) : List Nat :=
  butterfly (fun A B => gs c A B (inv c p.k)) x p.j p.m

/-- `inv_stage(d, t)` on a bank's words (R92). -/
def invStage (c : Config) (t : Nat) (x : List Nat) : List Nat :=
  (invPoints c t).foldl (invButterfly c) x

/-- The inverse transform of a bank's words (R94): stages `0, ..., L - 1`, and no scaling after the last. -/
def inttWords (c : Config) (x : List Nat) : List Nat :=
  (List.range c.l).foldl (fun y t => invStage c t y) x

/-- `ISTG xd, t` (R93). -/
def execIstg (d : Bank) (t : Nat) (s : State) : Host.Outcome State Fault Refusal :=
  if stageOk s.cfg t then .next (s.finishBank d (s.mapBank d (invStage s.cfg t)))
  else .next (s.raise .idx)

/-- `INTT xd` (R94). With `N = 2` there is no stage, so no word is read or written. -/
def execIntt (d : Bank) (s : State) : Host.Outcome State Fault Refusal :=
  if s.cfg.l = 0 then .next s
  else .next (s.finishBank d (s.mapBank d (inttWords s.cfg)))

end Sys2Proof.Machine
end

