-- ==== Sys2Proof/Machine/Pwm.lean ====
section
/-! DEFINITION. `negative_wrapped_pointwise_multiply_controller`: the pair product and the command `PWM`
(spec/44_pwm.md rules R96 to R98). -/

namespace Sys2Proof.Machine

/-- `pair_mul` (R96): `(a0 + a1*X) * (b0 + b1*X)` reduced by `X^2 = z`. -/
def pairMul (c : Config) (a0 a1 b0 b1 z : Nat) : Nat × Nat :=
  let c0 := modAdd c (modMul c a0 b0) (modMul c (modMul c a1 b1) z)
  let c1 := modAdd c (modMul c a0 b1) (modMul c a1 b0)
  (c0, c1)

/-- Slot `i` of the product (R97): words `2i` and `2i + 1` of the sources, wrap value `WQ[i]`. -/
def pwmSlot (c : Config) (x y : List Nat) (i : Nat) : Nat × Nat :=
  pairMul c (coeffAt x (2 * i)) (coeffAt x (2 * i + 1)) (coeffAt y (2 * i)) (coeffAt y (2 * i + 1)) (wq c i)

/-- The destination words of `PWM`, slot after slot (R97). Within a slot all four source words are read before
either destination word is written and no other word is used, so aliasing changes nothing (R98). -/
def pwmWords (c : Config) (x y : List Nat) : List Nat :=
  (List.range c.h).flatMap fun i => [(pwmSlot c x y i).1, (pwmSlot c x y i).2]

/-- `PWM xd, xa, xb` (R97). -/
def execPwm (d a b : Bank) (s : State) : Host.Outcome State Fault Refusal :=
  .next (s.finishBank d (s.mapBanks a b (pwmWords s.cfg)))

end Sys2Proof.Machine
end

