-- ==== Sys2Proof/Machine/WordWise.lean ====
section
/-! DEFINITION. The word-wise commands `MADD`, `MSUB`, `MMUL`, `MHLV` (spec/40_modular_units.md rules R66 to
R69): lane `i` of the result depends on lane `i` of the sources only. -/

namespace Sys2Proof.Machine

/-- `MADD xd, xa, xb` (R66). -/
def execMadd (d a b : Bank) (s : State) : Host.Outcome State Fault Refusal :=
  .next (s.finishBank d (s.mapBanks a b (List.zipWith (modAdd s.cfg))))

/-- `MSUB xd, xa, xb`: `a` minus `b` (R67). -/
def execMsub (d a b : Bank) (s : State) : Host.Outcome State Fault Refusal :=
  .next (s.finishBank d (s.mapBanks a b (List.zipWith (modSub s.cfg))))

/-- `MMUL xd, xa, xb` (R68). -/
def execMmul (d a b : Bank) (s : State) : Host.Outcome State Fault Refusal :=
  .next (s.finishBank d (s.mapBanks a b (List.zipWith (modMul s.cfg))))

/-- `MHLV xd, xa` (R69). -/
def execMhlv (d a : Bank) (s : State) : Host.Outcome State Fault Refusal :=
  .next (s.finishBank d (s.mapBank a (List.map (modHlv s.cfg))))

end Sys2Proof.Machine
end

