-- ==== Sys2Proof/Machine/Dispatch.lean ====
section
/-! DEFINITION. One arm per command of spec/opcode_table.json. -/

namespace Sys2Proof.Machine

def exec (i : Instr) (s : State) : Host.Outcome State Fault Refusal :=
  match i with
  | .nop => Sys2Proof.Machine.execNop s
  | .ldc d idx imm => Sys2Proof.Machine.execLdc d idx imm s
  | .rdc a idx => Sys2Proof.Machine.execRdc a idx s
  | .rdt tbl idx => Sys2Proof.Machine.execRdt tbl idx s
  | .rds => Sys2Proof.Machine.execRds s
  | .ntt d => Sys2Proof.Machine.execNtt d s
  | .intt d => Sys2Proof.Machine.execIntt d s
  | .pwm d a b => Sys2Proof.Machine.execPwm d a b s
  | .madd d a b => Sys2Proof.Machine.execMadd d a b s
  | .msub d a b => Sys2Proof.Machine.execMsub d a b s
  | .mmul d a b => Sys2Proof.Machine.execMmul d a b s
  | .mhlv d a => Sys2Proof.Machine.execMhlv d a s
  | .fstg d t => Sys2Proof.Machine.execFstg d t s
  | .istg d t => Sys2Proof.Machine.execIstg d t s

end Sys2Proof.Machine
end

