-- ==== Sys2Proof/Machine/Sequence.lean ====
section
/-! DEFINITION. The sequencer (spec/10_state.md rules R20 to R23): the first loop point of a multi-step command,
the next one, and the work done at one point. Its counter form is the loop "written out" in R86 and R94; the
commands' meanings use the closed form of R83 and R91. -/

namespace Sys2Proof.Machine

/-- The loop fields a multi-step command loads (R21, R84, R86, R92, R94, R97); `none` for a command that is not
multi-step, for a stage command whose stage does not exist and for a transform without stages. Fields a command
has no use for are 0, and no rule reads them (log entry 9). -/
def firstPoint (c : Config) : Instr → Option LoopPoint
  | .nop => none
  | .ldc _ _ _ => none
  | .rdc _ _ => none
  | .rdt _ _ => none
  | .rds => none
  | .ntt _ => if c.l = 0 then none else some { t := 0, m := c.n / 2, s := 0, j := 0, k := 1 }
  | .intt _ => if c.l = 0 then none else some { t := 0, m := 2, s := 0, j := 0, k := 0 }
  | .pwm _ _ _ => some { t := 0, m := 0, s := 0, j := 0, k := 0 }
  | .madd _ _ _ => some { t := 0, m := 0, s := 0, j := 0, k := 0 }
  | .msub _ _ _ => some { t := 0, m := 0, s := 0, j := 0, k := 0 }
  | .mmul _ _ _ => some { t := 0, m := 0, s := 0, j := 0, k := 0 }
  | .mhlv _ _ => some { t := 0, m := 0, s := 0, j := 0, k := 0 }
  | .fstg _ t => if stageOk c t then some { t := t, m := c.h >>> t, s := 0, j := 0, k := 2 ^ t } else none
  | .istg _ t =>
    if stageOk c t then some { t := t, m := 2 <<< t, s := 0, j := 0, k := c.h - (c.h >>> t) } else none

/-- The next butterfly of a stage: the next word of the block, else the next block and the next twiddle. -/
def nextInStage (c : Config) (p : LoopPoint) : Option LoopPoint :=
  if p.j + 1 < p.s + p.m then some { p with j := p.j + 1 }
  else if p.s + 2 * p.m < c.n then some { p with s := p.s + 2 * p.m, j := p.s + 2 * p.m, k := p.k + 1 }
  else none

/-- The next pair or word, of `count` in all. -/
def nextItem (count : Nat) (p : LoopPoint) : Option LoopPoint :=
  if p.j + 1 < count then some { p with j := p.j + 1 } else none

/-- The loop fields after one point's work (R21); `none` when the last step is done. The transforms' distance
halves while it is at least 2, or doubles while it is at most N/2, and their `K` counts on (R86, R94). -/
def nextPoint (c : Config) (i : Instr) (p : LoopPoint) : Option LoopPoint :=
  match i with
  | .nop => none
  | .ldc _ _ _ => none
  | .rdc _ _ => none
  | .rdt _ _ => none
  | .rds => none
  | .ntt _ =>
    (nextInStage c p).or
      (if 2 ≤ p.m / 2 then some { t := p.t + 1, m := p.m / 2, s := 0, j := 0, k := p.k + 1 } else none)
  | .intt _ =>
    (nextInStage c p).or
      (if 2 * p.m ≤ c.n / 2 then some { t := p.t + 1, m := 2 * p.m, s := 0, j := 0, k := p.k + 1 } else none)
  | .pwm _ _ _ => nextItem c.h p
  | .madd _ _ _ => nextItem c.n p
  | .msub _ _ _ => nextItem c.n p
  | .mmul _ _ _ => nextItem c.n p
  | .mhlv _ _ => nextItem c.n p
  | .fstg _ _ => nextInStage c p
  | .istg _ _ => nextInStage c p

/-- One step of a multi-step command writes word `i` of bank `d`: the computed value, or, for a command that read
an unwritten word, the word's unspecified result (R15). -/
def State.writeResult (s : State) (draw : Option Nat) (d : Bank) (i v : Nat) : State :=
  match draw with
  | none => s.writeWord d i v
  | some k => s.writeWord d i (unspecifiedResult s.cfg k i)

/-- One butterfly in a bank: both words read, then both written (R37). -/
def State.butterflyAt (s : State) (draw : Option Nat) (d : Bank) (f : Nat → Nat → Nat × Nat) (p : LoopPoint) :
    State :=
  let r := f (s.readWord d p.j) (s.readWord d (p.j + p.m))
  (s.writeResult draw d p.j r.1).writeResult draw d (p.j + p.m) r.2

/-- One slot of `PWM`: four words read, then two written (R97, R98). -/
def State.slotAt (s : State) (draw : Option Nat) (d a b : Bank) (i : Nat) : State :=
  let r := pairMul s.cfg (s.readWord a (2 * i)) (s.readWord a (2 * i + 1))
    (s.readWord b (2 * i)) (s.readWord b (2 * i + 1)) (wq s.cfg i)
  (s.writeResult draw d (2 * i) r.1).writeResult draw d (2 * i + 1) r.2

/-- The work of one loop point: the body of the command's pseudocode. -/
def State.bodyAt (s : State) (q : Sequencer) : State :=
  let p := q.point
  match q.cmd with
  | .nop => s
  | .ldc _ _ _ => s
  | .rdc _ _ => s
  | .rdt _ _ => s
  | .rds => s
  | .ntt d => s.butterflyAt q.draw d (fun A B => ct s.cfg A B (fwd s.cfg p.k)) p
  | .intt d => s.butterflyAt q.draw d (fun A B => gs s.cfg A B (inv s.cfg p.k)) p
  | .pwm d a b => s.slotAt q.draw d a b p.j
  | .madd d a b => s.writeResult q.draw d p.j (modAdd s.cfg (s.readWord a p.j) (s.readWord b p.j))
  | .msub d a b => s.writeResult q.draw d p.j (modSub s.cfg (s.readWord a p.j) (s.readWord b p.j))
  | .mmul d a b => s.writeResult q.draw d p.j (modMul s.cfg (s.readWord a p.j) (s.readWord b p.j))
  | .mhlv d a => s.writeResult q.draw d p.j (modHlv s.cfg (s.readWord a p.j))
  | .fstg d _ => s.butterflyAt q.draw d (fun A B => ct s.cfg A B (fwd s.cfg p.k)) p
  | .istg d _ => s.butterflyAt q.draw d (fun A B => gs s.cfg A B (inv s.cfg p.k)) p

/-- One step of the sequencer: the point's work, then the next point or idle (R21). -/
def State.sequencerStep (s : State) (q : Sequencer) : State :=
  { s.bodyAt q with
    seq := (nextPoint s.cfg q.cmd q.point).map fun p => { q with point := p } }

/-- The command in execution carried to its end, in at most `fuel` sequencer steps (R21, R22). -/
def State.drain : Nat → State → State
  | 0, s => s
  | fuel + 1, s =>
    match s.seq with
    | none => s
    | some q => State.drain fuel (s.sequencerStep q)

/-- A bound on the sequencer steps of one command: a transform's `L * H` butterflies, or a word-wise command's
`N` words (R129). -/
def drainFuel (c : Config) : Nat := c.l * c.h + c.n

/-- Whether every bank the command reads whole is fully written (R15, R16, R125). -/
def State.sourcesWritten (s : State) : Instr → Bool
  | .nop => true
  | .ldc _ _ _ => true
  | .rdc _ _ => true
  | .rdt _ _ => true
  | .rds => true
  | .ntt d => (s.readBank d).isSome
  | .intt d => (s.readBank d).isSome
  | .pwm _ a b => (s.readBank a).isSome && (s.readBank b).isSome
  | .madd _ a b => (s.readBank a).isSome && (s.readBank b).isSome
  | .msub _ a b => (s.readBank a).isSome && (s.readBank b).isSome
  | .mmul _ a b => (s.readBank a).isSome && (s.readBank b).isSome
  | .mhlv _ a => (s.readBank a).isSome
  | .fstg d _ => (s.readBank d).isSome
  | .istg d _ => (s.readBank d).isSome

/-- A multi-step command accepted: `SEQ` is loaded with the command's first loop point, whatever the banks hold
(R21). A command that reads an unwritten word takes the next number of free values (log entry 3). -/
def State.loadSequencer (s : State) (i : Instr) (p : LoopPoint) : State :=
  if s.sourcesWritten i then { s with seq := some { cmd := i, point := p, draw := none } }
  else { s with seq := some { cmd := i, point := p, draw := some s.draws }, draws := s.draws + 1 }

end Sys2Proof.Machine
end

