-- ==== Sys2Proof/Machine/Engine.lean ====
section
/-! DEFINITION. What the engine does with its next input (spec/10_state.md R21, R22, spec/20_memory.md R36,
spec/70_reset_and_hazards.md R123, R124, R127): command by command, and sequencer step by sequencer step. -/

namespace Sys2Proof.Machine

/-- A command word accepted by the idle block: a word that is no command raises `ERR_OP` and does nothing else
(R51, R109); a command has its whole effect (R22). -/
def State.runWord (s : State) (w : CommandWord) : Host.Outcome State Fault Refusal :=
  match decode w with
  | .error _ => .next (s.raise .op)
  | .ok i => exec i s

/-- One architectural step: reset is taken from any state (R124); a command in execution, if there is one, is
carried to its end, since a busy block accepts nothing (R22); an idle block accepts and completes the next
command (R36), or waits for one (R122). -/
def engineStep (s : State) : Host.Outcome State Fault Refusal :=
  match s.inbox, s.seq with
  | .reset :: rest, _ => .next (s.takeReset rest)
  | _, some _ => .next (s.drain (drainFuel s.cfg))
  | .command w :: rest, none => (s.accept rest).runWord w
  | [], none => .next s

/-- A command word accepted by the idle block, at the sequencer's level: a multi-step command that passes its
checks loads the sequencer (R21), any other command completes. -/
def State.startWord (s : State) (w : CommandWord) : Host.Outcome State Fault Refusal :=
  match decode w with
  | .error _ => .next (s.raise .op)
  | .ok i =>
    match firstPoint s.cfg i with
    | some p => .next (s.loadSequencer i p)
    | none => exec i s

/-- One step at the sequencer's level: reset, also in the middle of a command (R124); else one butterfly, pair or
word of the command in execution; else the acceptance of a command. It is no clock cycle: the spec gives none
(R128). -/
def engineTick (s : State) : Host.Outcome State Fault Refusal :=
  match s.inbox, s.seq with
  | .reset :: rest, _ => .next (s.takeReset rest)
  | _, some q => .next (s.sequencerStep q)
  | .command w :: rest, none => (s.accept rest).startWord w
  | [], none => .next s

/-- `k` sequencer-level steps. -/
def engineTicks : Nat → State → Host.Outcome State Fault Refusal
  | 0, s => .next s
  | k + 1, s =>
    match engineTick s with
    | .next t => engineTicks k t
    | .fault r => .fault r
    | .refused r => .refused r

/-- A list of commands, each completely and in order (R36, R127). -/
def execAll : List Instr → State → Host.Outcome State Fault Refusal
  | [], s => .next s
  | i :: is, s =>
    match exec i s with
    | .next t => execAll is t
    | .fault r => .fault r
    | .refused r => .refused r

end Sys2Proof.Machine
end

