-- ==== Sys2Proof/Machine/Step.lean ====
section
/-! DEFINITION. The step of the machine, and where it takes its next command from. -/

namespace Sys2Proof.Machine

/-- One step: one input of the host, completely (R22, R36). -/
def step (s : State) : Host.Outcome State Fault Refusal := engineStep s

/-- `s` with the word as the command the idle block accepts next (R101). The block fetches nothing (R40): the
word is put at the head of the host's inputs. -/
def State.withFetchWord (s : State) (nbits w : Nat) : State := s.offer nbits w

end Sys2Proof.Machine
end

