-- ==== Sys2Proof/Safety.lean ====
section
/-! DEFINITION. What counts as a safe run, and the words claims are made in. -/

namespace Sys2Proof

/-- The bank a command writes (R16); `none` for a command that writes none. -/
def Instr.dest : Instr → Option Bank
  | .nop => none
  | .ldc d _ _ => some d
  | .rdc _ _ => none
  | .rdt _ _ => none
  | .rds => none
  | .ntt d => some d
  | .intt d => some d
  | .pwm d _ _ => some d
  | .madd d _ _ => some d
  | .msub d _ _ => some d
  | .mmul d _ _ => some d
  | .mhlv d _ => some d
  | .fstg d _ => some d
  | .istg d _ => some d

/-- The banks a command reads (R16). -/
def Instr.sources : Instr → List Bank
  | .nop => []
  | .ldc _ _ _ => []
  | .rdc a _ => [a]
  | .rdt _ _ => []
  | .rds => []
  | .ntt d => [d]
  | .intt d => [d]
  | .pwm _ a b => [a, b]
  | .madd _ a b => [a, b]
  | .msub _ a b => [a, b]
  | .mmul _ a b => [a, b]
  | .mhlv _ a => [a]
  | .fstg d _ => [d]
  | .istg d _ => [d]

/-- The commands that have a response: `RDC`, `RDT`, `RDS` (R25). -/
def Instr.responds : Instr → Bool
  | .nop => false
  | .ldc _ _ _ => false
  | .rdc _ _ => true
  | .rdt _ _ => true
  | .rds => true
  | .ntt _ => false
  | .intt _ => false
  | .pwm _ _ _ => false
  | .madd _ _ _ => false
  | .msub _ _ _ => false
  | .mmul _ _ _ => false
  | .mhlv _ _ => false
  | .fstg _ _ => false
  | .istg _ _ => false

namespace Machine

/-- Word `i` of bank `b` is `p i`, a field element, for every `i < N`: the bank is fully written (R125). -/
def State.holds (s : State) (b : Bank) (p : Nat → Nat) : Prop :=
  ∀ i, i < s.cfg.n → s.word b i = some (p i) ∧ p i < s.cfg.q

/-- Nothing but the words of bank `d` differs between the two states. -/
def State.onlyBank (s t : State) (d : Bank) : Prop :=
  t = { s with coef := t.coef } ∧ ∀ b, b ≠ d → ∀ i, t.word b i = s.word b i

/-- The range invariant (R14): every written word holds a field element. -/
def State.inRange (s : State) : Prop := ∀ b i v, s.word b i = some v → v < s.cfg.q

/-- The state of an engine at a command boundary: a legal configuration (R6), four banks of N words of DW bits
(R13), the reserved bits of `STATUS` zero (R18), the sequencer idle (R21). -/
def State.Inv (s : State) : Prop :=
  s.cfg.Legal ∧ s.coef.wf s.cfg = true ∧ statusReserved s.status = true ∧ s.seq = none

/-- The command reads no unwritten word in this state. Where this is false R15 has no value for the result: "A
model gives an unwritten word no value and refuses (or faults) a command that reads one". This model runs the
command with free values (log entry 3); a claim about values takes `admits` as a premise or proves it. -/
def State.admits (s : State) (i : Instr) : Bool :=
  match i with
  | .nop => true
  | .ldc _ _ _ => true
  | .rdc a idx => !wordIdxOk s.cfg idx || (s.word a idx).isSome
  | .rdt _ _ => true
  | .rds => true
  | .ntt d => s.cfg.l == 0 || s.sourcesWritten (.ntt d)
  | .intt d => s.cfg.l == 0 || s.sourcesWritten (.intt d)
  | .pwm d a b => s.sourcesWritten (.pwm d a b)
  | .madd d a b => s.sourcesWritten (.madd d a b)
  | .msub d a b => s.sourcesWritten (.msub d a b)
  | .mmul d a b => s.sourcesWritten (.mmul d a b)
  | .mhlv d a => s.sourcesWritten (.mhlv d a)
  | .fstg d t => !stageOk s.cfg t || s.sourcesWritten (.fstg d t)
  | .istg d t => !stageOk s.cfg t || s.sourcesWritten (.istg d t)

/-- The step's next input is no command that reads an unwritten word. -/
def State.nextAdmitted (s : State) : Bool :=
  match s.inbox with
  | [] => true
  | .reset :: _ => true
  | .command w :: _ =>
    match decode w with
    | .error _ => true
    | .ok i => s.admits i

/-- The fault a decoded command raises in an engine of configuration `c`, as R110, R111 and R113 name it: the
index, table or stage number before the immediate. The table field is two bits wide, so 3 is its one number
without a table. -/
def faultOf (c : Config) : Instr → Option ErrFlag
  | .nop => none
  | .ldc _ idx imm => if c.n ≤ idx then some .idx else if c.q ≤ imm then some .range else none
  | .rdc _ idx => if c.n ≤ idx then some .idx else none
  | .rdt tbl idx => if 3 ≤ tbl ∨ c.h ≤ idx then some .idx else none
  | .rds => none
  | .ntt _ => none
  | .intt _ => none
  | .pwm _ _ _ => none
  | .madd _ _ _ => none
  | .msub _ _ _ => none
  | .mmul _ _ _ => none
  | .mhlv _ _ => none
  | .fstg _ t => if c.l ≤ t then some .idx else none
  | .istg _ t => if c.l ≤ t then some .idx else none

/-- No fault has been recorded since reset (R115). -/
def State.faultFree (s : State) : Prop := s.status = 0#16

/-- A run is over: every word accepted and the block idle again (R127). -/
def State.runOver (s : State) : Prop := s.inbox = [] ∧ s.seq = none

/-- What the sequencer holds of `SEQ` (R20): the command and its loop fields, without the model's own `draw`;
`none` when it is idle. -/
def State.seqTuple (s : State) : Option (Instr × LoopPoint) := s.seq.map fun q => (q.cmd, q.point)

/-- The loop fields a sequencer may hold: the closed forms and ranges of R20, R83 and R91. -/
def Sequencer.Ok (c : Config) (q : Sequencer) : Prop :=
  let p := q.point
  let forward := p.t < c.l ∧ p.m = c.h >>> p.t ∧
    ∃ b, b < 2 ^ p.t ∧ p.s = b * (2 * p.m) ∧ p.k = 2 ^ p.t + b ∧ p.s ≤ p.j ∧ p.j < p.s + p.m
  let inverse := p.t < c.l ∧ p.m = 2 <<< p.t ∧
    ∃ b, b < c.h >>> (p.t + 1) ∧ p.s = b * (2 * p.m) ∧ p.k = c.h - (c.h >>> p.t) + b ∧ p.s ≤ p.j ∧ p.j < p.s + p.m
  match q.cmd with
  | .nop => False
  | .ldc _ _ _ => False
  | .rdc _ _ => False
  | .rdt _ _ => False
  | .rds => False
  | .ntt _ => forward
  | .intt _ => inverse
  | .pwm _ _ _ => p.j < c.h
  | .madd _ _ _ => p.j < c.n
  | .msub _ _ _ => p.j < c.n
  | .mmul _ _ _ => p.j < c.n
  | .mhlv _ _ => p.j < c.n
  | .fstg _ t => p.t = t ∧ forward
  | .istg _ t => p.t = t ∧ inverse

/-- The forward transform of the polynomial `p` (R88): words `2u` and `2u + 1` are the remainder of `p` on division
by `X^2 - WQ[u]`. -/
def forwardTransform (c : Config) (p : Nat → Nat) (i : Nat) : Nat :=
  (∑ u ∈ Finset.range c.h, p (2 * u + i % 2) * wq c (i / 2) ^ u) % c.q

/-- The document's oracle `naiveMultiply` (R100): coefficient `k` of the product of `p` and `r` modulo `X^N + 1`
and `Q`. -/
def naiveMultiply (c : Config) (p r : Nat → Nat) (k : Nat) : Nat :=
  Int.toNat
    (((∑ i ∈ Finset.range c.n, ∑ j ∈ Finset.range c.n,
        ((if i + j = k then (p i : Int) * (r j : Int) else 0)
          - (if i + j = k + c.n then (p i : Int) * (r j : Int) else 0)))) % (c.q : Int))

end Machine

end Sys2Proof
end

