-- ==== Sys2Proof/Certificates/Slice0/Obligations.lean ====
section
/-! DEFINITION. The statements for the provers. -/

open Sys2Proof Sys2Proof.Machine

/-! ### Encoding -/

/-- R43, R44, R48, R53: every well-formed command, with every operand at every value its field admits, is read
back from its own word. -/
def Obligations.DecodeOfEncodeIsTheCommand : Prop :=
  ∀ i : Instr, i.wellFormed = true → decode (encode i) = .ok i

/-- R49: a word is a command only if it is exactly that command's word; no bit of it is ignored. -/
def Obligations.EncodeOfDecodeIsTheWord : Prop :=
  ∀ (w : CommandWord) (i : Instr), decode w = .ok i → encode i = w ∧ i.wellFormed = true

/-- R48: a word is a row's command exactly when it agrees with the row's `match` under the row's `mask`; the rows
are the table's own, and the two reserved rows are no command. -/
def Obligations.WordIsTheRowItMatches : Prop :=
  (∀ row ∈ [(Opcode.nop, 0x00000000#32, 0xFFFFFFFF#32), (.ldc, 0x10000000#32, 0xF3000000#32),
      (.rdc, 0x20000000#32, 0xFC00FFFF#32), (.rdt, 0x30000000#32, 0xFC00FFFF#32),
      (.rds, 0x40000000#32, 0xFFFFFFFF#32), (.ntt, 0x50000000#32, 0xF3FFFFFF#32),
      (.intt, 0x60000000#32, 0xF3FFFFFF#32), (.pwm, 0x70000000#32, 0xF03FFFFF#32),
      (.madd, 0x80000000#32, 0xF03FFFFF#32), (.msub, 0x90000000#32, 0xF03FFFFF#32),
      (.mmul, 0xA0000000#32, 0xF03FFFFF#32), (.mhlv, 0xB0000000#32, 0xF0FFFFFF#32),
      (.fstg, 0xC0000000#32, 0xF300FFFF#32), (.istg, 0xD0000000#32, 0xF300FFFF#32)],
    ∀ w : CommandWord, (∃ i, decode w = .ok i ∧ i.opcode = row.1) ↔ w &&& row.2.2 = row.2.1) ∧
  ∀ w : CommandWord, (w &&& 0xF0000000#32 = 0xE0000000#32 ∨ w &&& 0xF0000000#32 = 0xF0000000#32) →
    decode w = .error .reservedOpcode

/-- Words written out from R44 and R53 decode to their commands (a sanity statement; 95_test_vectors.md,
section 6). -/
def Obligations.WrittenOutWordsDecode : Prop :=
  ∀ p ∈ [(0x100601F4#32, Instr.ldc .x0 6 500), (0x22070000#32, .rdc .x2 7), (0x31010000#32, .rdt 1 1),
      (0x54000000#32, .ntt .x1), (0x68000000#32, .intt .x2), (0x78400000#32, .pwm .x2 .x0 .x1),
      (0x9F800000#32, .msub .x3 .x3 .x2), (0xB9000000#32, .mhlv .x2 .x1), (0xC0010000#32, .fstg .x0 1)],
    decode p.1 = .ok p.2

/-! ### The step -/

/-- R36: when the next input of the idle block is the word of command `i`, the step is `exec i` on the state with
that input accepted. -/
def Obligations.StepRunsTheDecodedCommand : Prop :=
  ∀ (s : State) (w : CommandWord) (rest : List HostInput) (i : Instr),
    s.seq = none → s.inbox = .command w :: rest → decode w = .ok i →
      step s = exec i { s with inbox := rest }

/-- R109: a word whose opcode is 0xE or 0xF, or which has a must-be-zero bit set, sets `ERR_OP` and does nothing
else: no bank word, no response. -/
def Obligations.WordThatIsNoCommandRaisesErrOp : Prop :=
  ∀ (s : State) (w : CommandWord) (rest : List HostInput),
    s.seq = none → s.inbox = .command w :: rest →
      (0xE ≤ w.toNat / 2 ^ 28 ∨
        ∀ o : Opcode, o.code = w.toNat / 2 ^ 28 → w &&& o.mask ≠ BitVec.ofNat 32 o.code <<< 28) →
      step s = .next { s with inbox := rest, status := s.status ||| 1#16 }

/-- R122: an idle block without an input waits. -/
def Obligations.IdleBlockWaits : Prop :=
  ∀ s : State, s.seq = none → s.inbox = [] → step s = .next s

/-- R22: while a command executes the block accepts no command, whether seen step by step of the sequencer or to
the command's end. -/
def Obligations.BusyBlockAcceptsNothing : Prop :=
  ∀ (s t : State) (q : Sequencer), s.seq = some q → (∀ rest, s.inbox ≠ .reset :: rest) →
    (step s = .next t ∨ engineTick s = .next t) → t.inbox = s.inbox ∧ t.responses = s.responses ∧
      t.status = s.status

/-- R123, R124: reset from any state, also with a command in execution, gives the reset state: `STATUS` zero, the
sequencer idle, no response, every bank word unwritten. The configuration stays (R24). -/
def Obligations.ResetFromAnyStateGivesTheResetState : Prop :=
  ∀ (s : State) (rest : List HostInput), s.inbox = .reset :: rest →
    ∃ t, step s = .next t ∧ engineTick s = .next t ∧ t.status = 0#16 ∧ t.seq = none ∧ t.responses = [] ∧
      (∀ b i, t.word b i = none) ∧ t.cfg = s.cfg ∧ t.inbox = rest

/-- R28: the reset state's values, for the engine of any configuration. -/
def Obligations.ResetStateHoldsTheResetValues : Prop :=
  ∀ c : Config, (State.afterReset c).status = 0x0000#16 ∧ (State.afterReset c).seq = none ∧
    (State.afterReset c).responses = [] ∧ (∀ b i, (State.afterReset c).word b i = none) ∧
    (State.afterReset c).cmdReady = true

/-! ### The host's commands -/

/-- R103: `NOP` changes nothing. -/
def Obligations.NopChangesNothing : Prop :=
  ∀ s : State, exec .nop s = .next s

/-- R104: `LDC` with a legal index and value writes that one word and changes nothing else. -/
def Obligations.LdcWritesOneWord : Prop :=
  ∀ (s : State) (d : Bank) (idx imm : Nat), s.cfg.Legal → s.coef.wf s.cfg = true →
    idx < s.cfg.n → imm < s.cfg.q →
      ∃ t, exec (.ldc d idx imm) s = .next t ∧ t = { s with coef := t.coef } ∧ t.word d idx = some imm ∧
        ∀ b i, (b ≠ d ∨ i ≠ idx) → t.word b i = s.word b i

/-- R105: `RDC` of a written word responds its value, zero-extended, and changes nothing else. -/
def Obligations.RdcRespondsTheWord : Prop :=
  ∀ (s : State) (a : Bank) (idx v : Nat), idx < s.cfg.n → s.word a idx = some v →
    exec (.rdc a idx) s = .next { s with responses := s.responses ++ [BitVec.ofNat 16 v] }

/-- R105 with log entry 3: `RDC` of an unwritten word responds some value of DW bits, raises nothing, and the same
read repeated responds the same value. That the command runs here is the model's choice (log entry 3). -/
def Obligations.RdcOfAnUnwrittenWordRespondsSomeWord : Prop :=
  ∀ (s : State) (a : Bank) (idx : Nat), s.cfg.Legal → idx < s.cfg.n → s.word a idx = none →
    ∃ v : ResponseWord, v.toNat < 2 ^ s.cfg.dw ∧
      exec (.rdc a idx) s = .next { s with responses := s.responses ++ [v] } ∧
      exec (.rdc a idx) { s with responses := s.responses ++ [v] } =
        .next { s with responses := s.responses ++ [v, v] }

/-- R78 with R73, R74, R75: `RDT` responds the ROM word, a power of the root or of its inverse. -/
def Obligations.RdtRespondsTheRomWord : Prop :=
  ∀ (s : State) (idx : Nat), idx < s.cfg.h →
    let c := s.cfg
    let e := brv idx c.l
    exec (.rdt 0 idx) s =
        .next { s with responses := s.responses ++ [BitVec.ofNat 16 (c.w ^ e % c.q)] } ∧
      exec (.rdt 1 idx) s =
        .next { s with responses := s.responses ++ [BitVec.ofNat 16 ((c.w ^ (c.n - 1) % c.q) ^ (e + 1) % c.q)] } ∧
      exec (.rdt 2 idx) s =
        .next { s with responses := s.responses ++ [BitVec.ofNat 16 (c.w ^ (2 * e + 1) % c.q)] }

/-- R106: `RDS` responds `STATUS` and clears nothing. -/
def Obligations.RdsRespondsStatus : Prop :=
  ∀ s : State, exec .rds s = .next { s with responses := s.responses ++ [s.status] }

/-- R25: no field element, read from a bank by `RDC` or from the ROM by `RDT`, is delivered as the all-ones word of a
faulting read. -/
def Obligations.FieldElementsAreNeverTheFaultResponse : Prop :=
  (∀ (s t : State) (a : Bank) (idx v : Nat), s.cfg.Legal → idx < s.cfg.n → s.word a idx = some v → v < s.cfg.q →
    exec (.rdc a idx) s = .next t → ∃ r, t.responses = s.responses ++ [r] ∧ r ≠ 0xFFFF#16 ∧ r.toNat = v) ∧
  ∀ (s t : State) (tbl idx : Nat), s.cfg.Legal → tbl < 3 → idx < s.cfg.h → exec (.rdt tbl idx) s = .next t →
    ∃ r, t.responses = s.responses ++ [r] ∧ r ≠ 0xFFFF#16 ∧ r.toNat < s.cfg.q ∧
      romWord s.cfg tbl idx = some r.toNat

/-- R25: `RDC`, `RDT` and `RDS` produce exactly one response, any other command none. -/
def Obligations.ExactlyTheReadsRespondOnce : Prop :=
  ∀ (i : Instr) (s t : State), exec i s = .next t →
    if i.responds then ∃ v, t.responses = s.responses ++ [v] else t.responses = s.responses

/-! ### Faults -/

/-- R108, R110, R111, R113: a command whose index, table, stage number or immediate is out of range sets exactly
the one flag that the priority names and changes nothing else; only `RDC` and `RDT` respond, with the all-ones
word. A command without a fault leaves `STATUS` as it was. -/
def Obligations.FaultingCommandOnlySetsItsFlag : Prop :=
  ∀ (i : Instr) (s : State),
    (∀ e, faultOf s.cfg i = some e →
      exec i s = .next { s with
        status := s.status ||| (1#16 <<< e.code),
        responses := if i.responds then s.responses ++ [0xFFFF#16] else s.responses }) ∧
    (faultOf s.cfg i = none → ∀ t, exec i s = .next t → t.status = s.status)

/-- R18, R115: the flags are sticky: a step that is no reset clears none of them. -/
def Obligations.FlagsAreSticky : Prop :=
  ∀ s t : State, (∀ rest, s.inbox ≠ .reset :: rest) → step s = .next t → s.status &&& t.status = s.status

/-- R108, R127: nothing stops the block: every command and every step answers a next state. That a command which
reads an unwritten word is among them is the model's choice (log entry 3): R15 and U1 let a model refuse it. -/
def Obligations.NothingStopsTheBlock : Prop :=
  (∀ (i : Instr) (s : State), ∃ t, exec i s = .next t) ∧ ∀ s : State, ∃ t, step s = .next t

/-! ### The arithmetic units and the word-wise commands -/

/-- R58, R59, R60, R61: each unit function gives the field element that is the sum, difference, half or product
modulo Q. -/
def Obligations.UnitFunctionsComputeModuloQ : Prop :=
  ∀ (c : Config) (a b : Nat), c.Legal → a < c.q → b < c.q →
    (modAdd c a b < c.q ∧ (modAdd c a b : Int) ≡ (a : Int) + b [ZMOD c.q]) ∧
    (modSub c a b < c.q ∧ (modSub c a b : Int) ≡ (a : Int) - b [ZMOD c.q]) ∧
    (modHlv c a < c.q ∧ modAdd c (modHlv c a) (modHlv c a) = a ∧ modHlv c (modAdd c a a) = a ∧
      modHlv c a = modMul c a c.half) ∧
    (modMul c a b < c.q ∧ (modMul c a b : Int) ≡ (a : Int) * b [ZMOD c.q])

/-- R64: the laws of the ring of integers modulo Q, on the representatives. -/
def Obligations.UnitFunctionsObeyTheRingLaws : Prop :=
  ∀ (c : Config) (x y z : Nat), c.Legal → x < c.q → y < c.q → z < c.q →
    (modAdd c x 0 = x ∧ modAdd c x y = modAdd c y x ∧ modAdd c (modAdd c x y) z = modAdd c x (modAdd c y z)) ∧
    (modSub c x y = modAdd c x (modSub c 0 y) ∧ modSub c x x = 0 ∧ (0 < y → modSub c 0 y = c.q - y)) ∧
    (modSub c (modAdd c x y) y = x ∧ modAdd c (modSub c x y) y = x) ∧
    (modMul c x 1 = x ∧ modMul c x 0 = 0 ∧ modMul c x y = modMul c y x ∧
      modMul c (modMul c x y) z = modMul c x (modMul c y z)) ∧
    (modMul c x (modAdd c y z) = modAdd c (modMul c x y) (modMul c x z) ∧
      modMul c x (modSub c y z) = modSub c (modMul c x y) (modMul c x z)) ∧
    (modMul c x (c.q - 1) = modSub c 0 x ∧ modMul c (c.q - 1) (c.q - 1) = 1) ∧
    (modAdd c (modHlv c x) (modHlv c x) = x ∧ modHlv c (modAdd c x x) = x ∧
      modHlv c (modAdd c x y) = modAdd c (modHlv c x) (modHlv c y) ∧
      modHlv c (modMul c x y) = modMul c (modHlv c x) y) ∧
    (modHlv c 0 = 0 ∧ modAdd c (c.q - 1) (c.q - 1) = c.q - 2 ∧ modHlv c (c.q - 1) = (c.q - 1) / 2)

/-- R66: `MADD` leaves in each word of its destination the sum modulo Q of the source words, and changes nothing
else; the three banks may be the same. -/
def Obligations.MaddAddsWordByWord : Prop :=
  ∀ (s : State) (d a b : Bank) (x y : Nat → Nat), s.holds a x → s.holds b y →
    ∃ t, exec (.madd d a b) s = .next t ∧ s.onlyBank t d ∧
      ∀ i, i < s.cfg.n → t.word d i = some ((x i + y i) % s.cfg.q)

/-- R67: `MSUB` leaves the differences modulo Q, first source minus second. -/
def Obligations.MsubSubtractsWordByWord : Prop :=
  ∀ (s : State) (d a b : Bank) (x y : Nat → Nat), s.holds a x → s.holds b y →
    ∃ t, exec (.msub d a b) s = .next t ∧ s.onlyBank t d ∧
      ∀ i, i < s.cfg.n → t.word d i = some (if x i < y i then s.cfg.q - (y i - x i) else x i - y i)

/-- R68: `MMUL` leaves the products modulo Q. -/
def Obligations.MmulMultipliesWordByWord : Prop :=
  ∀ (s : State) (d a b : Bank) (x y : Nat → Nat), s.holds a x → s.holds b y →
    ∃ t, exec (.mmul d a b) s = .next t ∧ s.onlyBank t d ∧
      ∀ i, i < s.cfg.n → t.word d i = some (x i * y i % s.cfg.q)

/-- R69: `MHLV` leaves the field elements whose doubles are the source words. -/
def Obligations.MhlvHalvesWordByWord : Prop :=
  ∀ (s : State) (d a : Bank) (x : Nat → Nat), s.cfg.Legal → s.holds a x →
    ∃ t, exec (.mhlv d a) s = .next t ∧ s.onlyBank t d ∧
      ∀ i, i < s.cfg.n → ∃ v, v < s.cfg.q ∧ (v + v) % s.cfg.q = x i ∧ t.word d i = some v

/-- R69, R126: `MADD xd, xa, xa` followed by `MHLV xd, xd` copies bank `a` to bank `d`. -/
def Obligations.DoublingThenHalvingCopiesTheBank : Prop :=
  ∀ (s : State) (d a : Bank) (x : Nat → Nat), s.cfg.Legal → s.holds a x →
    ∃ t, execAll [.madd d a a, .mhlv d d] s = .next t ∧ s.onlyBank t d ∧ t.holds d x

/-! ### The twiddle ROM and elaboration -/

/-- R70: bit reversal puts bit `i` at bit `len - 1 - i`, and is an involution. -/
def Obligations.BitReversalIsAnInvolution : Prop :=
  ∀ len x : Nat, x < 2 ^ len →
    brv x 0 = 0 ∧ brv x len < 2 ^ len ∧ (∀ i, i < len → (brv x len).testBit (len - 1 - i) = x.testBit i) ∧
      brv (brv x len) len = x

/-- R71, R72: the flat tables' values: the second half of `wn` is the negative of the first, and `wn_inv` is `wn`
read backwards. -/
def Obligations.FlatTablesAreNegacyclic : Prop :=
  ∀ c : Config, c.Legal →
    (∀ i, i < c.n → wn c i = c.w ^ i % c.q ∧ wnInv c i = c.winv ^ i % c.q) ∧
      wn c 0 = 1 ∧ wn c 1 = c.w ∧ wn c c.h = c.q - 1 ∧ wnInv c c.h = c.q - 1 ∧
      (∀ i, i < c.h → wn c (i + c.h) = c.q - wn c i) ∧
      (∀ i, i < c.n → wnInv c i = wn c ((c.n - i) % c.n)) ∧ c.w * c.winv % c.q = 1 ∧
      c.winv = wn c (c.n - 1) ∧ modInverse c.q c.w = .ok c.winv

/-- R75: the wrap values are the N/2 distinct roots of `z^(N/2) = -1`, and come in pairs of negatives. -/
def Obligations.WrapValuesAreTheRootsOfMinusOne : Prop :=
  ∀ c : Config, c.Legal →
    (∀ i, i < c.h → wq c i < c.q ∧ wq c i ^ c.h % c.q = c.q - 1) ∧
      (∀ i j, i < c.h → j < c.h → wq c i = wq c j → i = j) ∧
      ∀ u, 2 * u + 1 < c.h → wq c (2 * u + 1) = c.q - wq c (2 * u)

/-- R77: the twiddle of forward stage `t`, block `b`, and that of inverse stage `L - 1 - t`, block `b`, are
inverses of each other. -/
def Obligations.ForwardAndInverseTwiddlesAreInverses : Prop :=
  ∀ (c : Config) (t b : Nat), c.Legal → t < c.l → b < 2 ^ t →
    modMul c (fwd c (2 ^ t + b)) (inv c (c.h - 2 ^ (t + 1) + b)) = 1 ∧
      brv (c.h - 2 ^ (t + 1) + b) c.l + 1 = brv (2 ^ t + b) c.l

/-- R79: `modPow` is exponentiation modulo `q`. -/
def Obligations.ModPowIsExponentiation : Prop :=
  ∀ q base e : Nat, 2 ≤ q → modPow q base e = base ^ e % q ∧ modPow q base 0 = 1

/-- R80: `modInverse` gives the inverse modulo a prime, and fails for 0 and for a modulus that is not prime. -/
def Obligations.ModInverseInverts : Prop :=
  ∀ q a : Nat, 2 ≤ q → q < 65536 →
    (q.Prime → a % q ≠ 0 → ∃ b, modInverse q a = .ok b ∧ b = modPow q a (q - 2) ∧ b < q ∧ a * b % q = 1) ∧
    (a % q = 0 ∨ ¬ q.Prime → modInverse q a = .error .noInverse)

/-- R6, R7, R81: hardware is made exactly for an odd prime Q with 3 <= Q < 2^16, a power of two N from 2 to 256
dividing Q - 1, and W in [1, Q) with `W^(N/2) mod Q = Q - 1`; it is then the reset state of that configuration. -/
def Obligations.ElaborationAcceptsExactlyTheLegalParameters : Prop :=
  ∀ c : Config,
    let legal := c.q.Prime ∧ c.q % 2 = 1 ∧ 3 ≤ c.q ∧ c.q < 65536 ∧ (∃ k, c.n = 2 ^ k) ∧ 2 ≤ c.n ∧ c.n ≤ 256 ∧
      (c.q - 1) % c.n = 0 ∧ 1 ≤ c.w ∧ c.w < c.q ∧ c.w ^ (c.n / 2) % c.q = c.q - 1
    (legal → elaborate c = .ok (State.afterReset c)) ∧ (¬ legal → ∃ e, elaborate c = .error e)

/-- R7: the root of a legal configuration has multiplicative order exactly N modulo Q. -/
def Obligations.RootHasOrderN : Prop :=
  ∀ c : Config, c.Legal → orderOf (c.w : ZMod c.q) = c.n ∧ c.w ^ c.n % c.q = 1

/-! ### The stages and the transforms -/

/-- R82, R84, R85: `FSTG xd, t` performs, on every pair `(j, j + m)` of every block, the forward butterfly with the
block's twiddle, and changes nothing outside bank `d`. -/
def Obligations.FstgPerformsTheForwardButterflies : Prop :=
  ∀ (s : State) (d : Bank) (t : Nat) (x : Nat → Nat), s.cfg.Legal → s.holds d x → t < s.cfg.l →
    ∃ u, exec (.fstg d t) s = .next u ∧ s.onlyBank u d ∧
      ∀ b i, b < 2 ^ t → i < s.cfg.h / 2 ^ t →
        let m := s.cfg.h / 2 ^ t
        let j := b * (2 * m) + i
        let T := fwd s.cfg (2 ^ t + b) * x (j + m) % s.cfg.q
        u.word d j = some ((x j + T) % s.cfg.q) ∧ u.word d (j + m) = some ((x j + s.cfg.q - T) % s.cfg.q)

/-- R90, R92, R93: `ISTG xd, t` performs, on every pair `(j, j + m)` of every block, the halved inverse butterfly
with the block's twiddle, and changes nothing outside bank `d`. -/
def Obligations.IstgPerformsTheInverseButterflies : Prop :=
  ∀ (s : State) (d : Bank) (t : Nat) (x : Nat → Nat), s.cfg.Legal → s.holds d x → t < s.cfg.l →
    ∃ u, exec (.istg d t) s = .next u ∧ s.onlyBank u d ∧
      ∀ b i, b < s.cfg.h / 2 ^ (t + 1) → i < 2 ^ (t + 1) →
        let m := 2 ^ (t + 1)
        let j := b * (2 * m) + i
        let Wt := inv s.cfg (s.cfg.h - s.cfg.h / 2 ^ t + b)
        ∃ v v', u.word d j = some v ∧ u.word d (j + m) = some v' ∧ v < s.cfg.q ∧ v' < s.cfg.q ∧
          (v + v) % s.cfg.q = (x j + x (j + m)) % s.cfg.q ∧
          (v' + v') % s.cfg.q = (x j + s.cfg.q - x (j + m)) * Wt % s.cfg.q

/-- R86, R94: the transforms are their stages 0, ..., L - 1 in order. For bank words outside [0, Q) this rests on the
unit output being a function of its operands, the model's choice (log entry 4). -/
def Obligations.TransformsAreTheirStagesInOrder : Prop :=
  ∀ (s : State) (d : Bank), s.sourcesWritten (.ntt d) = true →
    exec (.ntt d) s = execAll ((List.range s.cfg.l).map fun t => .fstg d t) s ∧
      exec (.intt d) s = execAll ((List.range s.cfg.l).map fun t => .istg d t) s

/-- R88: after `NTT`, words `2i` and `2i + 1` are the remainder of the polynomial on division by `X^2 - WQ[i]`. -/
def Obligations.NttComputesTheResidues : Prop :=
  ∀ (s : State) (d : Bank) (p : Nat → Nat), s.cfg.Legal → s.holds d p →
    ∃ t, exec (.ntt d) s = .next t ∧ s.onlyBank t d ∧
      ∀ i, i < s.cfg.h →
        t.word d (2 * i) = some ((∑ u ∈ Finset.range s.cfg.h, p (2 * u) * wq s.cfg i ^ u) % s.cfg.q) ∧
        t.word d (2 * i + 1) = some ((∑ u ∈ Finset.range s.cfg.h, p (2 * u + 1) * wq s.cfg i ^ u) % s.cfg.q)

/-- R89: the transform of the word-wise sum is the word-wise sum of the transforms, in commands; the transform of
the zero bank is zero and that of the constant 1 is `[1, 0, 1, 0, ...]`. -/
def Obligations.NttIsLinear : Prop :=
  (∀ (s : State) (x r : Nat → Nat), s.cfg.Legal → s.holds .x0 x → s.holds .x1 r →
    ∃ t, execAll [.madd .x2 .x0 .x1, .ntt .x0, .ntt .x1, .ntt .x2, .madd .x3 .x0 .x1] s = .next t ∧
      ∀ i, i < s.cfg.n → ∃ v, t.word .x2 i = some v ∧ t.word .x3 i = some v) ∧
  (∀ (s : State) (d : Bank), s.cfg.Legal → (∀ i, i < s.cfg.n → s.word d i = some 0) →
    ∃ t, exec (.ntt d) s = .next t ∧ ∀ i, i < s.cfg.n → t.word d i = some 0) ∧
  ∀ (s : State) (d : Bank), s.cfg.Legal → (∀ i, i < s.cfg.n → s.word d i = some (if i = 0 then 1 else 0)) →
    ∃ t, exec (.ntt d) s = .next t ∧ ∀ i, i < s.cfg.n → t.word d i = some (if i % 2 = 0 then 1 else 0)

/-- R93, R77: `ISTG xd, L-1-t` directly after `FSTG xd, t` restores the bank. -/
def Obligations.InverseStageUndoesForwardStage : Prop :=
  ∀ (s : State) (d : Bank) (t : Nat) (x : Nat → Nat), s.cfg.Legal → s.holds d x → t < s.cfg.l →
    ∃ u, execAll [.fstg d t, .istg d (s.cfg.l - 1 - t)] s = .next u ∧ s.onlyBank u d ∧ u.holds d x

/-- R95: `INTT` is the inverse map of `NTT`, on both sides: it leaves the polynomial whose transform the bank held,
and after `NTT` it restores the bank. -/
def Obligations.InttInvertsNtt : Prop :=
  ∀ (s : State) (d : Bank) (y : Nat → Nat), s.cfg.Legal → s.holds d y →
    (∃ t p, exec (.intt d) s = .next t ∧ s.onlyBank t d ∧ t.holds d p ∧
      ∃ u, exec (.ntt d) t = .next u ∧ u.holds d y) ∧
    ∃ u, execAll [.ntt d, .intt d] s = .next u ∧ s.onlyBank u d ∧ u.holds d y

/-- R83, R91: over a whole transform the twiddle index never decreases, takes exactly the values 1, ..., H - 1
(forward) or 0, ..., H - 2 (inverse), and two butterflies share one exactly if they are of the same block (the same
stage and block start). -/
def Obligations.TwiddleIndexCountsUpOncePerBlock : Prop :=
  ∀ c : Config, c.Legal →
    let countsUp := fun (ps : List LoopPoint) (first last : Nat) =>
      (ps.map LoopPoint.k).Pairwise (· ≤ ·) ∧
        (∀ k, (∃ p ∈ ps, p.k = k) ↔ first ≤ k ∧ k < last) ∧
        ∀ p ∈ ps, ∀ p' ∈ ps, p.k = p'.k ↔ p.t = p'.t ∧ p.s = p'.s
    countsUp ((List.range c.l).flatMap (fwdPoints c)) 1 c.h ∧
      countsUp ((List.range c.l).flatMap (invPoints c)) 0 (c.h - 1)

/-- R84, R92: a stage performs exactly H butterflies and touches every word of the bank exactly once. -/
def Obligations.StageTouchesEveryWordOnce : Prop :=
  ∀ (c : Config) (t : Nat), c.Legal → t < c.l →
    ((fwdPoints c t).length = c.h ∧ ((fwdPoints c t).flatMap fun p => [p.j, p.j + p.m]).Perm (List.range c.n)) ∧
      (invPoints c t).length = c.h ∧ ((invPoints c t).flatMap fun p => [p.j, p.j + p.m]).Perm (List.range c.n)

/-! ### The pointwise product and the multiplication -/

/-- R96, R97, R98: `PWM` leaves in slot `i` the product of the two sources' slots modulo `X^2 - WQ[i]`, whatever
banks coincide. -/
def Obligations.PwmMultipliesSlotBySlot : Prop :=
  ∀ (s : State) (d a b : Bank) (x y : Nat → Nat), s.cfg.Legal → s.holds a x → s.holds b y →
    ∃ t, exec (.pwm d a b) s = .next t ∧ s.onlyBank t d ∧
      ∀ i, i < s.cfg.h →
        t.word d (2 * i) =
          some ((x (2 * i) * y (2 * i) + x (2 * i + 1) * y (2 * i + 1) * wq s.cfg i) % s.cfg.q) ∧
        t.word d (2 * i + 1) = some ((x (2 * i) * y (2 * i + 1) + x (2 * i + 1) * y (2 * i)) % s.cfg.q)

/-- R99: if the two sources hold the forward transforms of `p` and `r`, `PWM` leaves the forward transform of their
negative-wrapped product; the sources may be the same bank, and the destination may be a source. -/
def Obligations.PwmOfTransformsIsTheTransformOfTheProduct : Prop :=
  ∀ (s : State) (d a b : Bank) (p r : Nat → Nat), s.cfg.Legal →
    s.holds a (forwardTransform s.cfg p) → s.holds b (forwardTransform s.cfg r) →
      ∃ t, exec (.pwm d a b) s = .next t ∧ s.onlyBank t d ∧
        t.holds d (forwardTransform s.cfg (naiveMultiply s.cfg p r))

/-- R57, R100: `PMUL` is the four commands of its expansion; they leave in `X[d]` the negative-wrapped product of the
two polynomials and in each source bank that is not `d` that polynomial's forward transform, and change nothing
else. The assembler refuses equal sources. -/
def Obligations.PmulIsTheNegacyclicProduct : Prop :=
  ∀ (s : State) (d a b : Bank) (p r : Nat → Nat), s.cfg.Legal → a ≠ b → s.holds a p → s.holds b r →
    (Pseudo.pmul d a b).expand s.cfg = [.ntt a, .ntt b, .pwm d a b, .intt d] ∧
    (Pseudo.pmul d a a).assemble s.cfg = none ∧
    ∃ t, execAll ((Pseudo.pmul d a b).expand s.cfg) s = .next t ∧ t.holds d (naiveMultiply s.cfg p r) ∧
      (d ≠ a → t.holds a (forwardTransform s.cfg p)) ∧ (d ≠ b → t.holds b (forwardTransform s.cfg r)) ∧
      t = { s with coef := t.coef } ∧ ∀ e, e ≠ d → e ≠ a → e ≠ b → ∀ i, t.word e i = s.word e i

/-- R56: `PSQR` leaves in `X[d]` the square of the polynomial, and in another source bank that bank's transform. -/
def Obligations.PsqrIsTheNegacyclicSquare : Prop :=
  ∀ (s : State) (d a : Bank) (p : Nat → Nat), s.cfg.Legal → s.holds a p →
    ∃ t u, (Pseudo.psqr d a).expand s.cfg = [.ntt a, .pwm d a a, .intt d] ∧
      execAll ((Pseudo.psqr d a).expand s.cfg) s = .next t ∧ t.holds d (naiveMultiply s.cfg p p) ∧
      exec (.ntt a) s = .next u ∧ (d ≠ a → ∀ i, t.word a i = u.word a i)

/-- R54: `LDV` is the N commands `LDC` in the order of its values, and fills the bank with them; it needs exactly N
values. -/
def Obligations.LdvFillsTheBank : Prop :=
  ∀ (s : State) (d : Bank) (vs : List Nat),
    (vs.length ≠ s.cfg.n → (Pseudo.ldv d vs).assemble s.cfg = none) ∧
    (s.cfg.Legal → s.coef.wf s.cfg = true → vs.length = s.cfg.n → (∀ v ∈ vs, v < s.cfg.q) →
      (Pseudo.ldv d vs).expand s.cfg = (List.range s.cfg.n).map (fun i => .ldc d i (vs.getD i 0)) ∧
      ∃ t, execAll ((Pseudo.ldv d vs).expand s.cfg) s = .next t ∧ s.onlyBank t d ∧
        ∀ i, i < s.cfg.n → t.word d i = vs[i]?)

/-- R55: `RDV` is the N commands `RDC` of the bank, and yields its N words as N responses, coefficient 0 first. -/
def Obligations.RdvRespondsTheWholeBank : Prop :=
  ∀ (s : State) (a : Bank) (p : Nat → Nat), s.holds a p →
    (Pseudo.rdv a).expand s.cfg = (List.range s.cfg.n).map (fun i => .rdc a i) ∧
    execAll ((Pseudo.rdv a).expand s.cfg) s =
      .next { s with responses := s.responses ++ (List.range s.cfg.n).map fun i => BitVec.ofNat 16 (p i) }

/-! ### All commands: what they touch, what they read, what they keep -/

/-- R16: no command writes a bank it does not name as its destination, and none changes the configuration, the
sequencer, the host's inputs or the number of resets. -/
def Obligations.CommandsWriteOnlyTheirDestination : Prop :=
  ∀ (i : Instr) (s t : State), exec i s = .next t →
    t.cfg = s.cfg ∧ t.seq = s.seq ∧ t.inbox = s.inbox ∧ t.resets = s.resets ∧
      ∀ b, i.dest ≠ some b → ∀ j, t.word b j = s.word b j

/-- R16: no command's result depends on a bank it does not read: two states that agree on its source banks give the
same destination words, flags and responses. (`LDC` reads nothing and writes one word: `LdcWritesOneWord`.) Where a
source word is unwritten the equality rests on free values numbered by the two counters (log entry 3), and where it
is outside [0, Q) on the unit output being a function of its operands (log entry 4): both the model's choice. -/
def Obligations.ResultsDependOnTheNamedBanksOnly : Prop :=
  ∀ (i : Instr) (s s' t t' : State), (∀ d idx imm, i ≠ .ldc d idx imm) →
    s'.cfg = s.cfg → s'.resets = s.resets → s'.draws = s.draws → s'.status = s.status →
    s'.responses = s.responses → (∀ b ∈ i.sources, ∀ j, s'.word b j = s.word b j) →
    exec i s = .next t → exec i s' = .next t' →
      t'.status = t.status ∧ t'.responses = t.responses ∧
        ∀ b, i.dest = some b → ∀ j, j < s.cfg.n → t'.word b j = t.word b j

/-- R15 with log entry 3: a whole-bank command that reads an unwritten word leaves every word of its destination
written with some value of DW bits, raises nothing and touches nothing else. That it runs, and with which unknown
values, is the model's choice (log entry 3). -/
def Obligations.UnwrittenSourcesLeaveAnUnspecifiedBank : Prop :=
  ∀ (i : Instr) (s : State) (d : Bank), i.dest = some d → s.admits i = false →
    ∃ t, exec i s = .next t ∧ t = { s with coef := t.coef, draws := s.draws + 1 } ∧
      (∀ b, b ≠ d → ∀ j, t.word b j = s.word b j) ∧
      ∀ j, j < s.cfg.n → ∃ v, v < 2 ^ s.cfg.dw ∧ t.word d j = some v

/-- R13, R18, R21: the step keeps the form of an engine's state: the legal configuration, four banks of N words of
DW bits, the reserved bits of `STATUS` zero, the sequencer idle. -/
def Obligations.StepKeepsTheEngineInvariant : Prop :=
  ∀ s t : State, s.Inv → step s = .next t → t.Inv ∧ t.cfg = s.cfg

/-- The reset state of the reference instance, and that of every legal configuration, has the invariant. -/
def Obligations.ResetStateHasTheEngineInvariant : Prop :=
  State.reset.Inv ∧ ∀ c : Config, c.Legal → (State.afterReset c).Inv

/-- R14: the range invariant is kept by every step whose command reads no unwritten word: every written word stays
a field element. That other commands run, and are left out here, is the model's choice (log entry 3). -/
def Obligations.StepKeepsWrittenWordsInRange : Prop :=
  ∀ s t : State, s.Inv → s.inRange → s.nextAdmitted = true → step s = .next t → t.inRange

/-! ### The sequencer -/

/-- R21, R22: seen butterfly by butterfly (or pair by pair, word by word), a command keeps the block busy from its
acceptance and ends, idle, in exactly the state of the one atomic step; and the sequence of `SEQ` values depends on
the command words and N alone: two engines of the same N with the same inputs and `SEQ` stay so, whatever their banks
hold and whether it is written. The two levels are the model's reading of R21 and R22 (log entry 7); the values that
a command with an unwritten source, or with source words outside [0, Q), ends with are the model's choice (log
entries 3 and 4). -/
def Obligations.SequencerStepsRefineTheAtomicCommand : Prop :=
  (∀ (s : State) (w : CommandWord) (rest : List HostInput), s.Inv → s.inbox = .command w :: rest →
    (∀ r, rest ≠ .reset :: r) →
      ∃ k, engineTicks (k + 1) s = step s ∧
        ∀ j, 0 < j → j ≤ k → ∃ t, engineTicks j s = .next t ∧ t.busy = true) ∧
  ∀ s s' t t' : State, s'.cfg.n = s.cfg.n → s'.inbox = s.inbox → s'.seqTuple = s.seqTuple →
    engineTick s = .next t → engineTick s' = .next t' → t'.inbox = t.inbox ∧ t'.seqTuple = t.seqTuple

/-- R20, R83, R91: the sequencer's fields always have the closed form of their command: the counter `K` is the
function of stage and block that the commands' meanings use. -/
def Obligations.SequencerKeepsTheClosedForm : Prop :=
  ∀ s t : State, s.cfg.Legal → (∀ q, s.seq = some q → q.Ok s.cfg) → engineTick s = .next t →
    ∀ q, t.seq = some q → q.Ok t.cfg

/-- R20, R21: the closed form keeps a transform's or stage's fields in their ranges, and no index leaves the bank
or the ROM. -/
def Obligations.SequencerIndicesStayInRange : Prop :=
  ∀ (c : Config) (q : Sequencer) (d : Bank) (t : Nat), c.Legal → q.Ok c →
    (q.cmd = .ntt d ∨ q.cmd = .intt d ∨ q.cmd = .fstg d t ∨ q.cmd = .istg d t) →
      let p := q.point
      p.t < c.l ∧ (∃ e, p.m = 2 ^ e) ∧ 2 ≤ p.m ∧ p.m ≤ c.n / 2 ∧ p.s % (2 * p.m) = 0 ∧ p.s + 2 * p.m ≤ c.n ∧
        p.s ≤ p.j ∧ p.j < p.s + p.m ∧ p.j + p.m < c.n ∧ p.k < c.h
end

