-- ==== Sys2Proof/Laws/State.lean ====
section
/-! SUPPORT. One lemma per field per update of the state, so that no proof unfolds a record update. -/

namespace Sys2Proof.Machine

variable (s : State)

@[simp] theorem State.raise_cfg (e : ErrFlag) :
    (s.raise e).cfg = s.cfg := rfl
@[simp] theorem State.raise_coef (e : ErrFlag) :
    (s.raise e).coef = s.coef := rfl
@[simp] theorem State.raise_status (e : ErrFlag) :
    (s.raise e).status = setFlag s.status e := rfl
@[simp] theorem State.raise_seq (e : ErrFlag) :
    (s.raise e).seq = s.seq := rfl
@[simp] theorem State.raise_responses (e : ErrFlag) :
    (s.raise e).responses = s.responses := rfl
@[simp] theorem State.raise_inbox (e : ErrFlag) :
    (s.raise e).inbox = s.inbox := rfl
@[simp] theorem State.raise_resets (e : ErrFlag) :
    (s.raise e).resets = s.resets := rfl
@[simp] theorem State.raise_draws (e : ErrFlag) :
    (s.raise e).draws = s.draws := rfl

@[simp] theorem State.respond_cfg (v : ResponseWord) :
    (s.respond v).cfg = s.cfg := rfl
@[simp] theorem State.respond_coef (v : ResponseWord) :
    (s.respond v).coef = s.coef := rfl
@[simp] theorem State.respond_status (v : ResponseWord) :
    (s.respond v).status = s.status := rfl
@[simp] theorem State.respond_seq (v : ResponseWord) :
    (s.respond v).seq = s.seq := rfl
@[simp] theorem State.respond_responses (v : ResponseWord) :
    (s.respond v).responses = s.responses ++ [v] := rfl
@[simp] theorem State.respond_inbox (v : ResponseWord) :
    (s.respond v).inbox = s.inbox := rfl
@[simp] theorem State.respond_resets (v : ResponseWord) :
    (s.respond v).resets = s.resets := rfl
@[simp] theorem State.respond_draws (v : ResponseWord) :
    (s.respond v).draws = s.draws := rfl

@[simp] theorem State.writeWord_cfg (b : Bank) (i : Nat) (v : Nat) :
    (s.writeWord b i v).cfg = s.cfg := rfl
@[simp] theorem State.writeWord_coef (b : Bank) (i : Nat) (v : Nat) :
    (s.writeWord b i v).coef = s.coef.setWord b i v := rfl
@[simp] theorem State.writeWord_status (b : Bank) (i : Nat) (v : Nat) :
    (s.writeWord b i v).status = s.status := rfl
@[simp] theorem State.writeWord_seq (b : Bank) (i : Nat) (v : Nat) :
    (s.writeWord b i v).seq = s.seq := rfl
@[simp] theorem State.writeWord_responses (b : Bank) (i : Nat) (v : Nat) :
    (s.writeWord b i v).responses = s.responses := rfl
@[simp] theorem State.writeWord_inbox (b : Bank) (i : Nat) (v : Nat) :
    (s.writeWord b i v).inbox = s.inbox := rfl
@[simp] theorem State.writeWord_resets (b : Bank) (i : Nat) (v : Nat) :
    (s.writeWord b i v).resets = s.resets := rfl
@[simp] theorem State.writeWord_draws (b : Bank) (i : Nat) (v : Nat) :
    (s.writeWord b i v).draws = s.draws := rfl

@[simp] theorem State.writeBank_cfg (b : Bank) (ws : List Nat) :
    (s.writeBank b ws).cfg = s.cfg := rfl
@[simp] theorem State.writeBank_coef (b : Bank) (ws : List Nat) :
    (s.writeBank b ws).coef = s.coef.setBank b (ws.map some) := rfl
@[simp] theorem State.writeBank_status (b : Bank) (ws : List Nat) :
    (s.writeBank b ws).status = s.status := rfl
@[simp] theorem State.writeBank_seq (b : Bank) (ws : List Nat) :
    (s.writeBank b ws).seq = s.seq := rfl
@[simp] theorem State.writeBank_responses (b : Bank) (ws : List Nat) :
    (s.writeBank b ws).responses = s.responses := rfl
@[simp] theorem State.writeBank_inbox (b : Bank) (ws : List Nat) :
    (s.writeBank b ws).inbox = s.inbox := rfl
@[simp] theorem State.writeBank_resets (b : Bank) (ws : List Nat) :
    (s.writeBank b ws).resets = s.resets := rfl
@[simp] theorem State.writeBank_draws (b : Bank) (ws : List Nat) :
    (s.writeBank b ws).draws = s.draws := rfl

@[simp] theorem State.accept_cfg (rest : List HostInput) :
    (s.accept rest).cfg = s.cfg := rfl
@[simp] theorem State.accept_coef (rest : List HostInput) :
    (s.accept rest).coef = s.coef := rfl
@[simp] theorem State.accept_status (rest : List HostInput) :
    (s.accept rest).status = s.status := rfl
@[simp] theorem State.accept_seq (rest : List HostInput) :
    (s.accept rest).seq = s.seq := rfl
@[simp] theorem State.accept_responses (rest : List HostInput) :
    (s.accept rest).responses = s.responses := rfl
@[simp] theorem State.accept_inbox (rest : List HostInput) :
    (s.accept rest).inbox = rest := rfl
@[simp] theorem State.accept_resets (rest : List HostInput) :
    (s.accept rest).resets = s.resets := rfl
@[simp] theorem State.accept_draws (rest : List HostInput) :
    (s.accept rest).draws = s.draws := rfl

@[simp] theorem State.takeReset_cfg (rest : List HostInput) :
    (s.takeReset rest).cfg = s.cfg := rfl
@[simp] theorem State.takeReset_coef (rest : List HostInput) :
    (s.takeReset rest).coef = Memory.unwritten s.cfg.n := rfl
@[simp] theorem State.takeReset_status (rest : List HostInput) :
    (s.takeReset rest).status = 0#16 := rfl
@[simp] theorem State.takeReset_seq (rest : List HostInput) :
    (s.takeReset rest).seq = none := rfl
@[simp] theorem State.takeReset_responses (rest : List HostInput) :
    (s.takeReset rest).responses = [] := rfl
@[simp] theorem State.takeReset_inbox (rest : List HostInput) :
    (s.takeReset rest).inbox = rest := rfl
@[simp] theorem State.takeReset_resets (rest : List HostInput) :
    (s.takeReset rest).resets = s.resets + 1 := rfl
@[simp] theorem State.takeReset_draws (rest : List HostInput) :
    (s.takeReset rest).draws = s.draws := rfl

@[simp] theorem State.withFetchWord_cfg (nbits w : Nat) :
    (s.withFetchWord nbits w).cfg = s.cfg := rfl
@[simp] theorem State.withFetchWord_coef (nbits w : Nat) :
    (s.withFetchWord nbits w).coef = s.coef := rfl
@[simp] theorem State.withFetchWord_status (nbits w : Nat) :
    (s.withFetchWord nbits w).status = s.status := rfl
@[simp] theorem State.withFetchWord_seq (nbits w : Nat) :
    (s.withFetchWord nbits w).seq = none := rfl
@[simp] theorem State.withFetchWord_responses (nbits w : Nat) :
    (s.withFetchWord nbits w).responses = s.responses := rfl
@[simp] theorem State.withFetchWord_inbox (nbits w : Nat) :
    (s.withFetchWord nbits w).inbox = .command (BitVec.ofNat 32 (w % 2 ^ nbits)) :: s.inbox := rfl
@[simp] theorem State.withFetchWord_resets (nbits w : Nat) :
    (s.withFetchWord nbits w).resets = s.resets := rfl
@[simp] theorem State.withFetchWord_draws (nbits w : Nat) :
    (s.withFetchWord nbits w).draws = s.draws := rfl

@[simp] theorem State.finishBank_some (d : Bank) (ws : List Nat) :
    s.finishBank d (some ws) = s.writeBank d ws := rfl
@[simp] theorem State.finishBank_cfg (d : Bank) (r : Option (List Nat)) :
    (s.finishBank d r).cfg = s.cfg := by cases r <;> rfl
@[simp] theorem State.finishBank_status (d : Bank) (r : Option (List Nat)) :
    (s.finishBank d r).status = s.status := by cases r <;> rfl
@[simp] theorem State.finishBank_seq (d : Bank) (r : Option (List Nat)) :
    (s.finishBank d r).seq = s.seq := by cases r <;> rfl
@[simp] theorem State.finishBank_responses (d : Bank) (r : Option (List Nat)) :
    (s.finishBank d r).responses = s.responses := by cases r <;> rfl
@[simp] theorem State.finishBank_inbox (d : Bank) (r : Option (List Nat)) :
    (s.finishBank d r).inbox = s.inbox := by cases r <;> rfl
@[simp] theorem State.finishBank_resets (d : Bank) (r : Option (List Nat)) :
    (s.finishBank d r).resets = s.resets := by cases r <;> rfl
@[simp] theorem State.finishBank_none_draws (d : Bank) : (s.finishBank d none).draws = s.draws + 1 := rfl
@[simp] theorem State.finishBank_none_coef (d : Bank) :
    (s.finishBank d none).coef = s.coef.setBank d ((unspecifiedBank s.cfg s.draws).map some) := rfl

@[simp] theorem State.afterReset_cfg (c : Config) : (State.afterReset c).cfg = c := rfl
@[simp] theorem State.afterReset_coef (c : Config) : (State.afterReset c).coef = Memory.unwritten c.n := rfl
@[simp] theorem State.afterReset_status (c : Config) : (State.afterReset c).status = 0#16 := rfl
@[simp] theorem State.afterReset_seq (c : Config) : (State.afterReset c).seq = none := rfl
@[simp] theorem State.afterReset_responses (c : Config) : (State.afterReset c).responses = [] := rfl
@[simp] theorem State.afterReset_inbox (c : Config) : (State.afterReset c).inbox = [] := rfl
@[simp] theorem State.afterReset_resets (c : Config) : (State.afterReset c).resets = 0 := rfl
@[simp] theorem State.afterReset_draws (c : Config) : (State.afterReset c).draws = 0 := rfl

end Sys2Proof.Machine
end

