-- ==== Sys2Proof/Laws/Memory.lean ====
section
/-! SUPPORT. The laws of the coefficient banks: reading after writing, and that every operation keeps the
memory's form. -/

namespace Sys2Proof.Machine

@[simp] theorem Memory.bank_setBank_same (m : Memory) (b : Bank) (ws : List (Option Nat)) :
    (m.setBank b ws).bank b = ws := by cases b <;> rfl

theorem Memory.bank_setBank_of_ne (m : Memory) {b d : Bank} (ws : List (Option Nat)) (h : b ≠ d) :
    (m.setBank d ws).bank b = m.bank b := by cases b <;> cases d <;> first | rfl | exact absurd rfl h

/-- Memories with the same banks are the same memory. -/
theorem Memory.ext_bank {m m' : Memory} (h : ∀ b, m.bank b = m'.bank b) : m = m' := by
  cases m; cases m'
  have h0 := h .x0; have h1 := h .x1; have h2 := h .x2; have h3 := h .x3
  simp only [Memory.bank] at h0 h1 h2 h3
  subst h0; subst h1; subst h2; subst h3; rfl

theorem Memory.word_setBank_same (m : Memory) (b : Bank) (ws : List (Option Nat)) (i : Nat) :
    (m.setBank b ws).word b i = (ws[i]?).join := by simp [Memory.word]

theorem Memory.word_setBank_of_ne (m : Memory) {b d : Bank} (ws : List (Option Nat)) (i : Nat) (h : b ≠ d) :
    (m.setBank d ws).word b i = m.word b i := by simp [Memory.word, Memory.bank_setBank_of_ne m ws h]

/-- A read after a write to the same word of the bank gives the value written. -/
theorem Memory.word_setWord_same (m : Memory) (b : Bank) {i : Nat} (v : Nat) (h : i < (m.bank b).length) :
    (m.setWord b i v).word b i = some v := by
  simp [Memory.setWord, Memory.word, h]

/-- A write leaves every other word alone. -/
theorem Memory.word_setWord_of_ne (m : Memory) {b d : Bank} {i j : Nat} (v : Nat) (h : b ≠ d ∨ j ≠ i) :
    (m.setWord d i v).word b j = m.word b j := by
  by_cases hb : b = d
  · subst hb
    have hj : i ≠ j := fun e => (h.resolve_left (fun f => f rfl)) e.symm
    simp [Memory.setWord, Memory.word, hj]
  · exact Memory.word_setBank_of_ne m _ _ hb

/-- No word of an unwritten memory has a value. -/
@[simp] theorem Memory.word_unwritten (n : Nat) (b : Bank) (i : Nat) : (Memory.unwritten n).word b i = none := by
  cases b <;>
    · simp only [Memory.word, Memory.bank, Memory.unwritten]
      by_cases h : i < n <;> simp [h]

/-- A memory has its form exactly when each bank has. -/
theorem Memory.wf_iff (c : Config) (m : Memory) : m.wf c = true ↔ ∀ b, bankWf c (m.bank b) = true := by
  constructor
  · intro h b
    simp only [Memory.wf, Bool.and_eq_true] at h
    cases b
    · exact h.1.1.1
    · exact h.1.1.2
    · exact h.1.2
    · exact h.2
  · intro h
    simp only [Memory.wf, Bool.and_eq_true]
    exact ⟨⟨⟨h .x0, h .x1⟩, h .x2⟩, h .x3⟩

theorem bankWf_iff (c : Config) (ws : List (Option Nat)) :
    bankWf c ws = true ↔ ws.length = c.n ∧ ∀ v, some v ∈ ws → v < 2 ^ c.dw := by
  simp only [bankWf, Bool.and_eq_true, beq_iff_eq, List.all_eq_true]
  constructor
  · rintro ⟨h, k⟩
    exact ⟨h, fun v hv => by simpa using k _ hv⟩
  · rintro ⟨h, k⟩
    refine ⟨h, fun w hw => ?_⟩
    cases w with
    | none => rfl
    | some v => simpa using k v hw

theorem Memory.wf_bank_length {c : Config} {m : Memory} (h : m.wf c = true) (b : Bank) :
    (m.bank b).length = c.n := ((bankWf_iff c _).1 ((Memory.wf_iff c m).1 h b)).1

/-- Replacing a bank by one of the right form keeps the memory's form. -/
theorem Memory.wf_setBank {c : Config} {m : Memory} (h : m.wf c = true) (d : Bank) {ws : List (Option Nat)}
    (hw : bankWf c ws = true) : (m.setBank d ws).wf c = true := by
  rw [Memory.wf_iff] at h ⊢
  intro b
  by_cases e : b = d
  · subst e; simpa using hw
  · simpa [Memory.bank_setBank_of_ne m ws e] using h b

/-- Writing a word of DW bits keeps the memory's form. -/
theorem Memory.wf_setWord {c : Config} {m : Memory} (h : m.wf c = true) (d : Bank) (i : Nat) {v : Nat}
    (hv : v < 2 ^ c.dw) : (m.setWord d i v).wf c = true := by
  have hb := (bankWf_iff c _).1 ((Memory.wf_iff c m).1 h d)
  refine Memory.wf_setBank h d ((bankWf_iff c _).2 ⟨by simpa using hb.1, fun x hx => ?_⟩)
  rcases List.mem_or_eq_of_mem_set hx with hx | hx
  · exact hb.2 x hx
  · cases hx; exact hv

/-- The banks right after reset have the memory's form. -/
theorem Memory.wf_unwritten (c : Config) : (Memory.unwritten c.n).wf c = true := by
  rw [Memory.wf_iff]
  intro b
  rw [bankWf_iff]
  cases b <;> exact ⟨by simp [Memory.bank, Memory.unwritten], by simp [Memory.bank, Memory.unwritten]⟩

end Sys2Proof.Machine
end

