-- ==== Sys2Proof/Laws/Banks.lean ====
section
/-! SUPPORT. One lemma for each shared operation over whole banks: what it can do. -/

namespace Sys2Proof.Machine

/-- A whole bank is read exactly when each of its words is written, and then word by word. -/
theorem State.readBank_eq_some_iff (s : State) (b : Bank) (xs : List Nat) :
    s.readBank b = some xs ↔
      xs.length = s.cfg.n ∧ ∀ i, i < s.cfg.n → s.word b i = some (coeffAt xs i) := by
  have key : ∀ (f : Nat → Option Nat) (n k : Nat) (ys : List Nat),
      (List.range' k n).mapM f = some ys ↔
        ys.length = n ∧ ∀ i, i < n → f (k + i) = some (coeffAt ys i) := by
    intro f n
    induction n with
    | zero =>
      intro k ys
      simp only [List.range'_zero, List.mapM_nil]
      constructor
      · intro h
        have : ys = [] := by simpa using h.symm
        subst this
        exact ⟨rfl, fun i hi => absurd hi (Nat.not_lt_zero i)⟩
      · rintro ⟨h, -⟩
        have : ys = [] := List.length_eq_zero_iff.1 h
        subst this; rfl
    | succ n ih =>
      intro k ys
      rw [List.range'_succ, List.mapM_cons]
      constructor
      · intro h
        rcases hk : f k with _ | y
        · simp [hk] at h
        · rcases ht : (List.range' (k + 1) n).mapM f with _ | zs
          · simp [hk, ht] at h
          · have hy : ys = y :: zs := by simpa [hk, ht] using h.symm
            obtain ⟨hl, hz⟩ := (ih (k + 1) zs).1 ht
            subst hy
            refine ⟨by simp [hl], fun i hi => ?_⟩
            cases i with
            | zero => simpa [coeffAt] using hk
            | succ i =>
              have := hz i (by omega)
              rw [show k + (i + 1) = k + 1 + i by omega, this]
              simp [coeffAt]
      · rintro ⟨hl, hw⟩
        cases ys with
        | nil => simp at hl
        | cons y zs =>
          have h0 : f k = some y := by simpa [coeffAt] using hw 0 (by omega)
          have ht : (List.range' (k + 1) n).mapM f = some zs := by
            refine (ih (k + 1) zs).2 ⟨by simpa using hl, fun i hi => ?_⟩
            have := hw (i + 1) (by omega)
            rw [show k + 1 + i = k + (i + 1) by omega, this]
            simp [coeffAt]
          simp [h0, ht]
  have h := key (fun i => s.word b i) s.cfg.n 0 xs
  rw [← List.range_eq_range'] at h
  simpa [State.readBank] using h

/-- A bank that holds `p` is read as the list of its values. -/
theorem State.readBank_of_holds {s : State} {b : Bank} {p : Nat → Nat} (h : s.holds b p) :
    s.readBank b = some ((List.range s.cfg.n).map p) := by
  rw [State.readBank_eq_some_iff]
  exact ⟨by simp, fun i hi => by simp [coeffAt, hi, (h i hi).1]⟩

/-- The words of a bank written whole. -/
theorem State.word_writeBank_same (s : State) (d : Bank) (ws : List Nat) (i : Nat) :
    (s.writeBank d ws).word d i = ws[i]? := by
  simp only [State.word, State.writeBank_coef, Memory.word_setBank_same, List.getElem?_map]
  cases ws[i]? <;> rfl

/-- Writing a bank leaves the words of the others alone. -/
theorem State.word_writeBank_of_ne (s : State) {b d : Bank} (ws : List Nat) (i : Nat) (h : b ≠ d) :
    (s.writeBank d ws).word b i = s.word b i := by
  simp [State.word, Memory.word_setBank_of_ne _ _ _ h]

/-- Writing a bank changes nothing but that bank. -/
theorem State.onlyBank_writeBank (s : State) (d : Bank) (ws : List Nat) : s.onlyBank (s.writeBank d ws) d :=
  ⟨rfl, fun _ h i => State.word_writeBank_of_ne s ws i h⟩

/-- Writing a word changes nothing but its bank. -/
theorem State.onlyBank_writeWord (s : State) (d : Bank) (i : Nat) (v : Nat) :
    s.onlyBank (s.writeWord d i v) d :=
  ⟨rfl, fun _ h _ => Memory.word_setWord_of_ne _ _ (.inl h)⟩

theorem unspecifiedResult_lt (c : Config) (draw i : Nat) : unspecifiedResult c draw i < 2 ^ c.dw :=
  Nat.mod_lt _ (Nat.two_pow_pos _)

/-- The words left by a command that read an unwritten word: one for each index, each of DW bits. -/
theorem unspecifiedBank_spec (c : Config) (draw : Nat) :
    (unspecifiedBank c draw).length = c.n ∧ ∀ v, v ∈ unspecifiedBank c draw → v < 2 ^ c.dw := by
  refine ⟨by simp [unspecifiedBank], fun v hv => ?_⟩
  obtain ⟨i, -, rfl⟩ := List.mem_map.1 hv
  exact unspecifiedResult_lt _ _ _

/-- A whole-bank command leaves a bank of N words of DW bits if the words it computed are such. -/
theorem State.wf_finishBank {s : State} (h : s.coef.wf s.cfg = true) (d : Bank) {r : Option (List Nat)}
    (hr : ∀ ws, r = some ws → ws.length = s.cfg.n ∧ ∀ v, v ∈ ws → v < 2 ^ s.cfg.dw) :
    (s.finishBank d r).coef.wf s.cfg = true := by
  have key : ∀ ws : List Nat, ws.length = s.cfg.n → (∀ v, v ∈ ws → v < 2 ^ s.cfg.dw) →
      (s.coef.setBank d (ws.map some)).wf s.cfg = true := fun ws hl hv =>
    Memory.wf_setBank h d ((bankWf_iff _ _).2 ⟨by simpa using hl, fun v hm => hv v (by simpa using hm)⟩)
  cases r with
  | none => exact key _ (unspecifiedBank_spec _ _).1 (unspecifiedBank_spec _ _).2
  | some ws => exact key ws (hr ws rfl).1 (hr ws rfl).2

end Sys2Proof.Machine
end

