-- ==== Sys2Proof/Laws/Decode.lean ====
section
/-! SUPPORT. Where the bits of an encoded operand stand, and reading a field back from them. -/

namespace Sys2Proof

theorem Bank.num_lt (b : Bank) : b.num < 4 := by cases b <;> decide

@[simp] theorem Bank.ofNum_num (b : Bank) : Bank.ofNum b.num = b := by cases b <;> rfl

/-- Bit `i` of a placed operand is the operand's bit `i - lo`. -/
theorem getLsbD_place (v lo i : Nat) :
    (place v lo).getLsbD i = (decide (i < 32) && decide (lo ≤ i) && v.testBit (i - lo)) := by
  by_cases h : i < lo
  · simp [place, h]
  · by_cases h32 : i < 32
    · have : i - lo < 32 := by omega
      rw [place, BitVec.getLsbD_shiftLeft, BitVec.getLsbD_ofNat]
      simp [h, h32, this, Nat.not_lt.1 h]
    · simp [place, h32]

/-- An operand that fits the `k` bits from `lo` on touches no bit outside them. -/
theorem place_and_eq_zero {v lo k : Nat} {mask : CommandWord} (hv : v < 2 ^ k)
    (hm : ∀ i : Fin 32, lo ≤ i.val → i.val < lo + k → mask.getLsbD i.val = false) : place v lo &&& mask = 0#32 := by
  refine BitVec.eq_of_getLsbD_eq fun i hi => ?_
  rw [BitVec.getLsbD_and, getLsbD_place, BitVec.getLsbD_zero]
  by_cases hl : lo ≤ i
  · by_cases hk : i < lo + k
    · rw [hm ⟨i, hi⟩ hl hk, Bool.and_false]
    · have : v.testBit (i - lo) = false :=
        Nat.testBit_lt_two_pow (Nat.lt_of_lt_of_le hv (Nat.pow_le_pow_right (by decide) (by omega)))
      rw [this]; simp
  · simp [hl]

theorem or_and_of_and_eq_zero {m p q mask : CommandWord} (h : m &&& mask = q) (hp : p &&& mask = 0#32) :
    (m ||| p) &&& mask = q := by
  refine BitVec.eq_of_getLsbD_eq fun i hi => ?_
  have hp' := congrArg (fun w => w.getLsbD i) hp
  have h' := congrArg (fun w => w.getLsbD i) h
  simp only [BitVec.getLsbD_and, BitVec.getLsbD_zero] at hp' h'
  rw [BitVec.getLsbD_and, BitVec.getLsbD_or, Bool.and_or_distrib_right, hp', h', Bool.or_false]

end Sys2Proof
end

