-- ==== Sys2Proof/Laws/Params.lean ====
section
/-! SUPPORT. What a legal configuration gives: the sizes as powers of two, the bounds of the modulus. -/

namespace Sys2Proof

variable {c : Config}

/-- The modulus of a legal configuration is odd and fits the immediate field (R6). -/
theorem Config.Legal.modulus (h : c.Legal) : c.q % 2 = 1 ∧ 3 ≤ c.q ∧ c.q < 65536 := by
  unfold Config.Legal Machine.elabCheck at h
  split at h
  · cases h
  · omega

/-- The size of a legal configuration (R6): a power of two from 2 to 256 that divides `Q - 1`. -/
theorem Config.Legal.size (h : c.Legal) :
    c.n = 2 ^ Nat.log2 c.n ∧ 2 ≤ c.n ∧ c.n ≤ 256 ∧ (c.q - 1) % c.n = 0 := by
  unfold Config.Legal Machine.elabCheck at h
  split at h
  · cases h
  · split at h
    · cases h
    · omega

/-- The root of a legal configuration lies in [1, Q) (R6). -/
theorem Config.Legal.root (h : c.Legal) : 0 < c.w ∧ c.w < c.q := by
  unfold Config.Legal Machine.elabCheck at h
  split at h
  · cases h
  · split at h
    · cases h
    · split at h
      · cases h
      · split at h
        · cases h
        · rename_i h1 h2
          refine ⟨Nat.pos_of_ne_zero fun e => h1 (.inl ?_), by omega⟩
          rw [e, Nat.zero_mod]

/-- `L + 1 = LOGN` (R8). -/
theorem Config.Legal.logn (h : c.Legal) : Nat.log2 c.n = c.l + 1 := by
  obtain ⟨hn, h2, -, -⟩ := h.size
  have : Nat.log2 c.n ≠ 0 := fun e => by rw [e] at hn; omega
  simp only [Config.l, Config.logn]
  omega

/-- `N = 2^(L+1)` (R8). -/
theorem Config.Legal.n_eq (h : c.Legal) : c.n = 2 ^ (c.l + 1) := by
  rw [← h.logn]; exact h.size.1

/-- `H = 2^L` (R8). -/
theorem Config.Legal.h_eq (h : c.Legal) : c.h = 2 ^ c.l := by
  rw [Config.h, h.n_eq, Nat.pow_succ, Nat.mul_div_cancel _ (by decide)]

/-- `N = 2H`. -/
theorem Config.Legal.n_eq_two_h (h : c.Legal) : c.n = 2 * c.h := by
  rw [h.n_eq, h.h_eq, Nat.pow_succ, Nat.mul_comm]

/-- Every field element fits a word of DW bits (R8). -/
theorem Config.Legal.q_le_two_pow_dw (h : c.Legal) : c.q ≤ 2 ^ c.dw := by
  have hq := h.modulus.2.1
  have := Nat.lt_log2_self (n := c.q - 1)
  simp only [Config.dw]
  omega

/-- A word of DW bits fits a response (R8, R25). -/
theorem Config.Legal.dw_le (h : c.Legal) : c.dw ≤ 16 := by
  have hq := h.modulus
  have : Nat.log2 (c.q - 1) < 16 := (Nat.log2_lt (by omega)).2 (by omega)
  simp only [Config.dw]
  omega

end Sys2Proof
end

