-- ==== Sys2Proof/Laws/PerInstr.lean ====
section
/-! SUPPORT. Statements about every command as syntax, one lemma for each constructor. -/

namespace Sys2Proof.Laws.FixedBits

/-- The word of a well-formed command has its row's fixed bits: its opcode, and every must-be-zero bit of its
format zero (R44, R48). -/
def Statement (i : Instr) : Prop := i.wellFormed = true → encode i &&& i.opcode.mask = i.opcode.matchWord

theorem bank_place {lo : Nat} {mask : CommandWord} (b : Bank)
    (hm : ∀ i : Fin 32, lo ≤ i.val → i.val < lo + 2 → mask.getLsbD i.val = false) :
    place b.num lo &&& mask = 0#32 := place_and_eq_zero b.num_lt hm

theorem or_place {p r mask : CommandWord} (hp : p &&& mask = 0#32) (hr : r &&& mask = 0#32) :
    (p ||| r) &&& mask = 0#32 := or_and_of_and_eq_zero hp hr

theorem fixed (o : Opcode) {p : CommandWord} (h : p &&& o.mask = 0#32) :
    (o.matchWord ||| p) &&& o.mask = o.matchWord :=
  or_and_of_and_eq_zero (by cases o <;> decide) h

theorem nop : Statement .nop := fun _ => by decide

theorem ldc (d : Bank) (idx imm : Nat) : Statement (.ldc d idx imm) := fun h => by
  simp only [Instr.wellFormed, fitsIdx, fitsImm, Bool.and_eq_true, decide_eq_true_eq] at h
  exact fixed .ldc
    (or_place (or_place (bank_place d (by decide)) (place_and_eq_zero (k := 8) h.1 (by decide)))
      (place_and_eq_zero (k := 16) h.2 (by decide)))

theorem rdc (a : Bank) (idx : Nat) : Statement (.rdc a idx) := fun h => by
  simp only [Instr.wellFormed, fitsIdx, decide_eq_true_eq] at h
  exact fixed .rdc
    (or_place (bank_place a (by decide)) (place_and_eq_zero (k := 8) h (by decide)))

theorem rdt (tbl idx : Nat) : Statement (.rdt tbl idx) := fun h => by
  simp only [Instr.wellFormed, fitsTable, fitsIdx, Bool.and_eq_true, decide_eq_true_eq] at h
  exact fixed .rdt
    (or_place (place_and_eq_zero (k := 2) h.1 (by decide)) (place_and_eq_zero (k := 8) h.2 (by decide)))

theorem rds : Statement .rds := fun _ => by decide

theorem ntt (d : Bank) : Statement (.ntt d) := fun _ =>
  fixed .ntt (bank_place d (by decide))

theorem intt (d : Bank) : Statement (.intt d) := fun _ =>
  fixed .intt (bank_place d (by decide))

theorem three_banks {mask : CommandWord} (d a b : Bank) (h : mask = Format.b3.mask) :
    (place d.num 26 ||| place a.num 24 ||| place b.num 22) &&& mask = 0#32 := by
  subst h
  exact or_place (or_place (bank_place d (by decide)) (bank_place a (by decide))) (bank_place b (by decide))

theorem pwm (d a b : Bank) : Statement (.pwm d a b) := fun _ => fixed .pwm (three_banks d a b rfl)
theorem madd (d a b : Bank) : Statement (.madd d a b) := fun _ => fixed .madd (three_banks d a b rfl)
theorem msub (d a b : Bank) : Statement (.msub d a b) := fun _ => fixed .msub (three_banks d a b rfl)
theorem mmul (d a b : Bank) : Statement (.mmul d a b) := fun _ => fixed .mmul (three_banks d a b rfl)

theorem mhlv (d a : Bank) : Statement (.mhlv d a) := fun _ =>
  fixed .mhlv (or_place (bank_place d (by decide)) (bank_place a (by decide)))

theorem stage {mask : CommandWord} (d : Bank) {t : Nat} (ht : t < 256) (h : mask = Format.s.mask) :
    (place d.num 26 ||| place t 16) &&& mask = 0#32 := by
  subst h
  exact or_place (bank_place d (by decide)) (place_and_eq_zero (k := 8) ht (by decide))

theorem fstg (d : Bank) (t : Nat) : Statement (.fstg d t) := fun h =>
  fixed .fstg (stage d (by simpa [Instr.wellFormed, fitsIdx] using h) rfl)

theorem istg (d : Bank) (t : Nat) : Statement (.istg d t) := fun h =>
  fixed .istg (stage d (by simpa [Instr.wellFormed, fitsIdx] using h) rfl)

end Sys2Proof.Laws.FixedBits
end

