-- ==== Sys2Proof/Laws/Sequencer.lean ====
section
/-! SUPPORT. What a step of the sequencer, and loading it, can do: the fields they leave alone and the loop fields
they leave behind. -/

namespace Sys2Proof.Machine

variable (s : State)

/-- What one written result can do: it is the write of one word, and changes nothing but its bank. -/
theorem State.writeResult_cases (draw : Option Nat) (d : Bank) (i v : Nat) :
    (draw = none ∧ s.writeResult draw d i v = s.writeWord d i v) ∨
      ∃ k, draw = some k ∧ s.writeResult draw d i v = s.writeWord d i (unspecifiedResult s.cfg k i) := by
  cases draw with
  | none => exact .inl ⟨rfl, rfl⟩
  | some k => exact .inr ⟨k, rfl, rfl⟩

@[simp] theorem State.writeResult_none (d : Bank) (i v : Nat) :
    s.writeResult none d i v = s.writeWord d i v := rfl
@[simp] theorem State.writeResult_some (k : Nat) (d : Bank) (i v : Nat) :
    s.writeResult (some k) d i v = s.writeWord d i (unspecifiedResult s.cfg k i) := rfl

/-- A step's work changes banks only. -/
theorem State.bodyAt_eq (q : Sequencer) : s.bodyAt q = { s with coef := (s.bodyAt q).coef } := by
  obtain ⟨i, p, draw⟩ := q
  cases draw <;> cases i <;> rfl

@[simp] theorem State.bodyAt_cfg (q : Sequencer) : (s.bodyAt q).cfg = s.cfg := by rw [State.bodyAt_eq]
@[simp] theorem State.bodyAt_status (q : Sequencer) : (s.bodyAt q).status = s.status := by rw [State.bodyAt_eq]
@[simp] theorem State.bodyAt_seq (q : Sequencer) : (s.bodyAt q).seq = s.seq := by rw [State.bodyAt_eq]
@[simp] theorem State.bodyAt_responses (q : Sequencer) : (s.bodyAt q).responses = s.responses := by
  rw [State.bodyAt_eq]
@[simp] theorem State.bodyAt_inbox (q : Sequencer) : (s.bodyAt q).inbox = s.inbox := by rw [State.bodyAt_eq]
@[simp] theorem State.bodyAt_resets (q : Sequencer) : (s.bodyAt q).resets = s.resets := by rw [State.bodyAt_eq]
@[simp] theorem State.bodyAt_draws (q : Sequencer) : (s.bodyAt q).draws = s.draws := by rw [State.bodyAt_eq]

@[simp] theorem State.sequencerStep_cfg (q : Sequencer) : (s.sequencerStep q).cfg = s.cfg := s.bodyAt_cfg q
@[simp] theorem State.sequencerStep_coef (q : Sequencer) : (s.sequencerStep q).coef = (s.bodyAt q).coef := rfl
@[simp] theorem State.sequencerStep_status (q : Sequencer) : (s.sequencerStep q).status = s.status :=
  s.bodyAt_status q
@[simp] theorem State.sequencerStep_seq (q : Sequencer) :
    (s.sequencerStep q).seq = (nextPoint s.cfg q.cmd q.point).map fun p => { q with point := p } := rfl
@[simp] theorem State.sequencerStep_responses (q : Sequencer) : (s.sequencerStep q).responses = s.responses :=
  s.bodyAt_responses q
@[simp] theorem State.sequencerStep_inbox (q : Sequencer) : (s.sequencerStep q).inbox = s.inbox := s.bodyAt_inbox q
@[simp] theorem State.sequencerStep_resets (q : Sequencer) : (s.sequencerStep q).resets = s.resets :=
  s.bodyAt_resets q
@[simp] theorem State.sequencerStep_draws (q : Sequencer) : (s.sequencerStep q).draws = s.draws := s.bodyAt_draws q

/-- What loading the sequencer can do: it counts one draw for a command that reads an unwritten word, and changes
nothing else. -/
theorem State.loadSequencer_cases (i : Instr) (p : LoopPoint) :
    (s.sourcesWritten i = true ∧
        s.loadSequencer i p = { s with seq := some { cmd := i, point := p, draw := none } }) ∨
      (s.sourcesWritten i = false ∧
        s.loadSequencer i p =
          { s with seq := some { cmd := i, point := p, draw := some s.draws }, draws := s.draws + 1 }) := by
  cases h : s.sourcesWritten i
  · exact .inr ⟨rfl, if_neg (by simp [h])⟩
  · exact .inl ⟨rfl, if_pos h⟩

/-- R21: the loop fields loaded do not depend on what the banks hold. -/
@[simp] theorem State.loadSequencer_seqTuple (i : Instr) (p : LoopPoint) :
    (s.loadSequencer i p).seqTuple = some (i, p) := by
  rcases s.loadSequencer_cases i p with ⟨-, h⟩ | ⟨-, h⟩ <;> rw [h] <;> rfl

/-- R21: nor does the next loop point. -/
@[simp] theorem State.sequencerStep_seqTuple (q : Sequencer) :
    (s.sequencerStep q).seqTuple = (nextPoint s.cfg q.cmd q.point).map fun p => (q.cmd, p) := by
  simp [State.seqTuple, Function.comp_def]

end Sys2Proof.Machine
end

