-- ==== Sys2Proof/Laws/Stages.lean ====
section
/-! SUPPORT. The butterfly and the loop nests: what one butterfly does to a bank's words, and the lengths the
whole-bank functions return. -/

namespace Sys2Proof.Machine

theorem butterfly_length (f : Nat → Nat → Nat × Nat) (x : List Nat) (j m : Nat) :
    (butterfly f x j m).length = x.length := by simp [butterfly]

/-- One butterfly, word by word: the pair gets the function's two results, every other word stays. -/
theorem coeffAt_butterfly (f : Nat → Nat → Nat × Nat) (x : List Nat) {j m : Nat} (hm : 0 < m)
    (hj : j + m < x.length) (i : Nat) :
    coeffAt (butterfly f x j m) i =
      if i = j + m then (f (coeffAt x j) (coeffAt x (j + m))).2
      else if i = j then (f (coeffAt x j) (coeffAt x (j + m))).1
      else coeffAt x i := by
  by_cases h1 : i = j + m
  · subst h1
    simp [butterfly, coeffAt, hj]
  · by_cases h2 : i = j
    · subst h2
      have hlt : i < x.length := by omega
      have hm0 : m ≠ 0 := by omega
      simp [butterfly, coeffAt, hlt, hm0]
    · have e1 : j + m ≠ i := fun e => h1 e.symm
      have e2 : j ≠ i := fun e => h2 e.symm
      simp [butterfly, coeffAt, h1, h2, e1, e2]

theorem foldl_length {α : Type} (g : List Nat → α → List Nat) (hg : ∀ x p, (g x p).length = x.length)
    (ps : List α) (x : List Nat) : (ps.foldl g x).length = x.length := by
  induction ps generalizing x with
  | nil => rfl
  | cons p ps ih => rw [List.foldl_cons, ih, hg]

theorem fwdStage_length (c : Config) (t : Nat) (x : List Nat) : (fwdStage c t x).length = x.length :=
  foldl_length _ (fun _ _ => butterfly_length _ _ _ _) _ _

theorem invStage_length (c : Config) (t : Nat) (x : List Nat) : (invStage c t x).length = x.length :=
  foldl_length _ (fun _ _ => butterfly_length _ _ _ _) _ _

theorem nttWords_length (c : Config) (x : List Nat) : (nttWords c x).length = x.length :=
  foldl_length _ (fun _ _ => fwdStage_length _ _ _) _ _

theorem inttWords_length (c : Config) (x : List Nat) : (inttWords c x).length = x.length :=
  foldl_length _ (fun _ _ => invStage_length _ _ _) _ _

/-- The product's words are the slots' pairs: two for each of the H slots. -/
theorem pwmWords_length (c : Config) (x y : List Nat) : (pwmWords c x y).length = 2 * c.h := by
  simp [pwmWords, Nat.mul_comm]

end Sys2Proof.Machine
end

