-- ==== Sys2Proof/Laws/Units.lean ====
section
/-! SUPPORT. One lemma for each unit function: its value on field elements as a remainder. -/

namespace Sys2Proof.Machine

variable {c : Config} {a b : Nat}

theorem modAdd_of_lt (ha : a < c.q) (hb : b < c.q) : modAdd c a b = (a + b) % c.q := by
  have h : modAdd c a b = if a + b ≥ c.q then a + b - c.q else a + b := if_pos ⟨ha, hb⟩
  rw [h]
  split
  · rename_i hs
    rw [Nat.mod_eq_sub_mod hs, Nat.mod_eq_of_lt (by omega)]
  · rw [Nat.mod_eq_of_lt (by omega)]

theorem modSub_of_lt (ha : a < c.q) (hb : b < c.q) : modSub c a b = (a + (c.q - b)) % c.q := by
  have h : modSub c a b = if (a : Int) - b < 0 then ((a : Int) - b + c.q).toNat else ((a : Int) - b).toNat :=
    if_pos ⟨ha, hb⟩
  rw [h]
  split
  · rw [Nat.mod_eq_of_lt (by omega)]; omega
  · rw [Nat.mod_eq_sub_mod (by omega), Nat.mod_eq_of_lt (by omega)]; omega

theorem modMul_of_lt (ha : a < c.q) (hb : b < c.q) : modMul c a b = a * b % c.q := if_pos ⟨ha, hb⟩

/-- Halving, for an odd modulus: a field element whose double is the operand. -/
theorem modHlv_of_lt (hq : c.q % 2 = 1) (ha : a < c.q) :
    modHlv c a < c.q ∧ (modHlv c a + modHlv c a) % c.q = a := by
  have h : modHlv c a = if a % 2 = 0 then a >>> 1 else (a + c.q) >>> 1 := if_pos ha
  rw [h]
  split
  · have hd : a >>> 1 + a >>> 1 = a := by rw [Nat.shiftRight_eq_div_pow]; omega
    rw [hd]
    exact ⟨by rw [Nat.shiftRight_eq_div_pow]; omega, Nat.mod_eq_of_lt ha⟩
  · have hd : (a + c.q) >>> 1 + (a + c.q) >>> 1 = a + c.q := by rw [Nat.shiftRight_eq_div_pow]; omega
    rw [hd]
    exact ⟨by rw [Nat.shiftRight_eq_div_pow]; omega, by rw [Nat.add_mod_right, Nat.mod_eq_of_lt ha]⟩

/-- For operands outside [0, Q) a unit's output has DW bits and nothing more is known of it. -/
theorem unspecifiedOutput_lt (c : Config) (fn : UnitFn) (a b : Nat) : unspecifiedOutput c fn a b < 2 ^ c.dw :=
  Nat.mod_lt _ (Nat.two_pow_pos _)

end Sys2Proof.Machine
end

