-- ==== Sys2Proof/Tests/Slice0.lean ====
section
/-! SUPPORT. The model's own tests. Expected values are the spec's: the examples of the rules and the vectors of
spec/95_test_vectors.md; the section or rule stands before each group. -/

namespace Sys2Proof.Tests

-- One theorem at a time: many kernel evaluations waiting for each other would each hold a thread.
set_option Elab.async false

open Sys2Proof.Machine

/-! ### WellFormed: one ill-formed term for each check (R53, R54, R57) -/

theorem test_wf_refuses_word_index_256 : (Instr.ldc .x0 256 0).wellFormed = false := by decide
theorem test_wf_refuses_immediate_65536 : (Instr.ldc .x0 0 65536).wellFormed = false := by decide
theorem test_wf_refuses_read_index_256 : (Instr.rdc .x0 256).wellFormed = false := by decide
theorem test_wf_refuses_table_4 : (Instr.rdt 4 0).wellFormed = false := by decide
theorem test_wf_refuses_rom_index_256 : (Instr.rdt 0 256).wellFormed = false := by decide
theorem test_wf_refuses_stage_256 :
    (Instr.fstg .x0 256).wellFormed = false ∧ (Instr.istg .x0 256).wellFormed = false := by decide
theorem test_wf_refuses_short_vector : (Pseudo.ldv .x0 [1, 2]).wellFormed Config.reference = false := by decide
theorem test_wf_refuses_wide_vector_value :
    (Pseudo.ldv .x0 [0, 0, 0, 0, 0, 0, 0, 65536]).wellFormed Config.reference = false := by decide
theorem test_wf_refuses_pmul_of_one_bank : (Pseudo.pmul .x2 .x1 .x1).assemble Config.reference = none := by decide
theorem test_wf_admits_what_the_hardware_faults : (Instr.ldc .x3 255 65535).wellFormed = true := by decide

/-! ### Decoding: every constructor, from the words of 95_test_vectors.md, section 6 and section 7 -/

theorem test_decode_nop : decode 0x00000000#32 = .ok .nop := by decide
theorem test_decode_ldc : decode 0x100601F4#32 = .ok (.ldc .x0 6 500) := by decide
theorem test_decode_ldc_all_ones : decode 0x1CFFFFFF#32 = .ok (.ldc .x3 255 65535) := by decide
theorem test_decode_rdc : decode 0x22070000#32 = .ok (.rdc .x2 7) := by decide
theorem test_decode_rdt : decode 0x31010000#32 = .ok (.rdt 1 1) := by decide
theorem test_decode_rdt_table_3 : decode 0x33000000#32 = .ok (.rdt 3 0) := by decide
theorem test_decode_rds : decode 0x40000000#32 = .ok .rds := by decide
theorem test_decode_ntt : decode 0x54000000#32 = .ok (.ntt .x1) := by decide
theorem test_decode_intt : decode 0x68000000#32 = .ok (.intt .x2) := by decide
theorem test_decode_pwm : decode 0x78400000#32 = .ok (.pwm .x2 .x0 .x1) := by decide
theorem test_decode_madd : decode 0x8C400000#32 = .ok (.madd .x3 .x0 .x1) := by decide
theorem test_decode_msub : decode 0x9F800000#32 = .ok (.msub .x3 .x3 .x2) := by decide
theorem test_decode_mmul : decode 0xA4400000#32 = .ok (.mmul .x1 .x0 .x1) := by decide
theorem test_decode_mhlv : decode 0xB9000000#32 = .ok (.mhlv .x2 .x1) := by decide
theorem test_decode_fstg : decode 0xC0010000#32 = .ok (.fstg .x0 1) := by decide
theorem test_decode_istg : decode 0xD8000000#32 = .ok (.istg .x2 0) := by decide

/-- Section 6: words that are not commands. -/
theorem test_decode_refuses :
    ([0xE0000000#32, 0xF1234567#32, 0x00000001#32, 0x40000001#32, 0x50000001#32, 0x51000000#32, 0x11000005#32,
      0x24000000#32, 0x20000001#32, 0x78400001#32, 0xB0400000#32, 0xC1000000#32, 0xD0000001#32].all
        fun w => (decode w).toOption.isNone) = true := by decide

theorem test_decode_table_word_reads_the_low_bits : decodeTableWord 32 0x1100601F4 = some (.ldc .x0 6 500) := by decide

/-- R53, the `word` column. -/
theorem test_encode_words :
    [encode .nop, encode (.ldc .x3 255 65535), encode (.rdc .x2 7), encode (.rdt 1 1), encode .rds,
      encode (.pwm .x3 .x3 .x3), encode (.mhlv .x2 .x1), encode (.istg .x2 0)] =
    [0x00000000#32, 0x1CFFFFFF#32, 0x22070000#32, 0x31010000#32, 0x40000000#32,
      0x7FC00000#32, 0xB9000000#32, 0xD8000000#32] := by decide

/-- R53, the syntax column. -/
theorem test_assembler_text :
    (Instr.ldc .x0 6 500).asm = "LDC x0[6], 500" ∧ (Instr.rdt 2 3).asm = "RDT wq[3]" ∧
      (Instr.pwm .x2 .x0 .x1).asm = "PWM x2, x0, x1" := by decide +kernel

/-! ### Units and ROM: section 2, R76, section 3 -/

theorem test_units :
    (modAdd Config.reference 3328 3328, modSub Config.reference 0 1, modSub Config.reference 0 3328,
      modHlv Config.reference 3327, modHlv Config.reference 3328, modMul Config.reference 100 3300) =
    (3327, 3328, 1, 3328, 1664, 429) := by decide +kernel

theorem test_rom_reference :
    ((List.range 4).map (fwd Config.reference), (List.range 4).map (inv Config.reference),
      (List.range 4).map (wq Config.reference)) =
    ([1, 1600, 40, 749], [2580, 3289, 1729, 3328], [40, 3289, 749, 2580]) := by decide +kernel

theorem test_rom_size_16 :
    ((List.range 8).map (fwd ⟨3329, 16, 630⟩), (List.range 8).map (inv ⟨3329, 16, 630⟩),
      (List.range 8).map (wq ⟨3329, 16, 630⟩)) =
    ([1, 1729, 749, 40, 630, 687, 2481, 1897], [1432, 848, 2642, 2699, 3289, 2580, 1600, 3328],
      [630, 2699, 687, 2642, 2481, 848, 1897, 1432]) := by decide +kernel

theorem test_derived_constants :
    (Config.reference.l, Config.reference.h, Config.reference.dw, Config.reference.winv, Config.reference.half) =
      (2, 4, 12, 2580, 1665) := by decide +kernel

theorem reference_legal : Config.reference.Legal := by decide +kernel

/-- R7: 630 has order 16, not 8; R81: a modulus that is not prime, a size that is no power of two. -/
theorem test_elaboration_failures :
    (elabCheck ⟨3329, 8, 630⟩, elabCheck ⟨9, 2, 8⟩, elabCheck ⟨3329, 6, 40⟩, elabCheck ⟨3328, 8, 40⟩) =
      (some .noPrimitiveRoot, some .noInverse, some .invalidSize, some .illegalModulus) := by decide +kernel

/-! ### One command on a small state -/

/-- The reference instance after reset with banks `X0` and `X1` loaded. -/
def loaded (x y : List Nat) : State :=
  { State.reset with coef := { Memory.unwritten 8 with x0 := x.map some, x1 := y.map some } }

/-- One bank after a command. -/
def bankAfter (i : Instr) (s : State) (b : Bank) : List (Option Nat) :=
  match exec i s with
  | .next t => t.coef.bank b
  | .fault _ => []
  | .refused _ => []

/-- `STATUS` and the responses after a command. -/
def reportAfter (i : Instr) (s : State) : Nat × List Nat :=
  match exec i s with
  | .next t => (t.status.toNat, t.responses.map BitVec.toNat)
  | .fault _ => (0, [])
  | .refused _ => (0, [])

/-- S7's first operand, and its transform (section 4). -/
def p1 : List Nat := [100, 200, 200, 0, 100, 200, 500, 0]
def p1Ntt : List Nat := [3302, 616, 643, 616, 3242, 3113, 3200, 3113]
/-- S7's second operand, its transform, the product of the two and its inverse transform (section 4). -/
def p2 : List Nat := [100, 200, 300, 400, 500, 600, 700, 800]
def p2Ntt : List Nat := [1471, 783, 809, 2113, 2085, 981, 2693, 252]
def product : List Nat := [1796, 2810, 2103, 2750, 1671, 262, 1453, 1669]
/-- The banks of program P3 (section 8). -/
def a3 : List Nat := [0, 1, 3328, 3328, 1664, 1665, 100, 2]
def b3 : List Nat := [1, 0, 3328, 1, 1665, 1665, 3300, 1665]

theorem test_nop : exec .nop (loaded p1 a3) = .next (loaded p1 a3) := rfl
theorem test_ldc_example :
    bankAfter (.ldc .x0 6 500) State.reset .x0 = [none, none, none, none, none, none, some 500, none] := by
  decide +kernel
theorem test_ldc_index_before_range : reportAfter (.ldc .x0 9 4000) State.reset = (2, []) := by decide +kernel
theorem test_rdc_example : reportAfter (.rdc .x1 4) (loaded p1 p1Ntt) = (0, [3242]) := by decide +kernel
theorem test_rdc_index_out_of_range : reportAfter (.rdc .x0 8) State.reset = (2, [0xFFFF]) := by decide +kernel
theorem test_rdt_example : reportAfter (.rdt 2 3) State.reset = (0, [0x0A14]) := by decide +kernel
theorem test_rdt_table_3 : reportAfter (.rdt 3 0) State.reset = (2, [0xFFFF]) := by decide +kernel
theorem test_rds_after_faults :
    reportAfter .rds (((loaded p1 a3).raise .op).raise .range) = (5, [5]) := by decide +kernel
theorem test_ntt_example : bankAfter (.ntt .x0) (loaded p1 a3) .x0 = p1Ntt.map some := by decide +kernel
theorem test_intt_example :
    bankAfter (.intt .x1) (loaded p1 product) .x1 = [2588, 2705, 2874, 2835, 2926, 3173, 533, 702].map some := by
  decide +kernel
theorem test_fstg_example :
    bankAfter (.fstg .x0 0) (loaded p1 a3) .x0 = [308, 616, 1240, 0, 3221, 3113, 2489, 0].map some := by
  decide +kernel
theorem test_fstg_stage_2_faults : reportAfter (.fstg .x0 2) State.reset = (2, []) := by decide +kernel
theorem test_istg_example :
    bankAfter (.istg .x1 0) (loaded p1 product) .x1 = [285, 2780, 121, 833, 1562, 2630, 2298, 1508].map some := by
  decide +kernel
theorem test_istg_stage_255_faults : reportAfter (.istg .x0 255) State.reset = (2, []) := by decide +kernel
theorem test_pwm_example : bankAfter (.pwm .x2 .x0 .x1) (loaded p1Ntt p2Ntt) .x2 = product.map some := by
  decide +kernel
theorem test_pwm_square_in_place :
    bankAfter (.pwm .x0 .x0 .x0) (loaded [1, 1, 1, 1, 1, 1, 1, 1] a3) .x0 =
      [41, 2, 3290, 2, 750, 2, 2581, 2].map some := by decide +kernel
theorem test_madd_example :
    bankAfter (.madd .x3 .x0 .x1) (loaded a3 b3) .x3 = [1, 1, 3327, 0, 0, 1, 71, 1667].map some := by decide +kernel
theorem test_msub_example :
    bankAfter (.msub .x2 .x0 .x1) (loaded a3 b3) .x2 = [3328, 1, 0, 3327, 3328, 0, 129, 1666].map some := by
  decide +kernel
theorem test_mmul_destination_is_a_source :
    bankAfter (.mmul .x1 .x0 .x1) (loaded a3 b3) .x1 = [0, 0, 1, 3328, 832, 2497, 429, 1].map some := by
  decide +kernel
theorem test_mhlv_example :
    bankAfter (.mhlv .x0 .x0) (loaded [0, 2, 3327, 3327, 3328, 1, 200, 4] b3) .x0 = a3.map some := by decide +kernel

/-- R86, R94: with N = 2 no stage runs, so an unwritten bank stays unwritten. -/
theorem test_ntt_size_2_does_nothing :
    exec (.ntt .x0) (State.afterReset ⟨3329, 2, 3328⟩) = .next (State.afterReset ⟨3329, 2, 3328⟩) := rfl

/-- R15: a command that reads an unwritten word completes and counts one more unspecified result. -/
theorem test_unwritten_source_completes :
    (match exec (.madd .x2 .x0 .x3) (loaded a3 b3) with
      | .next t => (t.draws, t.status, (t.coef.bank .x2).all Option.isSome)
      | .fault _ => (0, 7#16, false)
      | .refused _ => (0, 7#16, false)) = (1, 0#16, true) := by decide +kernel

/-- R10, R28: the step after reset runs the word offered to it. -/
theorem test_first_word_after_reset :
    (match step (State.reset.withFetchWord 32 0x10000D01) with
      | .next t => (t.status, t.inbox)
      | .fault _ => (0#16, [])
      | .refused _ => (0#16, [])) = (4#16, []) := by decide +kernel

/-- R21, R22: one acceptance and four butterflies of `FSTG x0, 0`, then idle with the stage's result. -/
theorem test_sequencer_runs_a_stage :
    (match engineTicks 4 ((loaded p1 a3).withFetchWord 32 0xC0000000),
        engineTicks 5 ((loaded p1 a3).withFetchWord 32 0xC0000000) with
      | .next t, .next u => (t.busy, u.busy, u.coef.x0)
      | _, _ => (false, true, [])) =
    (true, false, [308, 616, 1240, 0, 3221, 3113, 2489, 0].map some) := by decide +kernel

/-- R15, R21: the hardware detects no unwritten word, so `SEQ` runs through the same values over unwritten banks. -/
theorem test_sequencer_runs_over_unwritten_words :
    (match engineTicks 2 ((loaded p1 a3).withFetchWord 32 0xCC000000), engineTicks 2
        ((loaded p1 a3).withFetchWord 32 0xC0000000) with
      | .next t, .next u => (t.busy, t.draws, t.seqTuple.map Prod.snd == u.seqTuple.map Prod.snd)
      | _, _ => (false, 0, false)) = (true, 1, true) := by decide +kernel

/-! ### Witnesses: for each statement with hypotheses, a state and operands that meet all of them -/

/-- The values of a list as a function. -/
def valuesOf (x : List Nat) (i : Nat) : Nat := x.getD i 0

theorem loaded_holds_x0 : (loaded p1 b3).holds .x0 (valuesOf p1) := by
  show ∀ i, i < 8 → _ ∧ _ < 3329
  decide +kernel
theorem loaded_holds_x1 : (loaded p1 b3).holds .x1 (valuesOf b3) := by
  show ∀ i, i < 8 → _ ∧ _ < 3329
  decide +kernel
theorem loaded_wf : (loaded p1 b3).coef.wf (loaded p1 b3).cfg = true := by decide +kernel
theorem loaded_inv : (loaded p1 b3).Inv := ⟨reference_legal, loaded_wf, by decide +kernel, rfl⟩

/-- The transforms of two polynomials in `X0` and `X1`. -/
def transformed : State := loaded p1Ntt p2Ntt

/-- The same with another bank `X2`. -/
def transformedOther : State :=
  { loaded p1 b3 with coef := { (loaded p1 b3).coef with x2 := product.map some } }

theorem witness_DecodeOfEncodeIsTheCommand :
    (Instr.ldc .x3 255 65535).wellFormed = true ∧ (Instr.rdt 3 255).wellFormed = true := by decide
theorem witness_EncodeOfDecodeIsTheWord : decode 0x1CFFFFFF#32 = .ok (.ldc .x3 255 65535) := by decide
theorem witness_WordIsTheRowItMatches :
    0xE0000000#32 &&& 0xF0000000#32 = 0xE0000000#32 ∧ 0xFFFFFFFF#32 &&& 0xF0000000#32 = 0xF0000000#32 := by decide
theorem witness_StepRunsTheDecodedCommand :
    ((loaded p1 b3).withFetchWord 32 0x50000000).seq = none ∧
      ((loaded p1 b3).withFetchWord 32 0x50000000).inbox = .command 0x50000000#32 :: [] ∧
      decode 0x50000000#32 = .ok (.ntt .x0) := by decide
theorem witness_WordThatIsNoCommandRaisesErrOp :
    (State.reset.withFetchWord 32 0xE0000000).seq = none ∧
      (State.reset.withFetchWord 32 0xE0000000).inbox = .command 0xE0000000#32 :: [] ∧
      0xE ≤ (0xE0000000#32).toNat / 2 ^ 28 ∧
      ∀ o ∈ [Opcode.ntt], o.code = (0x50000001#32).toNat / 2 ^ 28 ∧
        0x50000001#32 &&& o.mask ≠ BitVec.ofNat 32 o.code <<< 28 := by decide
theorem witness_WordThatIsNoCommandRaisesErrOp_must_be_zero :
    (State.reset.withFetchWord 32 0x50000001).inbox = .command 0x50000001#32 :: [] ∧
      ∀ o : Opcode, o.code = (0x50000001#32).toNat / 2 ^ 28 →
        0x50000001#32 &&& o.mask ≠ BitVec.ofNat 32 o.code <<< 28 :=
  ⟨rfl, (fun o => by cases o <;> decide)⟩
theorem witness_IdleBlockWaits : State.reset.seq = none ∧ State.reset.inbox = [] := ⟨rfl, rfl⟩

/-- The engine in the middle of `FSTG x0, 0`. -/
def busyState : State :=
  { loaded p1 b3 with
    seq := some { cmd := .fstg .x0 0, point := { t := 0, m := 4, s := 0, j := 2, k := 1 }, draw := none },
    inbox := [.command 0#32] }

theorem witness_BusyBlockAcceptsNothing :
    busyState.seq = some { cmd := .fstg .x0 0, point := { t := 0, m := 4, s := 0, j := 2, k := 1 }, draw := none } ∧
      (∀ rest, busyState.inbox ≠ .reset :: rest) ∧ (∃ t, step busyState = .next t) ∧
      ∃ t, engineTick busyState = .next t :=
  ⟨rfl, (fun _ h => by cases h), ⟨_, rfl⟩, ⟨_, rfl⟩⟩
theorem witness_ResetFromAnyStateGivesTheResetState :
    ({ busyState with inbox := [.reset] } : State).inbox = .reset :: [] := rfl
theorem witness_LdcWritesOneWord :
    (loaded p1 b3).cfg.Legal ∧ (loaded p1 b3).coef.wf (loaded p1 b3).cfg = true ∧ 7 < (loaded p1 b3).cfg.n ∧
      3328 < (loaded p1 b3).cfg.q := ⟨reference_legal, loaded_wf, by decide, by decide⟩
theorem witness_RdcRespondsTheWord : 7 < (loaded p1 b3).cfg.n ∧ (loaded p1 b3).word .x1 7 = some 1665 := by
  decide +kernel
theorem witness_RdcOfAnUnwrittenWordRespondsSomeWord :
    State.reset.cfg.Legal ∧ 7 < State.reset.cfg.n ∧ State.reset.word .x3 7 = none :=
  ⟨reference_legal, by decide, by decide +kernel⟩
theorem witness_RdtRespondsTheRomWord : 3 < State.reset.cfg.h := by decide
theorem witness_FieldElementsAreNeverTheFaultResponse :
    (loaded p1 b3).cfg.Legal ∧ 2 < (loaded p1 b3).cfg.n ∧ (loaded p1 b3).word .x1 2 = some 3328 ∧
      3328 < (loaded p1 b3).cfg.q ∧ ∃ t, exec (.rdc .x1 2) (loaded p1 b3) = .next t :=
  ⟨reference_legal, by decide, by decide +kernel, by decide, ⟨_, rfl⟩⟩
theorem witness_FieldElementsAreNeverTheFaultResponse_rom :
    (loaded p1 b3).cfg.Legal ∧ 2 < 3 ∧ 3 < (loaded p1 b3).cfg.h ∧ ∃ t, exec (.rdt 2 3) (loaded p1 b3) = .next t :=
  ⟨reference_legal, by decide, by decide, ⟨_, rfl⟩⟩
theorem witness_ExactlyTheReadsRespondOnce :
    (∃ t, exec .rds (loaded p1 b3) = .next t) ∧ ∃ t, exec .nop (loaded p1 b3) = .next t := ⟨⟨_, rfl⟩, ⟨_, rfl⟩⟩
theorem witness_FaultingCommandOnlySetsItsFlag :
    faultOf State.reset.cfg (.ldc .x0 8 0) = some .idx ∧ faultOf State.reset.cfg (.ldc .x0 7 3329) = some .range ∧
      faultOf State.reset.cfg (.rdc .x0 8) = some .idx ∧ faultOf State.reset.cfg (.rdt 3 0) = some .idx ∧
      faultOf State.reset.cfg (.rdt 2 4) = some .idx ∧ faultOf State.reset.cfg (.fstg .x0 2) = some .idx ∧
      faultOf State.reset.cfg (.istg .x0 2) = some .idx ∧ faultOf State.reset.cfg (.ldc .x0 7 3328) = none ∧
      ∃ t, exec (.ldc .x0 7 3328) State.reset = .next t :=
  ⟨by decide, by decide, by decide, by decide, by decide, by decide, by decide, by decide, ⟨_, rfl⟩⟩
theorem witness_FlagsAreSticky :
    (∀ rest, (((loaded p1 b3).raise .idx).withFetchWord 32 0).inbox ≠ .reset :: rest) ∧
      ∃ t, step (((loaded p1 b3).raise .idx).withFetchWord 32 0) = .next t :=
  ⟨(fun _ h => by cases h), ⟨_, rfl⟩⟩
theorem witness_UnitFunctionsComputeModuloQ : Config.reference.Legal ∧ 3328 < Config.reference.q ∧
    0 < Config.reference.q := ⟨reference_legal, by decide, by decide⟩
theorem witness_UnitFunctionsObeyTheRingLaws : Config.reference.Legal ∧ 3328 < Config.reference.q ∧
    1 < Config.reference.q ∧ 0 < Config.reference.q := ⟨reference_legal, by decide, by decide, by decide⟩
theorem witness_MaddAddsWordByWord :
    (loaded p1 b3).holds .x0 (valuesOf p1) ∧ (loaded p1 b3).holds .x1 (valuesOf b3) :=
  ⟨loaded_holds_x0, loaded_holds_x1⟩
theorem witness_MsubSubtractsWordByWord :
    (loaded p1 b3).holds .x0 (valuesOf p1) ∧ (loaded p1 b3).holds .x1 (valuesOf b3) :=
  ⟨loaded_holds_x0, loaded_holds_x1⟩
theorem witness_MmulMultipliesWordByWord :
    (loaded p1 b3).holds .x0 (valuesOf p1) ∧ (loaded p1 b3).holds .x1 (valuesOf b3) :=
  ⟨loaded_holds_x0, loaded_holds_x1⟩
theorem witness_MhlvHalvesWordByWord :
    (loaded p1 b3).cfg.Legal ∧ (loaded p1 b3).holds .x1 (valuesOf b3) := ⟨reference_legal, loaded_holds_x1⟩
theorem witness_DoublingThenHalvingCopiesTheBank :
    (loaded p1 b3).cfg.Legal ∧ (loaded p1 b3).holds .x1 (valuesOf b3) := ⟨reference_legal, loaded_holds_x1⟩
theorem witness_BitReversalIsAnInvolution : 1 < 2 ^ 2 ∧ brv 1 2 = 2 ∧ brv 3 2 = 3 := by decide
theorem witness_FlatTablesAreNegacyclic : Config.reference.Legal ∧ 3 < Config.reference.h ∧
    7 < Config.reference.n := ⟨reference_legal, by decide, by decide⟩
theorem witness_WrapValuesAreTheRootsOfMinusOne : Config.reference.Legal ∧ 2 * 1 + 1 < Config.reference.h :=
  ⟨reference_legal, by decide⟩
theorem witness_ForwardAndInverseTwiddlesAreInverses :
    Config.reference.Legal ∧ 1 < Config.reference.l ∧ 1 < 2 ^ 1 := ⟨reference_legal, by decide, by decide⟩
theorem witness_ModPowIsExponentiation : 2 ≤ 3329 ∧ modPow 3329 40 4 = 3328 := by decide +kernel
theorem witness_ModInverseInverts :
    2 ≤ 3329 ∧ 3329 < 65536 ∧ Nat.Prime 3329 ∧ 40 % 3329 ≠ 0 ∧ 3329 % 3329 = 0 ∧ ¬ Nat.Prime 9 := by norm_num
theorem witness_ElaborationAcceptsExactlyTheLegalParameters :
    Nat.Prime 3329 ∧ 3329 % 2 = 1 ∧ (∃ k, 8 = 2 ^ k) ∧ (3329 - 1) % 8 = 0 ∧ 40 ^ (8 / 2) % 3329 = 3329 - 1 :=
  ⟨by norm_num, by norm_num, ⟨3, rfl⟩, by norm_num, by norm_num⟩
theorem witness_RootHasOrderN : Config.reference.Legal := reference_legal
theorem witness_FstgPerformsTheForwardButterflies :
    (loaded p1 b3).cfg.Legal ∧ (loaded p1 b3).holds .x0 (valuesOf p1) ∧ 1 < (loaded p1 b3).cfg.l ∧ 1 < 2 ^ 1 ∧
      1 < (loaded p1 b3).cfg.h / 2 ^ 1 := ⟨reference_legal, loaded_holds_x0, by decide, by decide, by decide⟩
theorem witness_IstgPerformsTheInverseButterflies :
    (loaded p1 b3).cfg.Legal ∧ (loaded p1 b3).holds .x0 (valuesOf p1) ∧ 1 < (loaded p1 b3).cfg.l ∧
      0 < (loaded p1 b3).cfg.h / 2 ^ 2 ∧ 3 < 2 ^ 2 :=
  ⟨reference_legal, loaded_holds_x0, by decide, by decide, by decide⟩
theorem witness_TransformsAreTheirStagesInOrder : (loaded p1 b3).sourcesWritten (.ntt .x0) = true := by
  decide +kernel
theorem witness_NttComputesTheResidues :
    (loaded p1 b3).cfg.Legal ∧ (loaded p1 b3).holds .x0 (valuesOf p1) ∧ 3 < (loaded p1 b3).cfg.h :=
  ⟨reference_legal, loaded_holds_x0, by decide⟩
theorem witness_NttIsLinear :
    (loaded p1 b3).cfg.Legal ∧ (loaded p1 b3).holds .x0 (valuesOf p1) ∧ (loaded p1 b3).holds .x1 (valuesOf b3) ∧
      (∀ i, i < 8 → (loaded [0, 0, 0, 0, 0, 0, 0, 0] b3).word .x0 i = some 0) ∧
      ∀ i, i < 8 → (loaded [1, 0, 0, 0, 0, 0, 0, 0] b3).word .x0 i = some (if i = 0 then 1 else 0) :=
  ⟨reference_legal, loaded_holds_x0, loaded_holds_x1, by decide +kernel, by decide +kernel⟩
theorem witness_InverseStageUndoesForwardStage :
    (loaded p1 b3).cfg.Legal ∧ (loaded p1 b3).holds .x0 (valuesOf p1) ∧ 1 < (loaded p1 b3).cfg.l :=
  ⟨reference_legal, loaded_holds_x0, by decide⟩
theorem witness_InttInvertsNtt : (loaded p1 b3).cfg.Legal ∧ (loaded p1 b3).holds .x0 (valuesOf p1) :=
  ⟨reference_legal, loaded_holds_x0⟩
theorem witness_TwiddleIndexCountsUpOncePerBlock : Config.reference.Legal := reference_legal
theorem witness_StageTouchesEveryWordOnce : Config.reference.Legal ∧ 1 < Config.reference.l :=
  ⟨reference_legal, by decide⟩
theorem witness_PwmMultipliesSlotBySlot :
    (loaded p1 b3).cfg.Legal ∧ (loaded p1 b3).holds .x0 (valuesOf p1) ∧ (loaded p1 b3).holds .x1 (valuesOf b3) ∧
      3 < (loaded p1 b3).cfg.h := ⟨reference_legal, loaded_holds_x0, loaded_holds_x1, by decide⟩
theorem witness_PwmOfTransformsIsTheTransformOfTheProduct :
    transformed.cfg.Legal ∧ transformed.holds .x0 (forwardTransform transformed.cfg (valuesOf p1)) ∧
      transformed.holds .x1 (forwardTransform transformed.cfg (valuesOf p2)) :=
  ⟨reference_legal, by show ∀ i, i < 8 → _ ∧ _ < 3329; decide +kernel,
    by show ∀ i, i < 8 → _ ∧ _ < 3329; decide +kernel⟩
theorem witness_PmulIsTheNegacyclicProduct :
    (loaded p1 b3).cfg.Legal ∧ Bank.x0 ≠ Bank.x1 ∧ (loaded p1 b3).holds .x0 (valuesOf p1) ∧
      (loaded p1 b3).holds .x1 (valuesOf b3) := ⟨reference_legal, by decide, loaded_holds_x0, loaded_holds_x1⟩
theorem witness_PsqrIsTheNegacyclicSquare :
    (loaded p1 b3).cfg.Legal ∧ (loaded p1 b3).holds .x0 (valuesOf p1) ∧ Bank.x2 ≠ Bank.x0 :=
  ⟨reference_legal, loaded_holds_x0, by decide⟩
theorem witness_LdvFillsTheBank :
    (loaded p1 b3).cfg.Legal ∧ (loaded p1 b3).coef.wf (loaded p1 b3).cfg = true ∧
      a3.length = (loaded p1 b3).cfg.n ∧ ∀ v ∈ a3, v < (loaded p1 b3).cfg.q :=
  ⟨reference_legal, loaded_wf, by decide, by decide⟩
theorem witness_RdvRespondsTheWholeBank : (loaded p1 b3).holds .x0 (valuesOf p1) := loaded_holds_x0
theorem witness_CommandsWriteOnlyTheirDestination :
    (∃ t, exec (.madd .x2 .x0 .x1) (loaded p1 b3) = .next t) ∧
      (Instr.madd .x2 .x0 .x1).dest ≠ some .x3 := ⟨⟨_, rfl⟩, by decide⟩
theorem witness_ResultsDependOnTheNamedBanksOnly :
    (∀ d idx imm, Instr.madd .x2 .x0 .x1 ≠ .ldc d idx imm) ∧ transformedOther.cfg = (loaded p1 b3).cfg ∧
      transformedOther.resets = (loaded p1 b3).resets ∧ transformedOther.draws = (loaded p1 b3).draws ∧
      transformedOther.status = (loaded p1 b3).status ∧ transformedOther.responses = (loaded p1 b3).responses ∧
      (∀ b ∈ (Instr.madd .x2 .x0 .x1).sources, ∀ j, transformedOther.word b j = (loaded p1 b3).word b j) ∧
      (∃ t, exec (.madd .x2 .x0 .x1) (loaded p1 b3) = .next t) ∧
      (∃ t, exec (.madd .x2 .x0 .x1) transformedOther = .next t) ∧
      (Instr.madd .x2 .x0 .x1).dest = some .x2 ∧ 7 < (loaded p1 b3).cfg.n :=
  ⟨(fun _ _ _ h => by cases h), rfl, rfl, rfl, rfl, rfl,
    (by intro b hb j; cases b <;> first | rfl | (simp [Instr.sources] at hb)), ⟨_, rfl⟩, ⟨_, rfl⟩, rfl, by decide⟩
theorem witness_UnwrittenSourcesLeaveAnUnspecifiedBank :
    (Instr.madd .x2 .x0 .x3).dest = some .x2 ∧ (loaded p1 b3).admits (.madd .x2 .x0 .x3) = false ∧
      State.reset.admits (.ntt .x0) = false ∧ 7 < (loaded p1 b3).cfg.n := by decide +kernel
theorem witness_StepKeepsTheEngineInvariant :
    ((loaded p1 b3).withFetchWord 32 0x50000000).Inv ∧
      ∃ t, step ((loaded p1 b3).withFetchWord 32 0x50000000) = .next t := ⟨loaded_inv, ⟨_, rfl⟩⟩
theorem witness_ResetStateHasTheEngineInvariant : Config.reference.Legal := reference_legal
theorem loaded_inRange : ∀ b i v, (loaded p1 b3).word b i = some v → v < 3329 := by
  intro b i v h
  have key : ∀ b : Bank, ∀ w ∈ (loaded p1 b3).coef.bank b, ∀ v, w = some v → v < 3329 := by
    intro b; cases b <;> simp [loaded, Memory.bank, p1, b3, Memory.unwritten, State.reset]
  have hm : some v ∈ (loaded p1 b3).coef.bank b := by
    simp only [State.word, Memory.word, Option.join_eq_some_iff] at h
    exact List.mem_of_getElem? h
  exact key b _ hm v rfl
theorem witness_StepKeepsWrittenWordsInRange :
    ((loaded p1 b3).withFetchWord 32 0x50000000).Inv ∧ ((loaded p1 b3).withFetchWord 32 0x50000000).inRange ∧
      ((loaded p1 b3).withFetchWord 32 0x50000000).nextAdmitted = true ∧
      ∃ t, step ((loaded p1 b3).withFetchWord 32 0x50000000) = .next t :=
  ⟨loaded_inv, loaded_inRange, by decide +kernel, ⟨_, rfl⟩⟩
theorem witness_SequencerStepsRefineTheAtomicCommand :
    ((loaded p1 b3).withFetchWord 32 0x50000000).Inv ∧
      ((loaded p1 b3).withFetchWord 32 0x50000000).inbox = .command 0x50000000#32 :: [] ∧
      ∀ r, ([] : List HostInput) ≠ .reset :: r := ⟨loaded_inv, rfl, (fun _ h => by cases h)⟩
/-- Two engines with different banks, one of them unwritten, in the middle of the same stage. -/
theorem witness_SequencerStepsRefineTheAtomicCommand_same_loop_fields :
    busyState.cfg.n = ({ busyState with coef := Memory.unwritten 8 } : State).cfg.n ∧
      busyState.inbox = ({ busyState with coef := Memory.unwritten 8 } : State).inbox ∧
      busyState.seqTuple = ({ busyState with coef := Memory.unwritten 8 } : State).seqTuple ∧
      (∃ t, engineTick busyState = .next t) ∧
      ∃ t, engineTick ({ busyState with coef := Memory.unwritten 8 } : State) = .next t :=
  ⟨rfl, rfl, rfl, ⟨_, rfl⟩, ⟨_, rfl⟩⟩
theorem busyState_ok :
    ({ cmd := .fstg .x0 0, point := { t := 0, m := 4, s := 0, j := 2, k := 1 }, draw := none } : Sequencer).Ok Config.reference :=
  ⟨rfl, by decide, by decide, 0, by decide, by decide, by decide, by decide, by decide⟩
theorem witness_SequencerKeepsTheClosedForm :
    busyState.cfg.Legal ∧ (∀ q, busyState.seq = some q → q.Ok busyState.cfg) ∧
      (∃ t, engineTick busyState = .next t ∧ t.seq.isSome = true) :=
  ⟨reference_legal, (fun _ h => by cases h; exact busyState_ok), ⟨_, rfl, rfl⟩⟩
theorem witness_SequencerIndicesStayInRange :
    Config.reference.Legal ∧
      ({ cmd := .fstg .x0 0, point := { t := 0, m := 4, s := 0, j := 2, k := 1 }, draw := none } : Sequencer).Ok
        Config.reference := ⟨reference_legal, busyState_ok⟩

end Sys2Proof.Tests
end

/-! ## Running a list of commands: the rules for `execAll`, and the frame of one bank -/

section
namespace Sys2Proof.Machine

theorem execAll_nil (s : State) : execAll [] s = .next s := rfl

theorem execAll_cons_of_next {i : Instr} {s t : State} (h : exec i s = .next t) (is : List Instr) :
    execAll (i :: is) s = execAll is t := by
  simp [execAll, h]

theorem State.onlyBank.cfg_eq {s t : State} {d : Bank} (h : s.onlyBank t d) : t.cfg = s.cfg := by
  rw [h.1]

theorem State.onlyBank.word_of_ne {s t : State} {b d : Bank} (h : s.onlyBank t d) (hb : b ≠ d) (i : Nat) :
    t.word b i = s.word b i := h.2 b hb i

theorem State.onlyBank.refl (s : State) (d : Bank) : s.onlyBank s d := ⟨rfl, fun _ _ _ => rfl⟩

theorem State.onlyBank.trans {s t u : State} {d : Bank} (h : s.onlyBank t d) (k : t.onlyBank u d) :
    s.onlyBank u d :=
  ⟨by rw [k.1, h.1], fun _ hb i => (k.word_of_ne hb i).trans (h.word_of_ne hb i)⟩

/-- A bank that is not the changed one keeps the polynomial it holds. -/
theorem State.onlyBank.holds_of_ne {s t : State} {b d : Bank} {p : Nat → Nat} (h : s.onlyBank t d)
    (hb : b ≠ d) (hp : s.holds b p) : t.holds b p := by
  intro i hi
  rw [h.cfg_eq] at hi ⊢
  rw [h.word_of_ne hb]
  exact hp i hi

end Sys2Proof.Machine
end

/-! ## `LDV` and `RDV`: lists of host accesses (R54, R55) -/

section
namespace Sys2Proof.Machine

/-- `RDC` of a written word (R105). -/
theorem exec_rdc_of_word {s : State} {a : Bank} {idx v : Nat} (hi : idx < s.cfg.n)
    (hw : s.word a idx = some v) : exec (.rdc a idx) s = .next (s.respond (zext16 v)) := by
  simp [exec, execRdc, wordIdxOk, hi, State.readWord, hw]

/-- Reads of words of a bank respond them in the order of the reads, and change nothing else. -/
theorem execAll_rdc (a : Bank) (p : Nat → Nat) (idxs : List Nat) (s : State) (hp : s.holds a p)
    (hi : ∀ i ∈ idxs, i < s.cfg.n) :
    execAll (idxs.map fun i => .rdc a i) s =
      .next { s with responses := s.responses ++ idxs.map fun i => BitVec.ofNat 16 (p i) } := by
  induction idxs generalizing s with
  | nil => simp [execAll_nil]
  | cons i is ih =>
    have hin : i < s.cfg.n := hi i (by simp)
    have hread : exec (.rdc a i) s = .next (s.respond (zext16 (p i))) :=
      exec_rdc_of_word hin (hp i hin).1
    rw [List.map_cons, execAll_cons_of_next hread,
      ih (s.respond (zext16 (p i))) hp fun j hj => hi j (List.mem_cons_of_mem i hj)]
    simp [State.respond, zext16]

/-- `LDC` of a field element into a word the bank has (R104). -/
theorem exec_ldc_of_lt {s : State} (hc : s.cfg.Legal) (d : Bank) {idx v : Nat} (hi : idx < s.cfg.n)
    (hv : v < s.cfg.q) : exec (.ldc d idx v) s = .next (s.writeWord d idx v) := by
  have hdw : v % 2 ^ s.cfg.dw = v := Nat.mod_eq_of_lt (hv.trans_le hc.q_le_two_pow_dw)
  simp [exec, execLdc, loadCheck, wordIdxOk, immOk, hi, hv, hdw]

/-- The commands `LDC d[k], v0; LDC d[k+1], v1; ...` write their values to the words from `k` on. -/
theorem execAll_ldc_zipIdx (d : Bank) (vs : List Nat) (k : Nat) (s : State) (hc : s.cfg.Legal)
    (hm : s.coef.wf s.cfg = true) (hk : k + vs.length ≤ s.cfg.n) (hv : ∀ v ∈ vs, v < s.cfg.q) :
    ∃ t, execAll ((vs.zipIdx k).map fun (v, i) => .ldc d i v) s = .next t ∧ s.onlyBank t d ∧
      (∀ i, i < k → t.word d i = s.word d i) ∧ ∀ i, i < vs.length → t.word d (k + i) = vs[i]? := by
  induction vs generalizing k s with
  | nil => exact ⟨s, rfl, .refl s d, fun _ _ => rfl, by simp⟩
  | cons v vs ih =>
    rw [List.length_cons] at hk
    have hkn : k < s.cfg.n := by omega
    have hvq : v < s.cfg.q := hv v (by simp)
    have hload := exec_ldc_of_lt hc d hkn hvq
    obtain ⟨t, hrun, hframe, hbelow, hwords⟩ := ih (k + 1) (s.writeWord d k v) hc
      (Memory.wf_setWord hm d k (hvq.trans_le hc.q_le_two_pow_dw)) (by simp only [State.writeWord_cfg]; omega)
      fun x hx => hv x (List.mem_cons_of_mem v hx)
    refine ⟨t, ?_, (s.onlyBank_writeWord d k v).trans hframe, fun i hi => ?_, fun i hi => ?_⟩
    · rw [List.zipIdx_cons, List.map_cons, execAll_cons_of_next hload]
      exact hrun
    · exact (hbelow i (by omega)).trans (Memory.word_setWord_of_ne _ _ (.inr (by omega)))
    · cases i with
      | zero =>
        refine (hbelow k (by omega)).trans ?_
        exact Memory.word_setWord_same _ d v (by rw [Memory.wf_bank_length hm]; exact hkn)
      | succ i =>
        rw [show k + (i + 1) = k + 1 + i by omega, hwords i (by simpa using hi)]
        simp

/-- The expansion of `LDV`, with the values read by index (R54). -/
theorem expand_ldv_eq_map_range (c : Config) (d : Bank) (vs : List Nat) :
    (Pseudo.ldv d vs).expand c = (List.range vs.length).map fun i => .ldc d i (vs.getD i 0) := by
  refine List.ext_getElem (by simp [Pseudo.expand]) fun i hi _ => ?_
  have hlt : i < vs.length := by simpa [Pseudo.expand] using hi
  simp [Pseudo.expand, hlt]

end Sys2Proof.Machine

open Sys2Proof Sys2Proof.Machine

/-- Settles O51, by induction on the list of reads (`execAll_rdc`). -/
theorem rdvRespondsTheWholeBank : Obligations.RdvRespondsTheWholeBank := by
  intro s a p hp
  exact ⟨rfl, execAll_rdc a p (List.range s.cfg.n) s hp fun i hi => List.mem_range.1 hi⟩

/-- Settles O50, by induction on the list of values (`execAll_ldc_zipIdx`). -/
theorem ldvFillsTheBank : Obligations.LdvFillsTheBank := by
  intro s d vs
  refine ⟨fun hlen => by simp [Pseudo.assemble, Pseudo.wellFormed, hlen], fun hc hm hlen hv => ?_⟩
  obtain ⟨t, hrun, hframe, -, hwords⟩ := execAll_ldc_zipIdx d vs 0 s hc hm (by omega) hv
  refine ⟨hlen ▸ expand_ldv_eq_map_range s.cfg d vs, t, hrun, hframe, fun i hi => ?_⟩
  simpa using hwords i (hlen ▸ hi)

end

/-! ## Bit reversal at the twiddle indices of a stage (R70, R83, R91) -/

section
namespace Sys2Proof.Machine

theorem brv_add_two_pow_mul (x y len : Nat) : brv (x + 2 ^ len * y) len = brv x len := by
  induction len generalizing y with
  | zero => rfl
  | succ len ih =>
    have hsplit : x + 2 ^ (len + 1) * y = x + 2 ^ len * (2 * y) := by ring
    simp only [brv]
    rw [hsplit, ih, Nat.add_mul_div_left _ _ (Nat.two_pow_pos len)]
    omega

/-- A leading zero doubles the reversal. -/
theorem brv_succ_of_lt {x len : Nat} (h : x < 2 ^ len) : brv x (len + 1) = 2 * brv x len := by
  simp [brv, Nat.div_eq_of_lt h]

/-- A leading one doubles the reversal and adds one. -/
theorem brv_two_pow_add {x len : Nat} (h : x < 2 ^ len) :
    brv (2 ^ len + x) (len + 1) = 2 * brv x len + 1 := by
  have hlow : brv (2 ^ len + x) len = brv x len := by
    simpa [Nat.add_comm] using brv_add_two_pow_mul x 1 len
  have htop : (2 ^ len + x) / 2 ^ len = 1 := by
    rw [Nat.add_div_left _ (Nat.two_pow_pos len), Nat.div_eq_of_lt h]
  simp [brv, hlow, htop]

/-- The lowest bit becomes the highest. -/
theorem brv_two_mul_add {e : Nat} (he : e < 2) (b t : Nat) :
    brv (2 * b + e) (t + 1) = brv b t + e * 2 ^ t := by
  induction t with
  | zero => simp only [brv, pow_zero, Nat.div_one]; omega
  | succ t ih =>
    have htop : (2 * b + e) / 2 ^ (t + 1) = b / 2 ^ t := by
      rw [Nat.pow_succ', ← Nat.div_div_eq_div_mul]
      congr 1
      omega
    rw [brv, ih, htop, brv]
    ring

/-- The forward twiddle index of block `b` of stage `t`, reversed over `t + 1 + r` bits. -/
theorem brv_forward_index {b t : Nat} (hb : b < 2 ^ t) (r : Nat) :
    brv (2 ^ t + b) (t + 1 + r) = (2 * brv b t + 1) * 2 ^ r := by
  induction r with
  | zero => simpa using brv_two_pow_add hb
  | succ r ih =>
    have hlt : 2 ^ t + b < 2 ^ (t + 1 + r) :=
      calc 2 ^ t + b < 2 ^ (t + 1) := by rw [Nat.pow_succ]; omega
        _ ≤ 2 ^ (t + 1 + r) := Nat.pow_le_pow_right (by decide) (by omega)
    rw [← Nat.add_assoc, brv_succ_of_lt hlt, ih]
    ring

/-- The inverse stage that undoes forward stage `t` reads, for block `b`, the power one below the forward
twiddle's (R77). -/
theorem brv_inverse_index_add_one {b t : Nat} (hb : b < 2 ^ t) (r : Nat) :
    brv (2 ^ (t + 1 + r) - 2 ^ (t + 1) + b) (t + 1 + r) + 1 = brv (2 ^ t + b) (t + 1 + r) := by
  rw [brv_forward_index hb]
  induction r with
  | zero => simp [brv_succ_of_lt hb]
  | succ r ih =>
    have hle : 2 ^ (t + 1) ≤ 2 ^ (t + 1 + r) := Nat.pow_le_pow_right (by decide) (by omega)
    have hlt : 2 ^ (t + 1 + r) - 2 ^ (t + 1) + b < 2 ^ (t + 1 + r) := by rw [Nat.pow_succ] at hle ⊢; omega
    have hsplit : 2 ^ (t + 1 + (r + 1)) - 2 ^ (t + 1) + b =
        2 ^ (t + 1 + r) + (2 ^ (t + 1 + r) - 2 ^ (t + 1) + b) := by
      rw [← Nat.add_assoc, Nat.pow_succ 2 (t + 1 + r)]
      omega
    rw [hsplit, ← Nat.add_assoc (t + 1) r 1, brv_two_pow_add hlt, pow_succ 2 r, ← Nat.mul_assoc, ← ih]
    ring

end Sys2Proof.Machine
end

/-! ## The units, the tables and the butterflies in `ZMod Q` -/

section
namespace Sys2Proof.Machine

variable {c : Config}

/-- Field elements that agree modulo the modulus are equal. -/
theorem eq_of_natCast_eq {q a b : Nat} (ha : a < q) (hb : b < q) (h : (a : ZMod q) = b) : a = b := by
  have hmod := (ZMod.natCast_eq_natCast_iff' a b q).1 h
  rwa [Nat.mod_eq_of_lt ha, Nat.mod_eq_of_lt hb] at hmod

theorem natCast_modPowLoop (q fuel r x e : Nat) (he : e < 2 ^ fuel) :
    (modPowLoop q fuel r x e : ZMod q) = (r : ZMod q) * (x : ZMod q) ^ e := by
  induction fuel generalizing r x e with
  | zero =>
    obtain rfl : e = 0 := by omega
    simp [modPowLoop]
  | succ fuel ih =>
    rw [Nat.pow_succ] at he
    by_cases h0 : e = 0
    · simp [modPowLoop, h0]
    · rw [modPowLoop, if_neg h0, ih _ _ _ (by omega)]
      have hsq : ((x : ZMod q) * x) ^ (e / 2) = (x : ZMod q) ^ (2 * (e / 2)) := by rw [pow_mul, pow_two]
      rcases Nat.mod_two_eq_zero_or_one e with hpar | hpar
      · simp only [hpar, ZMod.natCast_mod, Nat.cast_mul, hsq]
        rw [if_neg (by decide), show 2 * (e / 2) = e by omega]
      · simp only [hpar, if_true, ZMod.natCast_mod, Nat.cast_mul, hsq]
        rw [mul_assoc, ← pow_succ', show 2 * (e / 2) + 1 = e by omega]

/-- `modPow` is exponentiation (R79). -/
theorem natCast_modPow (q base e : Nat) : (modPow q base e : ZMod q) = (base : ZMod q) ^ e := by
  simp [modPow, natCast_modPowLoop _ _ _ _ _ Nat.lt_log2_self]

end Sys2Proof.Machine

namespace Sys2Proof

variable {c : Config}

theorem Config.Legal.q_pos (h : c.Legal) : 0 < c.q := by
  have := h.modulus
  omega

/-- The check of R6 on the root: `W^(N/2) = -1` modulo Q. -/
theorem Config.Legal.pow_h (h : c.Legal) : (c.w : ZMod c.q) ^ c.h = -1 := by
  have hpow : Machine.modPow c.q c.w (c.n / 2) = c.q - 1 := by
    unfold Config.Legal Machine.elabCheck at h
    split_ifs at h with _ _ _ _ hroot
    exact not_not.1 hroot
  rw [Config.h, ← Machine.natCast_modPow, hpow, Nat.cast_sub h.q_pos]
  simp

/-- `WINV` inverts `W` (R72). -/
theorem Config.Legal.w_mul_winv (h : c.Legal) : (c.w : ZMod c.q) * c.winv = 1 := by
  have hn : c.n - 1 + 1 = c.h + c.h := by
    have := h.n_eq_two_h
    have := h.size.2.1
    omega
  rw [Config.winv, ZMod.natCast_mod, Nat.cast_pow, ← pow_succ', hn, pow_add, h.pow_h]
  ring

/-- The modulus is odd, so 2 can be cancelled. -/
theorem Config.Legal.eq_of_two_mul_eq (h : c.Legal) {a b : ZMod c.q} (hab : 2 * a = 2 * b) : a = b := by
  have hhalf : (c.half : ZMod c.q) * 2 = 1 := by
    have hq : c.half * 2 = c.q + 1 := by
      have := h.modulus.1
      simp only [Config.half]
      omega
    simpa using congrArg (Nat.cast : Nat → ZMod c.q) hq
  calc a = c.half * (2 * a) := by rw [← mul_assoc, hhalf, one_mul]
    _ = c.half * (2 * b) := by rw [hab]
    _ = b := by rw [← mul_assoc, hhalf, one_mul]

end Sys2Proof

namespace Sys2Proof.Machine

variable {c : Config} {a b : Nat}

theorem modAdd_lt (ha : a < c.q) (hb : b < c.q) : modAdd c a b < c.q := by
  rw [modAdd_of_lt ha hb]
  exact Nat.mod_lt _ (by omega)

theorem modSub_lt (ha : a < c.q) (hb : b < c.q) : modSub c a b < c.q := by
  rw [modSub_of_lt ha hb]
  exact Nat.mod_lt _ (by omega)

theorem modMul_lt (ha : a < c.q) (hb : b < c.q) : modMul c a b < c.q := by
  rw [modMul_of_lt ha hb]
  exact Nat.mod_lt _ (by omega)

theorem natCast_modAdd (ha : a < c.q) (hb : b < c.q) : (modAdd c a b : ZMod c.q) = a + b := by
  simp [modAdd_of_lt ha hb]

theorem natCast_modSub (ha : a < c.q) (hb : b < c.q) : (modSub c a b : ZMod c.q) = a - b := by
  simp [modSub_of_lt ha hb, Nat.cast_sub hb.le, sub_eq_add_neg]

theorem natCast_modMul (ha : a < c.q) (hb : b < c.q) : (modMul c a b : ZMod c.q) = a * b := by
  simp [modMul_of_lt ha hb]

theorem two_mul_natCast_modHlv (hc : c.Legal) (ha : a < c.q) : 2 * (modHlv c a : ZMod c.q) = a := by
  have hdouble := congrArg (Nat.cast : Nat → ZMod c.q) (modHlv_of_lt hc.modulus.1 ha).2
  rw [ZMod.natCast_mod, Nat.cast_add] at hdouble
  rw [two_mul, hdouble]

theorem fwd_lt (hc : c.Legal) (k : Nat) : fwd c k < c.q := Nat.mod_lt _ hc.q_pos

theorem inv_lt (hc : c.Legal) (k : Nat) : inv c k < c.q := Nat.mod_lt _ hc.q_pos

theorem wq_lt (hc : c.Legal) (k : Nat) : wq c k < c.q := Nat.mod_lt _ hc.q_pos

theorem natCast_fwd (c : Config) (k : Nat) : (fwd c k : ZMod c.q) = (c.w : ZMod c.q) ^ brv k c.l := by
  simp [fwd, wn]

theorem natCast_inv (c : Config) (k : Nat) : (inv c k : ZMod c.q) = (c.winv : ZMod c.q) ^ (brv k c.l + 1) := by
  simp [inv, wnInv]

theorem natCast_wq (c : Config) (k : Nat) : (wq c k : ZMod c.q) = (c.w : ZMod c.q) ^ (2 * brv k c.l + 1) := by
  simp [wq, wn]

/-- The twiddle of forward stage `t`, block `b`, and that of the inverse stage that undoes it (R77). -/
theorem fwd_mul_inv (hc : c.Legal) {t b : Nat} (ht : t < c.l) (hb : b < 2 ^ t) :
    (fwd c (2 ^ t + b) : ZMod c.q) * inv c (c.h - 2 ^ (t + 1) + b) = 1 := by
  obtain ⟨r, hr⟩ : ∃ r, c.l = t + 1 + r := ⟨c.l - t - 1, by omega⟩
  rw [natCast_fwd, natCast_inv, hc.h_eq, hr, brv_inverse_index_add_one hb, ← mul_pow, hc.w_mul_winv, one_pow]

/-- The forward butterfly's results: `A + T` and `A - T` with `T = Wt * B` (R82). -/
theorem natCast_ct {A B W : Nat} (hA : A < c.q) (hB : B < c.q) (hW : W < c.q) :
    ((ct c A B W).1 : ZMod c.q) = A + W * B ∧ ((ct c A B W).2 : ZMod c.q) = A - W * B := by
  have hT := modMul_lt hW hB
  exact ⟨by rw [ct, natCast_modAdd hA hT, natCast_modMul hW hB],
    by rw [ct, natCast_modSub hA hT, natCast_modMul hW hB]⟩

theorem ct_lt {A B W : Nat} (hA : A < c.q) (hB : B < c.q) (hW : W < c.q) :
    (ct c A B W).1 < c.q ∧ (ct c A B W).2 < c.q :=
  ⟨modAdd_lt hA (modMul_lt hW hB), modSub_lt hA (modMul_lt hW hB)⟩

/-- The inverse butterfly's results, doubled: `A + B` and `(A - B) * Wt` (R90). -/
theorem two_mul_natCast_gs (hc : c.Legal) {A B W : Nat} (hA : A < c.q) (hB : B < c.q) (hW : W < c.q) :
    2 * ((gs c A B W).1 : ZMod c.q) = A + B ∧ 2 * ((gs c A B W).2 : ZMod c.q) = (A - B) * W := by
  have hD := modSub_lt hA hB
  exact ⟨by rw [gs, two_mul_natCast_modHlv hc (modAdd_lt hA hB), natCast_modAdd hA hB],
    by rw [gs, two_mul_natCast_modHlv hc (modMul_lt hD hW), natCast_modMul hD hW, natCast_modSub hA hB]⟩

theorem gs_lt (hc : c.Legal) {A B W : Nat} (hA : A < c.q) (hB : B < c.q) (hW : W < c.q) :
    (gs c A B W).1 < c.q ∧ (gs c A B W).2 < c.q :=
  ⟨(modHlv_of_lt hc.modulus.1 (modAdd_lt hA hB)).1,
    (modHlv_of_lt hc.modulus.1 (modMul_lt (modSub_lt hA hB) hW)).1⟩

/-- With inverse twiddles the inverse butterfly undoes the forward one. -/
theorem gs_ct (hc : c.Legal) {A B W V : Nat} (hA : A < c.q) (hB : B < c.q) (hW : W < c.q) (hV : V < c.q)
    (hWV : (W : ZMod c.q) * V = 1) : gs c (ct c A B W).1 (ct c A B W).2 V = (A, B) := by
  obtain ⟨hE, hO⟩ := ct_lt hA hB hW
  obtain ⟨hsum, hdiff⟩ := natCast_ct hA hB hW
  obtain ⟨hfst, hsnd⟩ := two_mul_natCast_gs hc hE hO hV
  obtain ⟨hfst_lt, hsnd_lt⟩ := gs_lt hc hE hO hV
  refine Prod.ext (eq_of_natCast_eq hfst_lt hA (hc.eq_of_two_mul_eq ?_))
    (eq_of_natCast_eq hsnd_lt hB (hc.eq_of_two_mul_eq ?_))
  · rw [hfst, hsum, hdiff]; ring
  · rw [hsnd, hsum, hdiff]
    linear_combination (2 * (B : ZMod c.q)) * hWV

end Sys2Proof.Machine
end

/-! ## A stage as a list of butterflies on disjoint pairs (R84, R92) -/

section
namespace Sys2Proof.Machine

/-- Two butterflies that share no word. -/
structure LoopPoint.Apart (p p' : LoopPoint) : Prop where
  first_first : p.j ≠ p'.j
  first_second : p.j ≠ p'.j + p'.m
  second_first : p.j + p.m ≠ p'.j
  second_second : p.j + p.m ≠ p'.j + p'.m

/-- Butterflies on disjoint pairs, done one after the other: each pair gets the results of its own butterfly on
the words as they were before the first. -/
theorem coeffAt_foldl_butterfly (g : LoopPoint → Nat → Nat → Nat × Nat) (ps : List LoopPoint) (x : List Nat)
    (hapart : ps.Pairwise LoopPoint.Apart) (hin : ∀ p ∈ ps, 0 < p.m ∧ p.j + p.m < x.length) :
    (∀ i, (∀ p ∈ ps, i ≠ p.j ∧ i ≠ p.j + p.m) →
        coeffAt (ps.foldl (fun x p => butterfly (g p) x p.j p.m) x) i = coeffAt x i) ∧
      ∀ p ∈ ps,
        coeffAt (ps.foldl (fun x p => butterfly (g p) x p.j p.m) x) p.j =
            (g p (coeffAt x p.j) (coeffAt x (p.j + p.m))).1 ∧
          coeffAt (ps.foldl (fun x p => butterfly (g p) x p.j p.m) x) (p.j + p.m) =
            (g p (coeffAt x p.j) (coeffAt x (p.j + p.m))).2 := by
  induction ps generalizing x with
  | nil => exact ⟨fun _ _ => rfl, fun p hp => absurd hp List.not_mem_nil⟩
  | cons p ps ih =>
    obtain ⟨hhead, htail⟩ := List.pairwise_cons.1 hapart
    obtain ⟨hm, hj⟩ := hin p List.mem_cons_self
    obtain ⟨hother, hpair⟩ := ih (butterfly (g p) x p.j p.m) htail fun p' hp' => by
      rw [butterfly_length]
      exact hin p' (List.mem_cons_of_mem p hp')
    have hfirst := coeffAt_butterfly (g p) x hm hj
    simp only [List.foldl_cons]
    refine ⟨fun i hi => ?_, fun p' hp' => ?_⟩
    · obtain ⟨hne, hne'⟩ := hi p List.mem_cons_self
      rw [hother i fun p' hp' => hi p' (List.mem_cons_of_mem p hp'), hfirst, if_neg hne', if_neg hne]
    · rcases List.mem_cons.1 hp' with rfl | hmem
      · have hfst := hother p'.j fun r hr => ⟨(hhead r hr).first_first, (hhead r hr).first_second⟩
        have hsnd := hother (p'.j + p'.m) fun r hr => ⟨(hhead r hr).second_first, (hhead r hr).second_second⟩
        rw [hfst, hsnd, hfirst, hfirst, if_neg (by omega), if_pos rfl, if_pos rfl]
        exact ⟨rfl, rfl⟩
      · obtain ⟨h1, h2, h3, h4⟩ := hhead p' hmem
        rw [(hpair p' hmem).1, (hpair p' hmem).2, hfirst, hfirst, if_neg h3.symm, if_neg h1.symm,
          if_neg h4.symm, if_neg h2.symm]
        exact ⟨rfl, rfl⟩

/-- The loop nest of a stage of `B` blocks of `2m` words, block `b` with twiddle index `k b`. -/
def blockPoints (t m B : Nat) (k : Nat → Nat) : List LoopPoint :=
  (List.range B).flatMap fun b =>
    (List.range m).map fun i => { t := t, m := m, s := b * (2 * m), j := b * (2 * m) + i, k := k b }

theorem fwdPoints_eq_blockPoints (c : Config) (t : Nat) :
    fwdPoints c t = blockPoints t (c.h >>> t) (2 ^ t) (fun b => 2 ^ t + b) := rfl

theorem invPoints_eq_blockPoints (c : Config) (t : Nat) :
    invPoints c t = blockPoints t (2 <<< t) (c.h >>> (t + 1)) (fun b => c.h - (c.h >>> t) + b) := rfl

theorem mem_blockPoints {t m B : Nat} {k : Nat → Nat} {p : LoopPoint} :
    p ∈ blockPoints t m B k ↔
      ∃ b < B, ∃ i < m, p = { t := t, m := m, s := b * (2 * m), j := b * (2 * m) + i, k := k b } := by
  simp [blockPoints, eq_comm]

/-- A block ends before a later one begins. -/
theorem block_end_le {b b' D : Nat} (h : b < b') : b * D + D ≤ b' * D := by
  rw [← Nat.succ_mul]
  exact Nat.mul_le_mul_right D h

theorem blockPoints_apart (t m B : Nat) (k : Nat → Nat) : (blockPoints t m B k).Pairwise LoopPoint.Apart := by
  refine List.pairwise_flatMap.2 ⟨fun b _ => ?_, List.pairwise_lt_range.imp fun {b b'} hb p hp p' hp' => ?_⟩
  · refine List.pairwise_map.2 (List.pairwise_lt_range.imp_of_mem fun {i i'} hi hi' hlt => ?_)
    rw [List.mem_range] at hi hi'
    refine ⟨?_, ?_, ?_, ?_⟩ <;> (dsimp only; omega)
  · obtain ⟨i, hi, rfl⟩ := List.mem_map.1 hp
    obtain ⟨i', hi', rfl⟩ := List.mem_map.1 hp'
    rw [List.mem_range] at hi hi'
    have hend := block_end_le (D := 2 * m) hb
    refine ⟨?_, ?_, ?_, ?_⟩ <;> (dsimp only; omega)

/-- The pair `i` of block `b` after a stage of blocks. -/
theorem coeffAt_foldl_blockPoints (g : LoopPoint → Nat → Nat → Nat × Nat) {t m B b i : Nat} (k : Nat → Nat)
    {x y : List Nat} (hy : y = (blockPoints t m B k).foldl (fun x p => butterfly (g p) x p.j p.m) x)
    (hx : x.length = B * (2 * m)) (hb : b < B) (hi : i < m) :
    let p : LoopPoint := { t := t, m := m, s := b * (2 * m), j := b * (2 * m) + i, k := k b }
    coeffAt y p.j = (g p (coeffAt x p.j) (coeffAt x (p.j + m))).1 ∧
      coeffAt y (p.j + m) = (g p (coeffAt x p.j) (coeffAt x (p.j + m))).2 := by
  subst hy
  refine (coeffAt_foldl_butterfly g _ x (blockPoints_apart t m B k) fun p hp => ?_).2 _
    (mem_blockPoints.2 ⟨b, hb, i, hi, rfl⟩)
  obtain ⟨b', hb', i', hi', rfl⟩ := mem_blockPoints.1 hp
  have hend := block_end_le (D := 2 * m) hb'
  rw [hx]
  exact ⟨by dsimp only; omega, by dsimp only; omega⟩

/-- Every word lies in one half of one block. -/
theorem exists_block_index {B m k : Nat} (hk : k < B * (2 * m)) :
    ∃ b < B, ∃ i < m, k = b * (2 * m) + i ∨ k = b * (2 * m) + i + m := by
  have hm : 0 < 2 * m := Nat.pos_of_ne_zero fun h => by simp [h] at hk
  have hsplit := Nat.div_add_mod' k (2 * m)
  have hrem := Nat.mod_lt k hm
  refine ⟨k / (2 * m), Nat.div_lt_of_lt_mul (by rwa [Nat.mul_comm]), ?_⟩
  by_cases h : k % (2 * m) < m
  · exact ⟨k % (2 * m), h, .inl hsplit.symm⟩
  · exact ⟨k % (2 * m) - m, by omega, .inr (by omega)⟩

end Sys2Proof.Machine
end

/-! ## The forward and inverse stages, pair by pair -/

section
namespace Sys2Proof

variable {c : Config}

/-- `H >> t` is half the length of a block of forward stage `t`. -/
theorem Config.Legal.h_shiftRight (hc : c.Legal) {t : Nat} (ht : t ≤ c.l) : c.h >>> t = 2 ^ (c.l - t) := by
  rw [hc.h_eq, Nat.shiftRight_eq_div_pow, Nat.pow_div ht (by decide)]

/-- The N words as the blocks of forward stage `t`. -/
theorem Config.Legal.n_eq_blocks (hc : c.Legal) {t : Nat} (ht : t ≤ c.l) :
    c.n = 2 ^ t * (2 * 2 ^ (c.l - t)) := by
  rw [← Nat.pow_succ', ← Nat.pow_add, hc.n_eq]
  congr 1
  omega

end Sys2Proof

namespace Sys2Proof.Machine

variable {c : Config}

/-- A bank of N field elements. -/
def FieldWords (c : Config) (x : List Nat) : Prop := x.length = c.n ∧ ∀ i, i < c.n → coeffAt x i < c.q

/-- The pair of words `j` and `j + m` that is pair `i` of block `b` of forward stage `t`. -/
structure StagePair (c : Config) (t b j m : Nat) : Prop where
  stage : t < c.l
  block : b < 2 ^ t
  dist : m = 2 ^ (c.l - t)
  index : ∃ i < m, j = b * (2 * m) + i

theorem StagePair.lt_n (hc : c.Legal) {t b j m : Nat} (h : StagePair c t b j m) : j < c.n ∧ j + m < c.n := by
  obtain ⟨ht, hb, rfl, i, hi, rfl⟩ := h
  have hend := block_end_le (D := 2 * 2 ^ (c.l - t)) hb
  rw [hc.n_eq_blocks ht.le]
  omega

/-- Every word of the bank is one of a pair of each stage. -/
theorem exists_stagePair (hc : c.Legal) {t k : Nat} (ht : t < c.l) (hk : k < c.n) :
    ∃ b j m, StagePair c t b j m ∧ (k = j ∨ k = j + m) := by
  rw [hc.n_eq_blocks ht.le] at hk
  obtain ⟨b, hb, i, hi, hki⟩ := exists_block_index hk
  exact ⟨b, _, _, ⟨ht, hb, rfl, i, hi, rfl⟩, hki⟩

/-- Forward stage `t` performs the forward butterfly on each of its pairs (R84). -/
theorem coeffAt_fwdStage (hc : c.Legal) {t b j m : Nat} {x : List Nat} (hx : x.length = c.n)
    (h : StagePair c t b j m) :
    coeffAt (fwdStage c t x) j = (ct c (coeffAt x j) (coeffAt x (j + m)) (fwd c (2 ^ t + b))).1 ∧
      coeffAt (fwdStage c t x) (j + m) = (ct c (coeffAt x j) (coeffAt x (j + m)) (fwd c (2 ^ t + b))).2 := by
  obtain ⟨ht, hb, rfl, i, hi, rfl⟩ := h
  have hy : fwdStage c t x = (blockPoints t (2 ^ (c.l - t)) (2 ^ t) (fun b => 2 ^ t + b)).foldl
      (fun x p => butterfly (fun A B => ct c A B (fwd c p.k)) x p.j p.m) x := by
    rw [← hc.h_shiftRight ht.le, ← fwdPoints_eq_blockPoints]
    rfl
  exact coeffAt_foldl_blockPoints (fun p A B => ct c A B (fwd c p.k)) _ hy
    (hx.trans (hc.n_eq_blocks ht.le)) hb hi

/-- Inverse stage `L - 1 - t` performs the inverse butterfly on the pairs of forward stage `t` (R92, R93). -/
theorem coeffAt_invStage (hc : c.Legal) {t b j m : Nat} {x : List Nat} (hx : x.length = c.n)
    (h : StagePair c t b j m) :
    coeffAt (invStage c (c.l - 1 - t) x) j =
        (gs c (coeffAt x j) (coeffAt x (j + m)) (inv c (c.h - 2 ^ (t + 1) + b))).1 ∧
      coeffAt (invStage c (c.l - 1 - t) x) (j + m) =
        (gs c (coeffAt x j) (coeffAt x (j + m)) (inv c (c.h - 2 ^ (t + 1) + b))).2 := by
  obtain ⟨ht, hb, rfl, i, hi, rfl⟩ := h
  have hdist : 2 <<< (c.l - 1 - t) = 2 ^ (c.l - t) := by
    rw [Nat.shiftLeft_eq, ← Nat.pow_succ']
    congr 1
    omega
  have hblocks : c.h >>> (c.l - 1 - t + 1) = 2 ^ t := by
    rw [hc.h_shiftRight (by omega)]
    congr 1
    omega
  have hindex : c.h >>> (c.l - 1 - t) = 2 ^ (t + 1) := by
    rw [hc.h_shiftRight (by omega)]
    congr 1
    omega
  have hy : invStage c (c.l - 1 - t) x =
      (blockPoints (c.l - 1 - t) (2 ^ (c.l - t)) (2 ^ t) (fun b => c.h - 2 ^ (t + 1) + b)).foldl
        (fun x p => butterfly (fun A B => gs c A B (inv c p.k)) x p.j p.m) x := by
    rw [← hdist, ← hblocks, ← hindex, ← invPoints_eq_blockPoints]
    rfl
  exact coeffAt_foldl_blockPoints (fun p A B => gs c A B (inv c p.k)) _ hy
    (hx.trans (hc.n_eq_blocks ht.le)) hb hi

/-- A forward stage keeps the words field elements (R14). -/
theorem FieldWords.fwdStage (hc : c.Legal) {t : Nat} {x : List Nat} (ht : t < c.l) (hx : FieldWords c x) :
    FieldWords c (fwdStage c t x) := by
  obtain ⟨hlen, hlt⟩ := hx
  refine ⟨by rw [fwdStage_length, hlen], fun k hk => ?_⟩
  obtain ⟨b, j, m, hp, hkj⟩ := exists_stagePair hc ht hk
  obtain ⟨hj, hjm⟩ := hp.lt_n hc
  obtain ⟨hfst, hsnd⟩ := coeffAt_fwdStage hc hlen hp
  obtain ⟨hA, hB⟩ := ct_lt (hlt j hj) (hlt (j + m) hjm) (fwd_lt hc (2 ^ t + b))
  rcases hkj with rfl | rfl
  · rwa [hfst]
  · rwa [hsnd]

theorem eq_of_coeffAt_eq {x y : List Nat} (hlen : x.length = y.length)
    (h : ∀ i, i < y.length → coeffAt x i = coeffAt y i) : x = y := by
  refine List.ext_getElem hlen fun i hi hi' => ?_
  simpa [coeffAt, hi, hi'] using h i hi'

/-- Inverse stage `L - 1 - t` undoes forward stage `t` (R93). -/
theorem invStage_fwdStage (hc : c.Legal) {t : Nat} {x : List Nat} (ht : t < c.l) (hx : FieldWords c x) :
    invStage c (c.l - 1 - t) (fwdStage c t x) = x := by
  have hlen' := (hx.fwdStage hc ht).1
  obtain ⟨hlen, hlt⟩ := hx
  refine eq_of_coeffAt_eq (by rw [invStage_length, fwdStage_length]) fun k hk => ?_
  obtain ⟨b, j, m, hp, hkj⟩ := exists_stagePair hc ht (hlen ▸ hk)
  obtain ⟨hj, hjm⟩ := hp.lt_n hc
  obtain ⟨hfwd, hfwd'⟩ := coeffAt_fwdStage hc hlen hp
  obtain ⟨hinv, hinv'⟩ := coeffAt_invStage hc hlen' hp
  have hundo := gs_ct hc (hlt j hj) (hlt (j + m) hjm) (fwd_lt hc (2 ^ t + b))
    (inv_lt hc (c.h - 2 ^ (t + 1) + b)) (fwd_mul_inv hc ht hp.block)
  rcases hkj with rfl | rfl
  · rw [hinv, hfwd, hfwd', hundo]
  · rw [hinv', hfwd, hfwd', hundo]

/-- The forward stages `0, ..., k - 1`. -/
def fwdStages (c : Config) (k : Nat) (x : List Nat) : List Nat :=
  (List.range k).foldl (fun y t => fwdStage c t y) x

theorem nttWords_eq_fwdStages (c : Config) (x : List Nat) : nttWords c x = fwdStages c c.l x := rfl

theorem fwdStages_succ (c : Config) (k : Nat) (x : List Nat) :
    fwdStages c (k + 1) x = fwdStage c k (fwdStages c k x) := by
  simp [fwdStages, List.range_succ]

theorem FieldWords.fwdStages (hc : c.Legal) {k : Nat} {x : List Nat} (hk : k ≤ c.l) (hx : FieldWords c x) :
    FieldWords c (fwdStages c k x) := by
  induction k with
  | zero => exact hx
  | succ k ih =>
    rw [fwdStages_succ]
    exact (ih (by omega)).fwdStage hc hk

/-- The last `k` inverse stages undo the first `k` forward ones. -/
theorem foldl_invStage_fwdStages (hc : c.Legal) {k : Nat} {x : List Nat} (hk : k ≤ c.l) (hx : FieldWords c x) :
    (List.range' (c.l - k) k).foldl (fun y t => invStage c t y) (fwdStages c k x) = x := by
  induction k with
  | zero => rfl
  | succ k ih =>
    rw [List.range'_succ, List.foldl_cons, fwdStages_succ, show c.l - (k + 1) = c.l - 1 - k by omega,
      invStage_fwdStage hc hk (hx.fwdStages hc (by omega)), show c.l - 1 - k + 1 = c.l - k by omega]
    exact ih (by omega)

/-- The inverse transform undoes the forward one (R95). -/
theorem inttWords_nttWords (hc : c.Legal) {x : List Nat} (hx : FieldWords c x) :
    inttWords c (nttWords c x) = x := by
  have h := foldl_invStage_fwdStages hc le_rfl hx
  rwa [Nat.sub_self, ← List.range_eq_range'] at h

end Sys2Proof.Machine
end

/-! ## The forward transform computes the residues (R88) -/

section
namespace Sys2Proof.Machine

/-- Coefficient `i` of the remainder of `p` on division by `X^D - z`, for `p` of `cnt * D` coefficients. -/
def residueCoeff {R : Type} [CommRing R] (p : Nat → Nat) (D cnt : Nat) (z : R) (i : Nat) : R :=
  ∑ u ∈ Finset.range cnt, (p (i + D * u) : R) * z ^ u

/-- The Chinese remainder step: the remainder by `X^m - r` from that by `X^(2m) - r^2`. -/
theorem residueCoeff_two_mul {R : Type} [CommRing R] (p : Nat → Nat) (m cnt : Nat) (r : R) (i : Nat) :
    residueCoeff p m (2 * cnt) r i =
      residueCoeff p (2 * m) cnt (r ^ 2) i + r * residueCoeff p (2 * m) cnt (r ^ 2) (i + m) := by
  induction cnt with
  | zero => simp [residueCoeff]
  | succ cnt ih =>
    simp only [residueCoeff] at ih ⊢
    rw [show 2 * (cnt + 1) = 2 * cnt + 1 + 1 by ring, Finset.sum_range_succ, Finset.sum_range_succ, ih,
      Finset.sum_range_succ, Finset.sum_range_succ, show i + m * (2 * cnt) = i + 2 * m * cnt by ring,
      show i + m * (2 * cnt + 1) = i + m + 2 * m * cnt by ring]
    ring

variable {c : Config}

/-- The constant `z` of block `b` before forward stage `t`: the block's words are a remainder by `X^D - z`. -/
def blockRoot (c : Config) (t b : Nat) : ZMod c.q := (c.w : ZMod c.q) ^ ((2 * brv b t + 1) * 2 ^ (c.l - t))

theorem blockRoot_zero (hc : c.Legal) (b : Nat) : blockRoot c 0 b = -1 := by
  simp [blockRoot, brv, ← hc.h_eq, hc.pow_h]

theorem blockRoot_l (c : Config) (b : Nat) : blockRoot c c.l b = wq c b := by
  simp [blockRoot, natCast_wq]

/-- The block's twiddle is a square root of its constant. -/
theorem natCast_fwd_sq {t b : Nat} (ht : t < c.l) (hb : b < 2 ^ t) :
    (fwd c (2 ^ t + b) : ZMod c.q) ^ 2 = blockRoot c t b := by
  obtain ⟨r, hr⟩ : ∃ r, c.l = t + 1 + r := ⟨c.l - t - 1, by omega⟩
  rw [natCast_fwd, blockRoot, hr, brv_forward_index hb, ← pow_mul, show t + 1 + r - t = r + 1 by omega]
  ring

theorem blockRoot_two_mul {t b : Nat} (ht : t < c.l) (hb : b < 2 ^ t) :
    blockRoot c (t + 1) (2 * b) = fwd c (2 ^ t + b) := by
  obtain ⟨r, hr⟩ : ∃ r, c.l = t + 1 + r := ⟨c.l - t - 1, by omega⟩
  have hbrv : brv (2 * b) (t + 1) = brv b t := by simpa using brv_two_mul_add (e := 0) (by decide) b t
  rw [natCast_fwd, blockRoot, hbrv, hr, brv_forward_index hb, Nat.add_sub_cancel_left]

theorem blockRoot_two_mul_add_one (hc : c.Legal) {t b : Nat} (ht : t < c.l) (hb : b < 2 ^ t) :
    blockRoot c (t + 1) (2 * b + 1) = -fwd c (2 ^ t + b) := by
  obtain ⟨r, hr⟩ : ∃ r, c.l = t + 1 + r := ⟨c.l - t - 1, by omega⟩
  have hexp : (2 * brv (2 * b + 1) (t + 1) + 1) * 2 ^ r = (2 * brv b t + 1) * 2 ^ r + c.h := by
    rw [brv_two_mul_add (by decide), hc.h_eq, hr]
    ring
  rw [natCast_fwd, blockRoot, hr, brv_forward_index hb, Nat.add_sub_cancel_left, hexp, pow_add, hc.pow_h]
  ring

/-- After `k` forward stages block `b` holds the remainder of the polynomial by `X^D - z`, `z` the block's
constant: each stage splits every block in two by `residueCoeff_two_mul`. -/
theorem natCast_coeffAt_fwdStages (hc : c.Legal) {x : List Nat} (hx : FieldWords c x) {k b i : Nat}
    (hk : k ≤ c.l) (hb : b < 2 ^ k) (hi : i < 2 * 2 ^ (c.l - k)) :
    (coeffAt (fwdStages c k x) (b * (2 * 2 ^ (c.l - k)) + i) : ZMod c.q) =
      residueCoeff (coeffAt x) (2 * 2 ^ (c.l - k)) (2 ^ k) (blockRoot c k b) i := by
  induction k generalizing b i with
  | zero =>
    obtain rfl : b = 0 := by omega
    simp [residueCoeff, fwdStages]
  | succ k ih =>
    have hm : 2 * 2 ^ (c.l - (k + 1)) = 2 ^ (c.l - k) := by
      rw [← Nat.pow_succ']
      congr 1
      omega
    rw [hm] at hi ⊢
    obtain ⟨a, e, he, rfl⟩ : ∃ a e, e < 2 ∧ b = 2 * a + e := ⟨b / 2, b % 2, by omega, by omega⟩
    have ha : a < 2 ^ k := by rw [Nat.pow_succ] at hb; omega
    have hp : StagePair c k a (a * (2 * 2 ^ (c.l - k)) + i) (2 ^ (c.l - k)) := ⟨hk, ha, rfl, i, hi, rfl⟩
    have hy := hx.fwdStages hc (k := k) (by omega)
    obtain ⟨hj, hjm⟩ := hp.lt_n hc
    obtain ⟨hfst, hsnd⟩ := coeffAt_fwdStage hc hy.1 hp
    obtain ⟨hsum, hdiff⟩ := natCast_ct (hy.2 _ hj) (hy.2 _ hjm) (fwd_lt hc (2 ^ k + a))
    have hA := ih (b := a) (i := i) (by omega) ha (by omega)
    have hB := ih (b := a) (i := i + 2 ^ (c.l - k)) (by omega) ha (by omega)
    rw [fwdStages_succ, Nat.pow_succ', residueCoeff_two_mul]
    obtain rfl | rfl : e = 0 ∨ e = 1 := by omega
    · rw [show (2 * a + 0) * 2 ^ (c.l - k) + i = a * (2 * 2 ^ (c.l - k)) + i by ring, hfst, hsum,
        Nat.add_assoc, hA, hB, Nat.add_zero (2 * a), blockRoot_two_mul hk ha, natCast_fwd_sq hk ha]
    · rw [show (2 * a + 1) * 2 ^ (c.l - k) + i = a * (2 * 2 ^ (c.l - k)) + i + 2 ^ (c.l - k) by ring, hsnd,
        hdiff, Nat.add_assoc, hA, hB, blockRoot_two_mul_add_one hc hk ha, neg_sq, natCast_fwd_sq hk ha]
      ring

theorem forwardTransform_lt (hc : c.Legal) (p : Nat → Nat) (i : Nat) : forwardTransform c p i < c.q :=
  Nat.mod_lt _ hc.q_pos

theorem natCast_forwardTransform (c : Config) (p : Nat → Nat) (i : Nat) :
    (forwardTransform c p i : ZMod c.q) = residueCoeff p 2 c.h (wq c (i / 2) : ZMod c.q) (i % 2) := by
  simp [forwardTransform, residueCoeff, Nat.add_comm]

/-- The transform depends on the N coefficients only. -/
theorem forwardTransform_congr (hc : c.Legal) {p r : Nat → Nat} (h : ∀ i, i < c.n → p i = r i) :
    forwardTransform c p = forwardTransform c r := by
  funext i
  rw [forwardTransform, forwardTransform]
  congr 1
  refine Finset.sum_congr rfl fun u hu => ?_
  rw [Finset.mem_range] at hu
  rw [h _ (by rw [hc.n_eq_two_h]; omega)]

/-- The words `NTT` computes are the forward transform of the bank's polynomial (R88). -/
theorem coeffAt_nttWords (hc : c.Legal) {x : List Nat} (hx : FieldWords c x) {i : Nat} (hi : i < c.n) :
    coeffAt (nttWords c x) i = forwardTransform c (coeffAt x) i := by
  refine eq_of_natCast_eq ((hx.fwdStages hc le_rfl).2 i hi) (forwardTransform_lt hc _ i) ?_
  have hblock : i / 2 < 2 ^ c.l := by rw [← hc.h_eq]; rw [hc.n_eq_two_h] at hi; omega
  have hres := natCast_coeffAt_fwdStages hc hx le_rfl hblock (i := i % 2) (by rw [Nat.sub_self]; omega)
  rw [Nat.sub_self, pow_zero, Nat.mul_one, Nat.div_add_mod', blockRoot_l, ← hc.h_eq] at hres
  rw [natCast_forwardTransform, nttWords_eq_fwdStages, hres]

end Sys2Proof.Machine
end

/-! ## The pair product computes in the residues (R97, R99, R100) -/

section
namespace Sys2Proof.Machine

variable {c : Config}

theorem naiveMultiply_lt (hc : c.Legal) (p r : Nat → Nat) (k : Nat) : naiveMultiply c p r k < c.q := by
  have hq : (0 : Int) < c.q := by exact_mod_cast hc.q_pos
  rw [naiveMultiply, Int.toNat_lt (Int.emod_nonneg _ hq.ne')]
  exact Int.emod_lt_of_pos _ hq

/-- The oracle's coefficient in a ring where Q is zero. -/
theorem natCast_naiveMultiply {S : Type} [CommRing S] (hc : c.Legal) (hq : (c.q : S) = 0) (p r : Nat → Nat)
    (k : Nat) :
    (naiveMultiply c p r k : S) = ∑ i ∈ Finset.range c.n, ∑ j ∈ Finset.range c.n,
      ((if i + j = k then (p i : S) * r j else 0) - if i + j = k + c.n then (p i : S) * r j else 0) := by
  have hpos : (0 : Int) < c.q := by exact_mod_cast hc.q_pos
  have hmod (e : Int) : ((e % c.q).toNat : S) = e := by
    have hdiv := congrArg (Int.cast : Int → S) (Int.mul_ediv_add_emod e c.q)
    rw [← Int.cast_natCast, Int.toNat_of_nonneg (Int.emod_nonneg e hpos.ne')]
    simpa [hq] using hdiv
  rw [naiveMultiply, hmod]
  push_cast
  rfl

/-- One product term, wrapped with its sign, is that term where `x^n = -1`. -/
theorem sum_wrapped_term {S : Type} [CommRing S] {n e : Nat} {x : S} (hx : x ^ n = -1) (he : e < 2 * n) (a : S) :
    ∑ k ∈ Finset.range n, ((if e = k then a else 0) - if e = k + n then a else 0) * x ^ k = a * x ^ e := by
  by_cases h : e < n
  · have hterm : ∀ k ∈ Finset.range n, ((if e = k then a else 0) - if e = k + n then a else 0) * x ^ k =
        if e = k then a * x ^ k else 0 := fun k _ => by
      rw [if_neg (show ¬ e = k + n by omega), sub_zero, ite_mul, zero_mul]
    rw [Finset.sum_congr rfl hterm, Finset.sum_ite_eq, if_pos (Finset.mem_range.2 h)]
  · obtain ⟨m, rfl⟩ : ∃ m, e = m + n := ⟨e - n, by omega⟩
    have hterm : ∀ k ∈ Finset.range n, ((if m + n = k then a else 0) - if m + n = k + n then a else 0) * x ^ k =
        if m = k then a * (x ^ n * x ^ k) else 0 := fun k hk => by
      rw [Finset.mem_range] at hk
      rw [if_neg (show ¬ m + n = k by omega), hx]
      by_cases hmk : m = k
      · simp [hmk]
      · simp [hmk]
    rw [Finset.sum_congr rfl hterm, Finset.sum_ite_eq, if_pos (Finset.mem_range.2 (by omega)), pow_add]
    ring

/-- The oracle is the product of polynomials evaluated at any root of `X^N + 1` over the field (R100). -/
theorem sum_naiveMultiply_mul_pow {S : Type} [CommRing S] (hc : c.Legal) (hq : (c.q : S) = 0) {x : S}
    (hx : x ^ c.n = -1) (p r : Nat → Nat) :
    ∑ k ∈ Finset.range c.n, (naiveMultiply c p r k : S) * x ^ k =
      (∑ i ∈ Finset.range c.n, (p i : S) * x ^ i) * ∑ j ∈ Finset.range c.n, (r j : S) * x ^ j := by
  rw [Finset.sum_mul_sum]
  simp only [natCast_naiveMultiply hc hq, Finset.sum_mul]
  rw [Finset.sum_comm]
  refine Finset.sum_congr rfl fun i hi => ?_
  rw [Finset.sum_comm]
  refine Finset.sum_congr rfl fun j hj => ?_
  rw [Finset.mem_range] at hi hj
  rw [sum_wrapped_term hx (by omega)]
  ring

/-- The class of `X` in `R[X] / (X^2 - z)`. -/
def slotX {R : Type} [CommRing R] (z : R) : QuadraticAlgebra R z 0 := ⟨0, 1⟩

theorem slotX_pow_two_mul {R : Type} [CommRing R] (z : R) (u : Nat) :
    slotX z ^ (2 * u) = ⟨z ^ u, 0⟩ := by
  induction u with
  | zero =>
    rw [Nat.mul_zero, pow_zero, pow_zero]
    rfl
  | succ u ih =>
    rw [Nat.mul_succ, pow_add, ih, pow_two]
    ext <;> simp [slotX, pow_succ]

/-- In `R[X] / (X^2 - z)` a polynomial is the pair of its residue's coefficients. -/
theorem sum_mul_slotX_pow {R : Type} [CommRing R] (z : R) (p : Nat → Nat) (h : Nat) :
    ∑ i ∈ Finset.range (2 * h), (p i : QuadraticAlgebra R z 0) * slotX z ^ i =
      ⟨residueCoeff p 2 h z 0, residueCoeff p 2 h z 1⟩ := by
  induction h with
  | zero => rfl
  | succ h ih =>
    rw [Nat.mul_succ, Finset.sum_range_succ, Finset.sum_range_succ, ih, pow_succ, slotX_pow_two_mul]
    ext
    · simp [residueCoeff, Finset.sum_range_succ, slotX]
    · simp [residueCoeff, Finset.sum_range_succ, slotX, Nat.add_comm]

/-- The wrap values are roots of `z^H = -1` (R75). -/
theorem natCast_wq_pow_h (hc : c.Legal) (i : Nat) : (wq c i : ZMod c.q) ^ c.h = -1 := by
  rw [natCast_wq, ← pow_mul, Nat.mul_comm, pow_mul, hc.pow_h, pow_succ, pow_mul]
  simp

/-- The residue of the product modulo `X^2 - WQ[i]` is the slot product of the residues (R99). -/
theorem residueCoeff_naiveMultiply (hc : c.Legal) (p r : Nat → Nat) (i : Nat) :
    let z : ZMod c.q := wq c i
    residueCoeff (naiveMultiply c p r) 2 c.h z 0 =
        residueCoeff p 2 c.h z 0 * residueCoeff r 2 c.h z 0 +
          residueCoeff p 2 c.h z 1 * residueCoeff r 2 c.h z 1 * z ∧
      residueCoeff (naiveMultiply c p r) 2 c.h z 1 =
        residueCoeff p 2 c.h z 0 * residueCoeff r 2 c.h z 1 +
          residueCoeff p 2 c.h z 1 * residueCoeff r 2 c.h z 0 := by
  intro z
  have hq : (c.q : QuadraticAlgebra (ZMod c.q) z 0) = 0 := by ext <;> simp
  have hx : slotX z ^ c.n = -1 := by
    rw [hc.n_eq_two_h, slotX_pow_two_mul, natCast_wq_pow_h hc]
    ext <;> simp [QuadraticAlgebra.re_one, QuadraticAlgebra.im_one]
  have hprod := sum_naiveMultiply_mul_pow hc hq hx p r
  rw [hc.n_eq_two_h, sum_mul_slotX_pow, sum_mul_slotX_pow, sum_mul_slotX_pow, QuadraticAlgebra.mk_mul_mk,
    QuadraticAlgebra.mk.injEq] at hprod
  obtain ⟨hre, him⟩ := hprod
  exact ⟨by rw [hre]; ring, by rw [him]; ring⟩

/-- The pair product's results on field elements (R96). -/
theorem natCast_pairMul {a0 a1 b0 b1 z : Nat} (ha0 : a0 < c.q) (ha1 : a1 < c.q) (hb0 : b0 < c.q)
    (hb1 : b1 < c.q) (hz : z < c.q) :
    ((pairMul c a0 a1 b0 b1 z).1 : ZMod c.q) = a0 * b0 + a1 * b1 * z ∧
      ((pairMul c a0 a1 b0 b1 z).2 : ZMod c.q) = a0 * b1 + a1 * b0 := by
  have h00 := modMul_lt ha0 hb0
  have h11 := modMul_lt ha1 hb1
  have h11z := modMul_lt h11 hz
  have h01 := modMul_lt ha0 hb1
  have h10 := modMul_lt ha1 hb0
  exact ⟨by rw [pairMul, natCast_modAdd h00 h11z, natCast_modMul ha0 hb0, natCast_modMul h11 hz,
      natCast_modMul ha1 hb1],
    by rw [pairMul, natCast_modAdd h01 h10, natCast_modMul ha0 hb1, natCast_modMul ha1 hb0]⟩

theorem pairMul_lt {a0 a1 b0 b1 z : Nat} (ha0 : a0 < c.q) (ha1 : a1 < c.q) (hb0 : b0 < c.q)
    (hb1 : b1 < c.q) (hz : z < c.q) :
    (pairMul c a0 a1 b0 b1 z).1 < c.q ∧ (pairMul c a0 a1 b0 b1 z).2 < c.q :=
  ⟨modAdd_lt (modMul_lt ha0 hb0) (modMul_lt (modMul_lt ha1 hb1) hz),
    modAdd_lt (modMul_lt ha0 hb1) (modMul_lt ha1 hb0)⟩

/-- The words of a list of pairs, one after the other. -/
theorem coeffAt_flatMap_pairs (f : Nat → Nat × Nat) (h : Nat) {i : Nat} (hi : i < h) :
    coeffAt ((List.range h).flatMap fun i => [(f i).1, (f i).2]) (2 * i) = (f i).1 ∧
      coeffAt ((List.range h).flatMap fun i => [(f i).1, (f i).2]) (2 * i + 1) = (f i).2 := by
  induction h with
  | zero => omega
  | succ h ih =>
    have hlen : ((List.range h).flatMap fun i => [(f i).1, (f i).2]).length = 2 * h := by
      simp [Nat.mul_comm]
    rw [List.range_succ, List.flatMap_append, List.flatMap_singleton]
    by_cases hlt : i < h
    · have hlow : 2 * i + 1 < ((List.range h).flatMap fun i => [(f i).1, (f i).2]).length := by omega
      simpa only [coeffAt, List.getElem?_append_left hlow,
        List.getElem?_append_left (Nat.lt_of_succ_lt hlow)] using ih hlt
    · obtain rfl : i = h := by omega
      simp [coeffAt, hlen]

theorem coeffAt_pwmWords (c : Config) (x y : List Nat) {i : Nat} (hi : i < c.h) :
    coeffAt (pwmWords c x y) (2 * i) = (pwmSlot c x y i).1 ∧
      coeffAt (pwmWords c x y) (2 * i + 1) = (pwmSlot c x y i).2 :=
  coeffAt_flatMap_pairs (pwmSlot c x y) c.h hi

/-- The words `PWM` computes from two transforms are the transform of the product (R99). -/
theorem coeffAt_pwmWords_of_transforms (hc : c.Legal) {x y : List Nat} {p r : Nat → Nat}
    (hx : ∀ i, i < c.n → coeffAt x i = forwardTransform c p i)
    (hy : ∀ i, i < c.n → coeffAt y i = forwardTransform c r i) {k : Nat} (hk : k < c.n) :
    coeffAt (pwmWords c x y) k = forwardTransform c (naiveMultiply c p r) k := by
  have hlt := forwardTransform_lt hc
  have hn := hc.n_eq_two_h
  have hu : k / 2 < c.h := by omega
  have hslot : pwmSlot c x y (k / 2) =
      pairMul c (forwardTransform c p (2 * (k / 2))) (forwardTransform c p (2 * (k / 2) + 1))
        (forwardTransform c r (2 * (k / 2))) (forwardTransform c r (2 * (k / 2) + 1)) (wq c (k / 2)) := by
    rw [pwmSlot, hx _ (by omega), hx _ (by omega), hy _ (by omega), hy _ (by omega)]
  have hhalf : 2 * (k / 2) / 2 = k / 2 ∧ (2 * (k / 2) + 1) / 2 = k / 2 := by omega
  have hpar : 2 * (k / 2) % 2 = 0 ∧ (2 * (k / 2) + 1) % 2 = 1 := by omega
  obtain ⟨hfst, hsnd⟩ := natCast_pairMul (hlt p (2 * (k / 2))) (hlt p (2 * (k / 2) + 1))
    (hlt r (2 * (k / 2))) (hlt r (2 * (k / 2) + 1)) (wq_lt hc (k / 2))
  obtain ⟨hfst_lt, hsnd_lt⟩ := pairMul_lt (hlt p (2 * (k / 2))) (hlt p (2 * (k / 2) + 1))
    (hlt r (2 * (k / 2))) (hlt r (2 * (k / 2) + 1)) (wq_lt hc (k / 2))
  obtain ⟨hres, hres'⟩ := residueCoeff_naiveMultiply hc p r (k / 2)
  obtain ⟨heven, hodd⟩ := coeffAt_pwmWords c x y hu
  simp only [natCast_forwardTransform, hhalf, hpar] at hfst hsnd
  rcases Nat.mod_two_eq_zero_or_one k with hk2 | hk2
  · rw [show k = 2 * (k / 2) by omega, heven, hslot]
    refine eq_of_natCast_eq hfst_lt (hlt _ _) ?_
    rw [hfst, natCast_forwardTransform, hhalf.1, hpar.1, hres]
  · rw [show k = 2 * (k / 2) + 1 by omega, hodd, hslot]
    refine eq_of_natCast_eq hsnd_lt (hlt _ _) ?_
    rw [hsnd, natCast_forwardTransform, hhalf.2, hpar.2, hres']

end Sys2Proof.Machine
end

/-! ## The transforms and the pair product as commands (R86, R94, R97) -/

section
namespace Sys2Proof.Machine

/-- The words of a polynomial, coefficient 0 first. -/
def wordsOf (c : Config) (p : Nat → Nat) : List Nat := (List.range c.n).map p

theorem coeffAt_wordsOf {c : Config} (p : Nat → Nat) {i : Nat} (hi : i < c.n) : coeffAt (wordsOf c p) i = p i := by
  simp [coeffAt, wordsOf, hi]

/-- A list of N words is the words of any polynomial it agrees with. -/
theorem eq_wordsOf {c : Config} {x : List Nat} {p : Nat → Nat} (hx : x.length = c.n)
    (h : ∀ i, i < c.n → coeffAt x i = p i) : x = wordsOf c p := by
  have hlen : (wordsOf c p).length = c.n := by simp [wordsOf]
  refine eq_of_coeffAt_eq (hx.trans hlen.symm) fun i hi => ?_
  rw [hlen] at hi
  rw [h i hi, coeffAt_wordsOf p hi]

theorem State.readBank_eq_wordsOf {s : State} {b : Bank} {p : Nat → Nat} (h : s.holds b p) :
    s.readBank b = some (wordsOf s.cfg p) := State.readBank_of_holds h

theorem State.holds.fieldWords {s : State} {b : Bank} {p : Nat → Nat} (h : s.holds b p) :
    FieldWords s.cfg (wordsOf s.cfg p) :=
  ⟨by simp [wordsOf], fun i hi => by rw [coeffAt_wordsOf p hi]; exact (h i hi).2⟩

/-- A bank written whole with a polynomial's words holds the polynomial. -/
theorem State.holds_writeBank (s : State) (d : Bank) {p : Nat → Nat} (hp : ∀ i, i < s.cfg.n → p i < s.cfg.q) :
    (s.writeBank d (wordsOf s.cfg p)).holds d p := fun i hi => by
  rw [State.writeBank_cfg] at hi
  exact ⟨by simp [State.word_writeBank_same, wordsOf, hi], hp i hi⟩

/-- A bank that is read as a polynomial's words holds the polynomial. -/
theorem State.holds_of_wordsOf_eq (s : State) {d : Bank} {p r : Nat → Nat} (hp : s.holds d p)
    (h : wordsOf s.cfg p = wordsOf s.cfg r) : s.holds d r := fun i hi => by
  have hi' : p i = r i := by rw [← coeffAt_wordsOf p hi, h, coeffAt_wordsOf r hi]
  exact hi' ▸ hp i hi

theorem nttWords_wordsOf {c : Config} (hc : c.Legal) {p : Nat → Nat} (hx : FieldWords c (wordsOf c p)) :
    nttWords c (wordsOf c p) = wordsOf c (forwardTransform c p) := by
  refine eq_wordsOf (by rw [nttWords_length, hx.1]) fun i hi => ?_
  rw [coeffAt_nttWords hc hx hi, forwardTransform_congr hc fun k hk => coeffAt_wordsOf p hk]

/-- `NTT` leaves the forward transform in its bank and changes nothing else (R88); for `N = 2` it does so
without a stage. -/
theorem exec_ntt_of_holds {s : State} (hc : s.cfg.Legal) {d : Bank} {p : Nat → Nat} (hp : s.holds d p) :
    ∃ t, exec (.ntt d) s = .next t ∧ s.onlyBank t d ∧ t.holds d (forwardTransform s.cfg p) := by
  have hwords := nttWords_wordsOf hc hp.fieldWords
  by_cases hl : s.cfg.l = 0
  · refine ⟨s, by simp [exec, execNtt, hl], .refl s d, s.holds_of_wordsOf_eq hp ?_⟩
    rw [← hwords, nttWords, hl]
    rfl
  · refine ⟨s.writeBank d (wordsOf s.cfg (forwardTransform s.cfg p)), ?_, s.onlyBank_writeBank d _,
      s.holds_writeBank d fun i _ => forwardTransform_lt hc p i⟩
    simp [exec, execNtt, hl, State.mapBank, State.readBank_eq_wordsOf hp, hwords]

/-- `INTT` of a forward transform leaves the polynomial and changes nothing else (R95). -/
theorem exec_intt_of_holds {s : State} (hc : s.cfg.Legal) {d : Bank} {p : Nat → Nat}
    (hp : ∀ i, i < s.cfg.n → p i < s.cfg.q) (h : s.holds d (forwardTransform s.cfg p)) :
    ∃ t, exec (.intt d) s = .next t ∧ s.onlyBank t d ∧ t.holds d p := by
  have hfield : FieldWords s.cfg (wordsOf s.cfg p) :=
    ⟨by simp [wordsOf], fun i hi => by rw [coeffAt_wordsOf p hi]; exact hp i hi⟩
  have hwords : inttWords s.cfg (wordsOf s.cfg (forwardTransform s.cfg p)) = wordsOf s.cfg p := by
    rw [← nttWords_wordsOf hc hfield, inttWords_nttWords hc hfield]
  by_cases hl : s.cfg.l = 0
  · refine ⟨s, by simp [exec, execIntt, hl], .refl s d, s.holds_of_wordsOf_eq h ?_⟩
    rw [← hwords, inttWords, hl]
    rfl
  · refine ⟨s.writeBank d (wordsOf s.cfg p), ?_, s.onlyBank_writeBank d _, s.holds_writeBank d hp⟩
    simp [exec, execIntt, hl, State.mapBank, State.readBank_eq_wordsOf h, hwords]

/-- `PWM` of two forward transforms leaves the transform of the product and changes nothing else (R99). -/
theorem exec_pwm_of_holds {s : State} (hc : s.cfg.Legal) (d : Bank) {a b : Bank} {p r : Nat → Nat}
    (ha : s.holds a (forwardTransform s.cfg p)) (hb : s.holds b (forwardTransform s.cfg r)) :
    ∃ t, exec (.pwm d a b) s = .next t ∧ s.onlyBank t d ∧
      t.holds d (forwardTransform s.cfg (naiveMultiply s.cfg p r)) := by
  have hwords : pwmWords s.cfg (wordsOf s.cfg (forwardTransform s.cfg p))
      (wordsOf s.cfg (forwardTransform s.cfg r)) =
        wordsOf s.cfg (forwardTransform s.cfg (naiveMultiply s.cfg p r)) :=
    eq_wordsOf (by rw [pwmWords_length, hc.n_eq_two_h]) fun i hi =>
      coeffAt_pwmWords_of_transforms hc (fun k hk => coeffAt_wordsOf _ hk) (fun k hk => coeffAt_wordsOf _ hk) hi
  refine ⟨s.writeBank d (wordsOf s.cfg (forwardTransform s.cfg (naiveMultiply s.cfg p r))), ?_,
    s.onlyBank_writeBank d _, s.holds_writeBank d fun i _ => forwardTransform_lt hc _ i⟩
  simp [exec, execPwm, State.mapBanks, State.readBank_eq_wordsOf ha, State.readBank_eq_wordsOf hb, hwords]

/-- `PWM` and then `INTT` of its destination: from two forward transforms to the product (R100). -/
theorem execAll_pwm_intt {s : State} (hc : s.cfg.Legal) (d : Bank) {a b : Bank} {p r : Nat → Nat}
    (ha : s.holds a (forwardTransform s.cfg p)) (hb : s.holds b (forwardTransform s.cfg r)) :
    ∃ t, execAll [.pwm d a b, .intt d] s = .next t ∧ s.onlyBank t d ∧ t.holds d (naiveMultiply s.cfg p r) := by
  obtain ⟨u, hpwm, hframe, hprod⟩ := exec_pwm_of_holds hc d ha hb
  rw [← hframe.cfg_eq] at hc hprod
  obtain ⟨t, hintt, hframe', hres⟩ := exec_intt_of_holds hc (fun i _ => naiveMultiply_lt hc p r i) hprod
  rw [hframe.cfg_eq] at hres
  exact ⟨t, by rw [execAll_cons_of_next hpwm, execAll_cons_of_next hintt, execAll_nil],
    hframe.trans hframe', hres⟩

end Sys2Proof.Machine

open Sys2Proof Sys2Proof.Machine

/-- Settles O49: the transform of the source, then the pair product and its inverse transform. -/
theorem psqrIsTheNegacyclicSquare : Obligations.PsqrIsTheNegacyclicSquare := by
  intro s d a p hc hp
  obtain ⟨u, hntt, hframe, htrans⟩ := exec_ntt_of_holds hc hp
  rw [← hframe.cfg_eq] at hc htrans
  obtain ⟨t, hrun, hframe', hres⟩ := execAll_pwm_intt hc d htrans htrans
  rw [hframe.cfg_eq] at hres
  exact ⟨t, u, rfl, (execAll_cons_of_next hntt _).trans hrun, hres, hntt,
    fun hda i => hframe'.word_of_ne (Ne.symm hda) i⟩

/-- Settles O48: the transforms of the two sources, then the pair product and its inverse transform; each
command changes one bank only. -/
theorem pmulIsTheNegacyclicProduct : Obligations.PmulIsTheNegacyclicProduct := by
  intro s d a b p r hc hab hp hr
  refine ⟨rfl, by simp [Pseudo.assemble, Pseudo.wellFormed], ?_⟩
  obtain ⟨u, hntt_a, hframe_a, htrans_a⟩ := exec_ntt_of_holds hc hp
  have hr' := hframe_a.holds_of_ne (Ne.symm hab) hr
  rw [← hframe_a.cfg_eq] at hc htrans_a
  obtain ⟨v, hntt_b, hframe_b, htrans_b⟩ := exec_ntt_of_holds hc hr'
  have htrans_a' := hframe_b.holds_of_ne hab htrans_a
  rw [← hframe_b.cfg_eq] at hc htrans_a' htrans_b
  obtain ⟨t, hrun, hframe, hres⟩ := execAll_pwm_intt hc d htrans_a' htrans_b
  have hcfg : v.cfg = s.cfg := hframe_b.cfg_eq.trans hframe_a.cfg_eq
  rw [hcfg] at hres htrans_a' htrans_b
  refine ⟨t, ?_, hres, fun hda => hframe.holds_of_ne (Ne.symm hda) htrans_a',
    fun hdb => hframe.holds_of_ne (Ne.symm hdb) htrans_b, ?_, fun e hd ha hb i => ?_⟩
  · exact ((execAll_cons_of_next hntt_a _).trans (execAll_cons_of_next hntt_b _)).trans hrun
  · rw [hframe.1, hframe_b.1, hframe_a.1]
  · rw [hframe.word_of_ne hd, hframe_b.word_of_ne hb, hframe_a.word_of_ne ha]

end

/-! ## The unit functions are the ring operations of the integers modulo Q (R58 to R61, R64) -/

section
namespace Sys2Proof

variable {c : Config}

theorem Config.Legal.half_lt (h : c.Legal) : c.half < c.q := by
  have := h.modulus
  simp only [Config.half]
  omega

/-- `HALF` is the inverse of 2 modulo Q (R8). -/
theorem Config.Legal.two_mul_natCast_half (h : c.Legal) : 2 * (c.half : ZMod c.q) = 1 := by
  have hq : 2 * c.half = c.q + 1 := by
    have := h.modulus.1
    simp only [Config.half]
    omega
  simpa using congrArg (Nat.cast : Nat → ZMod c.q) hq

theorem Config.Legal.natCast_q_sub_one (h : c.Legal) : ((c.q - 1 : Nat) : ZMod c.q) = -1 := by
  simp [Nat.cast_sub (show 1 ≤ c.q from h.q_pos)]

end Sys2Proof

namespace Sys2Proof.Machine

variable {c : Config} {x y z : Nat}

/-! ### Addition, subtraction and multiplication: any modulus -/

theorem modAdd_zero (hx : x < c.q) : modAdd c x 0 = x := by
  rw [modAdd_of_lt hx (by omega), Nat.add_zero, Nat.mod_eq_of_lt hx]

theorem modAdd_comm (hx : x < c.q) (hy : y < c.q) : modAdd c x y = modAdd c y x := by
  rw [modAdd_of_lt hx hy, modAdd_of_lt hy hx, Nat.add_comm]

theorem modAdd_assoc (hx : x < c.q) (hy : y < c.q) (hz : z < c.q) :
    modAdd c (modAdd c x y) z = modAdd c x (modAdd c y z) := by
  have hxy := modAdd_lt hx hy
  have hyz := modAdd_lt hy hz
  refine eq_of_natCast_eq (modAdd_lt hxy hz) (modAdd_lt hx hyz) ?_
  rw [natCast_modAdd hxy hz, natCast_modAdd hx hy, natCast_modAdd hx hyz, natCast_modAdd hy hz, add_assoc]

/-- Subtraction adds the negative. -/
theorem modSub_eq_modAdd_neg (hx : x < c.q) (hy : y < c.q) : modSub c x y = modAdd c x (modSub c 0 y) := by
  have h0 : 0 < c.q := by omega
  have hneg := modSub_lt h0 hy
  refine eq_of_natCast_eq (modSub_lt hx hy) (modAdd_lt hx hneg) ?_
  rw [natCast_modSub hx hy, natCast_modAdd hx hneg, natCast_modSub h0 hy, Nat.cast_zero, zero_sub, sub_eq_add_neg]

theorem modSub_self (hx : x < c.q) : modSub c x x = 0 := by
  rw [modSub_of_lt hx hx, Nat.add_sub_of_le hx.le, Nat.mod_self]

theorem modSub_zero_left_of_pos (hy : y < c.q) (hpos : 0 < y) : modSub c 0 y = c.q - y := by
  rw [modSub_of_lt (by omega) hy, Nat.zero_add, Nat.mod_eq_of_lt (by omega)]

theorem modSub_modAdd_cancel (hx : x < c.q) (hy : y < c.q) : modSub c (modAdd c x y) y = x := by
  have hxy := modAdd_lt hx hy
  refine eq_of_natCast_eq (modSub_lt hxy hy) hx ?_
  rw [natCast_modSub hxy hy, natCast_modAdd hx hy, add_sub_cancel_right]

theorem modAdd_modSub_cancel (hx : x < c.q) (hy : y < c.q) : modAdd c (modSub c x y) y = x := by
  have hxy := modSub_lt hx hy
  refine eq_of_natCast_eq (modAdd_lt hxy hy) hx ?_
  rw [natCast_modAdd hxy hy, natCast_modSub hx hy, sub_add_cancel]

theorem modMul_one (h1 : 1 < c.q) (hx : x < c.q) : modMul c x 1 = x := by
  rw [modMul_of_lt hx h1, Nat.mul_one, Nat.mod_eq_of_lt hx]

theorem modMul_zero (hx : x < c.q) : modMul c x 0 = 0 := by
  rw [modMul_of_lt hx (by omega), Nat.mul_zero, Nat.zero_mod]

theorem modMul_comm (hx : x < c.q) (hy : y < c.q) : modMul c x y = modMul c y x := by
  rw [modMul_of_lt hx hy, modMul_of_lt hy hx, Nat.mul_comm]

theorem modMul_assoc (hx : x < c.q) (hy : y < c.q) (hz : z < c.q) :
    modMul c (modMul c x y) z = modMul c x (modMul c y z) := by
  have hxy := modMul_lt hx hy
  have hyz := modMul_lt hy hz
  refine eq_of_natCast_eq (modMul_lt hxy hz) (modMul_lt hx hyz) ?_
  rw [natCast_modMul hxy hz, natCast_modMul hx hy, natCast_modMul hx hyz, natCast_modMul hy hz, mul_assoc]

theorem modMul_modAdd (hx : x < c.q) (hy : y < c.q) (hz : z < c.q) :
    modMul c x (modAdd c y z) = modAdd c (modMul c x y) (modMul c x z) := by
  have hyz := modAdd_lt hy hz
  have hxy := modMul_lt hx hy
  have hxz := modMul_lt hx hz
  refine eq_of_natCast_eq (modMul_lt hx hyz) (modAdd_lt hxy hxz) ?_
  rw [natCast_modMul hx hyz, natCast_modAdd hy hz, natCast_modAdd hxy hxz, natCast_modMul hx hy,
    natCast_modMul hx hz, mul_add]

theorem modMul_modSub (hx : x < c.q) (hy : y < c.q) (hz : z < c.q) :
    modMul c x (modSub c y z) = modSub c (modMul c x y) (modMul c x z) := by
  have hyz := modSub_lt hy hz
  have hxy := modMul_lt hx hy
  have hxz := modMul_lt hx hz
  refine eq_of_natCast_eq (modMul_lt hx hyz) (modSub_lt hxy hxz) ?_
  rw [natCast_modMul hx hyz, natCast_modSub hy hz, natCast_modSub hxy hxz, natCast_modMul hx hy,
    natCast_modMul hx hz, mul_sub]

/-! ### `Q - 1` is minus one -/

theorem q_sub_one_lt (hc : c.Legal) : c.q - 1 < c.q := Nat.sub_lt hc.q_pos Nat.one_pos

theorem modMul_q_sub_one (hc : c.Legal) (hx : x < c.q) : modMul c x (c.q - 1) = modSub c 0 x := by
  have hm := q_sub_one_lt hc
  refine eq_of_natCast_eq (modMul_lt hx hm) (modSub_lt hc.q_pos hx) ?_
  rw [natCast_modMul hx hm, hc.natCast_q_sub_one, natCast_modSub hc.q_pos hx, Nat.cast_zero, zero_sub, mul_neg_one]

theorem modMul_q_sub_one_self (hc : c.Legal) : modMul c (c.q - 1) (c.q - 1) = 1 := by
  have hq := hc.modulus.2.1
  rw [modMul_q_sub_one hc (q_sub_one_lt hc), modSub_zero_left_of_pos (q_sub_one_lt hc) (by omega)]
  omega

theorem modAdd_q_sub_one_self (hc : c.Legal) : modAdd c (c.q - 1) (c.q - 1) = c.q - 2 := by
  have hq := hc.modulus.2.1
  have hm := q_sub_one_lt hc
  rw [modAdd_of_lt hm hm, show c.q - 1 + (c.q - 1) = c.q - 2 + c.q by omega, Nat.add_mod_right,
    Nat.mod_eq_of_lt (by omega)]

/-! ### Halving: the modulus is odd, so the half is the one field element whose double is the operand -/

theorem modHlv_lt (hc : c.Legal) (hx : x < c.q) : modHlv c x < c.q := (modHlv_of_lt hc.modulus.1 hx).1

theorem modHlv_eq_of_two_mul_eq (hc : c.Legal) (hx : x < c.q) (hy : y < c.q)
    (h : 2 * (y : ZMod c.q) = x) : modHlv c x = y :=
  eq_of_natCast_eq (modHlv_lt hc hx) hy (hc.eq_of_two_mul_eq ((two_mul_natCast_modHlv hc hx).trans h.symm))

theorem modAdd_modHlv_self (hc : c.Legal) (hx : x < c.q) : modAdd c (modHlv c x) (modHlv c x) = x := by
  obtain ⟨hlt, hdouble⟩ := modHlv_of_lt hc.modulus.1 hx
  rw [modAdd_of_lt hlt hlt, hdouble]

theorem modHlv_modAdd_self (hc : c.Legal) (hx : x < c.q) : modHlv c (modAdd c x x) = x :=
  modHlv_eq_of_two_mul_eq hc (modAdd_lt hx hx) hx (by rw [natCast_modAdd hx hx, two_mul])

/-- Halving is multiplication by `HALF` (R60). -/
theorem modHlv_eq_modMul_half (hc : c.Legal) (hx : x < c.q) : modHlv c x = modMul c x c.half :=
  modHlv_eq_of_two_mul_eq hc hx (modMul_lt hx hc.half_lt) (by
    rw [natCast_modMul hx hc.half_lt, mul_left_comm, hc.two_mul_natCast_half, mul_one])

theorem modHlv_modAdd (hc : c.Legal) (hx : x < c.q) (hy : y < c.q) :
    modHlv c (modAdd c x y) = modAdd c (modHlv c x) (modHlv c y) := by
  have hx' := modHlv_lt hc hx
  have hy' := modHlv_lt hc hy
  refine modHlv_eq_of_two_mul_eq hc (modAdd_lt hx hy) (modAdd_lt hx' hy') ?_
  rw [natCast_modAdd hx' hy', mul_add, two_mul_natCast_modHlv hc hx, two_mul_natCast_modHlv hc hy,
    natCast_modAdd hx hy]

theorem modHlv_modMul (hc : c.Legal) (hx : x < c.q) (hy : y < c.q) :
    modHlv c (modMul c x y) = modMul c (modHlv c x) y := by
  have hx' := modHlv_lt hc hx
  refine modHlv_eq_of_two_mul_eq hc (modMul_lt hx hy) (modMul_lt hx' hy) ?_
  rw [natCast_modMul hx' hy, ← mul_assoc, two_mul_natCast_modHlv hc hx, natCast_modMul hx hy]

theorem modHlv_zero (hc : c.Legal) : modHlv c 0 = 0 :=
  modHlv_eq_of_two_mul_eq hc hc.q_pos hc.q_pos (by rw [Nat.cast_zero, mul_zero])

/-- `Q - 1` is even, and its half is the half of the integer. -/
theorem modHlv_q_sub_one (hc : c.Legal) : modHlv c (c.q - 1) = (c.q - 1) / 2 := by
  have hodd := hc.modulus.1
  have heven : 2 * ((c.q - 1) / 2) = c.q - 1 := by omega
  exact modHlv_eq_of_two_mul_eq hc (q_sub_one_lt hc) (by omega) (by exact_mod_cast congrArg Nat.cast heven)

/-! ### The results as integers -/

theorem modAdd_modEq (hx : x < c.q) (hy : y < c.q) : (modAdd c x y : Int) ≡ (x : Int) + y [ZMOD c.q] :=
  (ZMod.intCast_eq_intCast_iff _ _ _).1 (by push_cast; exact natCast_modAdd hx hy)

theorem modSub_modEq (hx : x < c.q) (hy : y < c.q) : (modSub c x y : Int) ≡ (x : Int) - y [ZMOD c.q] :=
  (ZMod.intCast_eq_intCast_iff _ _ _).1 (by push_cast; exact natCast_modSub hx hy)

theorem modMul_modEq (hx : x < c.q) (hy : y < c.q) : (modMul c x y : Int) ≡ (x : Int) * y [ZMOD c.q] :=
  (ZMod.intCast_eq_intCast_iff _ _ _).1 (by push_cast; exact natCast_modMul hx hy)

end Sys2Proof.Machine

open Sys2Proof Sys2Proof.Machine

/-- Settles O22: the bounds and congruences of the units, and halving as the inverse of doubling. -/
theorem unitFunctionsComputeModuloQ : Obligations.UnitFunctionsComputeModuloQ := by
  intro c a b hc ha hb
  exact ⟨⟨modAdd_lt ha hb, modAdd_modEq ha hb⟩, ⟨modSub_lt ha hb, modSub_modEq ha hb⟩,
    ⟨modHlv_lt hc ha, modAdd_modHlv_self hc ha, modHlv_modAdd_self hc ha, modHlv_eq_modMul_half hc ha⟩,
    modMul_lt ha hb, modMul_modEq ha hb⟩

/-- Settles O23: R64's table row by row, each law carried over from `ZMod Q` by the units' casts. -/
theorem unitFunctionsObeyTheRingLaws : Obligations.UnitFunctionsObeyTheRingLaws := by
  intro c x y z hc hx hy hz
  have h1 : 1 < c.q := by
    have := hc.modulus
    omega
  exact ⟨⟨modAdd_zero hx, modAdd_comm hx hy, modAdd_assoc hx hy hz⟩,
    ⟨modSub_eq_modAdd_neg hx hy, modSub_self hx, modSub_zero_left_of_pos hy⟩,
    ⟨modSub_modAdd_cancel hx hy, modAdd_modSub_cancel hx hy⟩,
    ⟨modMul_one h1 hx, modMul_zero hx, modMul_comm hx hy, modMul_assoc hx hy hz⟩,
    ⟨modMul_modAdd hx hy hz, modMul_modSub hx hy hz⟩,
    ⟨modMul_q_sub_one hc hx, modMul_q_sub_one_self hc⟩,
    ⟨modAdd_modHlv_self hc hx, modHlv_modAdd_self hc hx, modHlv_modAdd hc hx hy, modHlv_modMul hc hx hy⟩,
    modHlv_zero hc, modAdd_q_sub_one_self hc, modHlv_q_sub_one hc⟩

end

/-! ## Bit reversal on its whole domain (R70) -/

section
namespace Sys2Proof.Machine

/-- One pass of the loop of R70: the next bit of the operand enters from below. -/
theorem brv_succ_eq_bit (x len : Nat) : brv x (len + 1) = Nat.bit (x.testBit len) (brv x len) := by
  rw [brv, Nat.bit_val, Nat.toNat_testBit]

theorem brv_lt (x len : Nat) : brv x len < 2 ^ len := by
  induction len with
  | zero => exact Nat.one_pos
  | succ len ih =>
    rw [brv, Nat.pow_succ']
    omega

theorem testBit_brv (x len j : Nat) :
    (brv x len).testBit j = (decide (j < len) && x.testBit (len - 1 - j)) := by
  induction len generalizing j with
  | zero => simp [brv]
  | succ len ih =>
    rw [brv_succ_eq_bit]
    cases j with
    | zero => simp
    | succ j =>
      rw [Nat.testBit_bit_succ, ih, show len + 1 - 1 - (j + 1) = len - 1 - j by omega]
      simp

theorem testBit_brv_reflect {len i : Nat} (hi : i < len) (x : Nat) :
    (brv x len).testBit (len - 1 - i) = x.testBit i := by
  have hlt : len - 1 - i < len := by omega
  have hback : len - 1 - (len - 1 - i) = i := by omega
  rw [testBit_brv, hback, decide_eq_true hlt, Bool.true_and]

/-- Reflecting a bit position twice gives it back, and from `len` upwards both sides are zero. -/
theorem brv_brv {x len : Nat} (hx : x < 2 ^ len) : brv (brv x len) len = x := by
  refine Nat.eq_of_testBit_eq fun i => ?_
  rw [testBit_brv]
  by_cases hi : i < len
  · rw [testBit_brv_reflect hi, decide_eq_true hi, Bool.true_and]
  · have hbit : x.testBit i = false :=
      Nat.testBit_lt_two_pow (hx.trans_le (Nat.pow_le_pow_right (by decide) (by omega)))
    simp [hi, hbit]

end Sys2Proof.Machine

open Sys2Proof Sys2Proof.Machine

/-- Settles O29: the bit positions of `brv`, and from them the involution. -/
theorem bitReversalIsAnInvolution : Obligations.BitReversalIsAnInvolution := by
  intro len x hx
  exact ⟨rfl, brv_lt x len, fun i hi => testBit_brv_reflect hi x, brv_brv hx⟩

end

/-! ## The elaboration-time arithmetic: exponentiation, primality, inversion (R79, R80) -/

section
namespace Sys2Proof.Machine

theorem modPowLoop_lt {q r : Nat} (hr : r < q) (fuel x e : Nat) : modPowLoop q fuel r x e < q := by
  induction fuel generalizing r x e with
  | zero => exact hr
  | succ fuel ih =>
    rw [modPowLoop]
    split
    · exact hr
    · split
      · exact ih (Nat.mod_lt _ (by omega)) _ _
      · exact ih hr _ _

theorem modPow_lt {q : Nat} (hq : 2 ≤ q) (base e : Nat) : modPow q base e < q := modPowLoop_lt hq _ _ _

/-- The value of R79: `natCast_modPow` gives it modulo `q`, and the result is reduced. -/
theorem modPow_eq_pow_mod {q : Nat} (hq : 2 ≤ q) (base e : Nat) : modPow q base e = base ^ e % q := by
  refine eq_of_natCast_eq (modPow_lt hq base e) (Nat.mod_lt _ (by omega)) ?_
  rw [natCast_modPow, ZMod.natCast_mod, Nat.cast_pow]

theorem isPrime16_iff_forall {q : Nat} :
    isPrime16 q = true ↔ 2 ≤ q ∧ ∀ d < 256, 2 ≤ d → d * d ≤ q → ¬ d ∣ q := by
  simp only [isPrime16, Bool.and_eq_true, Bool.or_eq_true, decide_eq_true_eq, List.all_eq_true, List.mem_range,
    Nat.dvd_iff_mod_eq_zero]
  refine and_congr_right fun _ => forall₂_congr fun d _ => ?_
  omega

/-- Trial division below 256 decides primality below `2^16` (R6, R80): a composite `q` has a factor, its smallest,
whose square is at most `q`. -/
theorem isPrime16_iff_prime {q : Nat} (hq : q < 65536) : isPrime16 q = true ↔ q.Prime := by
  rw [isPrime16_iff_forall]
  constructor
  · rintro ⟨h2, hnone⟩
    by_contra hcomp
    have hsq : q.minFac * q.minFac ≤ q := by
      simpa [pow_two] using Nat.minFac_sq_le_self (by omega) hcomp
    have hfac : 2 ≤ q.minFac := (Nat.minFac_prime (by omega)).two_le
    have hsmall : q.minFac < 256 := by
      by_contra hge
      have := Nat.mul_le_mul (not_lt.1 hge) (not_lt.1 hge)
      omega
    exact hnone _ hsmall hfac hsq q.minFac_dvd
  · intro hp
    refine ⟨hp.two_le, fun d _ hd hsq hdvd => ?_⟩
    obtain rfl | rfl := (Nat.dvd_prime hp).1 hdvd
    · omega
    · have := Nat.mul_le_mul_right d hd
      omega

theorem modInverse_of_prime {q a : Nat} (hq : q < 65536) (hp : q.Prime) (ha : a % q ≠ 0) :
    modInverse q a = .ok (modPow q a (q - 2)) := by
  rw [modInverse, if_neg]
  simp [ha, (isPrime16_iff_prime hq).2 hp]

theorem modInverse_of_noInverse {q a : Nat} (hq : q < 65536) (h : a % q = 0 ∨ ¬ q.Prime) :
    modInverse q a = .error .noInverse := by
  rw [modInverse, if_pos]
  rwa [← isPrime16_iff_prime hq, Bool.not_eq_true] at h

/-- Fermat's theorem: `a * a^(q-2) = a^(q-1) = 1` for a prime `q` that does not divide `a`. -/
theorem natCast_mul_modPow_sub_two {q a : Nat} (hp : q.Prime) (ha : a % q ≠ 0) :
    (a : ZMod q) * modPow q a (q - 2) = 1 := by
  have := Fact.mk hp
  have hq := hp.two_le
  have hne : (a : ZMod q) ≠ 0 := by
    rwa [Ne, ZMod.natCast_eq_zero_iff, Nat.dvd_iff_mod_eq_zero]
  rw [natCast_modPow, ← pow_succ', show q - 2 + 1 = q - 1 by omega, ZMod.pow_card_sub_one_eq_one hne]

/-- A congruence to 1 in `ZMod q`, read as a remainder. -/
theorem mul_mod_eq_one_of_natCast {q a b : Nat} (hq : 2 ≤ q) (h : (a : ZMod q) * b = 1) : a * b % q = 1 := by
  refine eq_of_natCast_eq (Nat.mod_lt _ (by omega)) hq ?_
  rw [ZMod.natCast_mod, Nat.cast_mul, h, Nat.cast_one]

end Sys2Proof.Machine

open Sys2Proof Sys2Proof.Machine

/-- Settles O33: the square-and-multiply loop has the right residue, and it never leaves `[0, q)`. -/
theorem modPowIsExponentiation : Obligations.ModPowIsExponentiation := by
  intro q base e hq
  refine ⟨modPow_eq_pow_mod hq base e, ?_⟩
  rw [modPow_eq_pow_mod hq, pow_zero, Nat.mod_eq_of_lt hq]

/-- Settles O34: trial division decides primality, and Fermat's theorem gives the inverse. -/
theorem modInverseInverts : Obligations.ModInverseInverts := by
  intro q a h2 hq
  refine ⟨fun hp ha => ⟨_, modInverse_of_prime hq hp ha, rfl, modPow_lt h2 _ _, ?_⟩, modInverse_of_noInverse hq⟩
  exact mul_mod_eq_one_of_natCast h2 (natCast_mul_modPow_sub_two hp ha)

end

/-! ## The flat tables and the paired twiddles (R71, R72, R77) -/

section
namespace Sys2Proof

variable {c : Config}

/-- The modulus of a legal configuration is prime (R6). -/
theorem Config.Legal.prime (h : c.Legal) : c.q.Prime := by
  have hprime : Machine.isPrime16 c.q = true := by
    unfold Config.Legal Machine.elabCheck at h
    split_ifs at h with _ _ hnone
    simpa using (not_or.1 hnone).2
  exact (Machine.isPrime16_iff_prime h.modulus.2.2).1 hprime

theorem Config.Legal.two_le_q (h : c.Legal) : 2 ≤ c.q := h.prime.two_le

theorem Config.Legal.pow_n (h : c.Legal) : (c.w : ZMod c.q) ^ c.n = 1 := by
  rw [h.n_eq_two_h, two_mul, pow_add, h.pow_h]
  ring

theorem Config.Legal.winv_pow_h (h : c.Legal) : (c.winv : ZMod c.q) ^ c.h = -1 := by
  have hone : (c.w : ZMod c.q) ^ c.h * (c.winv : ZMod c.q) ^ c.h = 1 := by
    rw [← mul_pow, h.w_mul_winv, one_pow]
  rw [h.pow_h] at hone
  linear_combination -hone

/-- A power of `WINV` is a power of `W` read backwards, since `W^N = 1` (R72). -/
theorem Config.Legal.winv_pow (h : c.Legal) {i : Nat} (hi : i ≤ c.n) :
    (c.winv : ZMod c.q) ^ i = (c.w : ZMod c.q) ^ ((c.n - i) % c.n) := by
  rw [← pow_eq_pow_mod _ h.pow_n]
  calc (c.winv : ZMod c.q) ^ i = (c.w : ZMod c.q) ^ (c.n - i + i) * (c.winv : ZMod c.q) ^ i := by
        rw [Nat.sub_add_cancel hi, h.pow_n, one_mul]
    _ = (c.w : ZMod c.q) ^ (c.n - i) * ((c.w : ZMod c.q) * c.winv) ^ i := by
        rw [pow_add, mul_pow, mul_assoc]
    _ = (c.w : ZMod c.q) ^ (c.n - i) := by rw [h.w_mul_winv, one_pow, mul_one]

end Sys2Proof

namespace Sys2Proof.Machine

variable {c : Config}

theorem wn_lt (hc : c.Legal) (i : Nat) : wn c i < c.q := Nat.mod_lt _ hc.q_pos

theorem wnInv_lt (hc : c.Legal) (i : Nat) : wnInv c i < c.q := Nat.mod_lt _ hc.q_pos

theorem natCast_wn (c : Config) (i : Nat) : (wn c i : ZMod c.q) = (c.w : ZMod c.q) ^ i := by
  rw [wn, ZMod.natCast_mod, Nat.cast_pow]

theorem natCast_wnInv (c : Config) (i : Nat) : (wnInv c i : ZMod c.q) = (c.winv : ZMod c.q) ^ i := by
  rw [wnInv, ZMod.natCast_mod, Nat.cast_pow]

theorem wn_zero (hc : c.Legal) : wn c 0 = 1 := by
  rw [wn, pow_zero, Nat.mod_eq_of_lt hc.two_le_q]

theorem wn_one (hc : c.Legal) : wn c 1 = c.w := by
  rw [wn, pow_one, Nat.mod_eq_of_lt hc.root.2]

/-- `W` is invertible, so no entry of the table is zero. -/
theorem wn_pos (hc : c.Legal) (i : Nat) : 0 < wn c i := by
  have := Fact.mk hc.prime
  have hw : (c.w : ZMod c.q) ≠ 0 := left_ne_zero_of_mul_eq_one hc.w_mul_winv
  refine Nat.pos_of_ne_zero fun hzero => pow_ne_zero i hw ?_
  rw [← natCast_wn, hzero, Nat.cast_zero]

theorem wn_h (hc : c.Legal) : wn c c.h = c.q - 1 :=
  eq_of_natCast_eq (wn_lt hc _) (q_sub_one_lt hc) (by rw [natCast_wn, hc.pow_h, hc.natCast_q_sub_one])

theorem wnInv_h (hc : c.Legal) : wnInv c c.h = c.q - 1 :=
  eq_of_natCast_eq (wnInv_lt hc _) (q_sub_one_lt hc) (by rw [natCast_wnInv, hc.winv_pow_h, hc.natCast_q_sub_one])

/-- Half the table further, the sign has wrapped (R71). -/
theorem wn_add_h (hc : c.Legal) (i : Nat) : wn c (i + c.h) = c.q - wn c i := by
  have hpos := wn_pos hc i
  have hlt := wn_lt hc i
  refine eq_of_natCast_eq (wn_lt hc _) (by omega) ?_
  rw [Nat.cast_sub hlt.le, ZMod.natCast_self, natCast_wn, natCast_wn, pow_add, hc.pow_h]
  ring

theorem wnInv_eq_wn (hc : c.Legal) {i : Nat} (hi : i ≤ c.n) : wnInv c i = wn c ((c.n - i) % c.n) :=
  eq_of_natCast_eq (wnInv_lt hc _) (wn_lt hc _) (by rw [natCast_wnInv, natCast_wn, hc.winv_pow hi])

/-- Both the result of `modInverse` and `WINV` invert `W` modulo Q, and an inverse is unique. -/
theorem modInverse_w (hc : c.Legal) : modInverse c.q c.w = .ok c.winv := by
  have hw : c.w % c.q ≠ 0 := by
    rw [Nat.mod_eq_of_lt hc.root.2]
    exact hc.root.1.ne'
  have hinv := natCast_mul_modPow_sub_two hc.prime hw
  rw [modInverse_of_prime hc.modulus.2.2 hc.prime hw]
  refine congrArg _ (eq_of_natCast_eq (modPow_lt hc.two_le_q _ _) (Nat.mod_lt _ hc.q_pos) ?_)
  exact left_inv_eq_right_inv ((mul_comm _ _).trans hinv) hc.w_mul_winv

end Sys2Proof.Machine

open Sys2Proof Sys2Proof.Machine

/-- Settles O30: the values are R71's and R72's definitions; the wrap of sign is `W^H = -1`, and `wn_inv` runs
backwards because `W^N = 1`. -/
theorem flatTablesAreNegacyclic : Obligations.FlatTablesAreNegacyclic := by
  intro c hc
  exact ⟨fun i _ => ⟨rfl, rfl⟩, wn_zero hc, wn_one hc, wn_h hc, wnInv_h hc, fun i _ => wn_add_h hc i,
    fun i hi => wnInv_eq_wn hc hi.le, mul_mod_eq_one_of_natCast hc.two_le_q hc.w_mul_winv, rfl, modInverse_w hc⟩

/-- Settles O32: the two indices name neighbouring exponents, and `W * WINV = 1`. -/
theorem forwardAndInverseTwiddlesAreInverses : Obligations.ForwardAndInverseTwiddlesAreInverses := by
  intro c t b hc ht hb
  obtain ⟨r, hr⟩ : ∃ r, c.l = t + 1 + r := ⟨c.l - t - 1, by omega⟩
  refine ⟨?_, by rw [hc.h_eq, hr, brv_inverse_index_add_one hb]⟩
  have hf := fwd_lt hc (2 ^ t + b)
  have hi := inv_lt hc (c.h - 2 ^ (t + 1) + b)
  refine eq_of_natCast_eq (modMul_lt hf hi) hc.two_le_q ?_
  rw [natCast_modMul hf hi, fwd_mul_inv hc ht hb, Nat.cast_one]

end

/-! ## The forward transform is linear (R89) -/

section
namespace Sys2Proof.Machine

theorem execAll_append_of_next {is : List Instr} {s t : State} (h : execAll is s = .next t) (js : List Instr) :
    execAll (is ++ js) s = execAll js t := by
  induction is generalizing s with
  | nil =>
    cases h
    rfl
  | cons i is ih =>
    rw [execAll] at h
    split at h
    case h_1 u hi =>
      rw [List.cons_append, execAll_cons_of_next hi]
      exact ih h
    case h_2 => cases h
    case h_3 => cases h

/-- `MADD` leaves the word-wise sum in its destination and changes nothing else (R66). -/
theorem exec_madd_of_holds {s : State} (d : Bank) {a b : Bank} {p r : Nat → Nat} (ha : s.holds a p)
    (hb : s.holds b r) :
    ∃ t, exec (.madd d a b) s = .next t ∧ s.onlyBank t d ∧ t.holds d fun i => modAdd s.cfg (p i) (r i) := by
  have hwords : List.zipWith (modAdd s.cfg) (wordsOf s.cfg p) (wordsOf s.cfg r) =
      wordsOf s.cfg fun i => modAdd s.cfg (p i) (r i) := by
    simp [wordsOf, List.zipWith_map, List.zipWith_self]
  refine ⟨s.writeBank d (wordsOf s.cfg fun i => modAdd s.cfg (p i) (r i)), ?_, s.onlyBank_writeBank d _,
    s.holds_writeBank d fun i hi => modAdd_lt (ha i hi).2 (hb i hi).2⟩
  simp [exec, execMadd, State.mapBanks, State.readBank_eq_wordsOf ha, State.readBank_eq_wordsOf hb, hwords]

/-- A bank holds a polynomial by its N coefficients only, so the polynomial is read from it uniquely there. -/
theorem State.holds.eq_of_lt {s : State} {b : Bank} {p r : Nat → Nat} (hp : s.holds b p) (hr : s.holds b r)
    {i : Nat} (hi : i < s.cfg.n) : p i = r i :=
  Option.some.inj ((hp i hi).1.symm.trans (hr i hi).1)

/-- `NTT` of several banks, each once: every one of them is transformed and the others keep their polynomials. -/
theorem execAll_ntt_of_holds {ds : List Bank} (hds : ds.Nodup) {s : State} (hc : s.cfg.Legal)
    (hs : ∀ d ∈ ds, ∃ p, s.holds d p) :
    ∃ t, execAll (ds.map .ntt) s = .next t ∧ t.cfg = s.cfg ∧
      (∀ d ∈ ds, ∀ p, s.holds d p → t.holds d (forwardTransform s.cfg p)) ∧
      ∀ b ∉ ds, ∀ p, s.holds b p → t.holds b p := by
  induction ds generalizing s with
  | nil => exact ⟨s, rfl, rfl, by simp, fun _ _ _ hp => hp⟩
  | cons d ds ih =>
    obtain ⟨hd, hds⟩ := List.nodup_cons.1 hds
    obtain ⟨p, hp⟩ := hs d List.mem_cons_self
    obtain ⟨u, hntt, hframe, htrans⟩ := exec_ntt_of_holds hc hp
    have hne : ∀ e ∈ ds, e ≠ d := fun e he h => hd (h ▸ he)
    obtain ⟨t, hrun, hcfg, hin, hout⟩ := ih hds (hframe.cfg_eq ▸ hc) fun e he =>
      (hs e (List.mem_cons_of_mem d he)).imp fun _ => hframe.holds_of_ne (hne e he)
    rw [hframe.cfg_eq] at hcfg hin
    refine ⟨t, (execAll_cons_of_next hntt _).trans hrun, hcfg, fun e he r hr => ?_, fun b hb r hr => ?_⟩
    · rcases List.mem_cons.1 he with rfl | he
      · rw [← forwardTransform_congr hc fun i => hp.eq_of_lt hr]
        exact hout e hd _ htrans
      · exact hin e he r (hframe.holds_of_ne (hne e he) hr)
    · rw [List.mem_cons, not_or] at hb
      exact hout b hb.2 r (hframe.holds_of_ne hb.1 hr)

variable {c : Config}

/-- Over the field the residue of a word-wise sum is the sum of the residues. -/
theorem residueCoeff_modAdd {p r : Nat → Nat} {D cnt i : Nat} (z : ZMod c.q)
    (hp : ∀ u < cnt, p (i + D * u) < c.q) (hr : ∀ u < cnt, r (i + D * u) < c.q) :
    residueCoeff (fun k => modAdd c (p k) (r k)) D cnt z i = residueCoeff p D cnt z i + residueCoeff r D cnt z i := by
  rw [residueCoeff, residueCoeff, residueCoeff, ← Finset.sum_add_distrib]
  refine Finset.sum_congr rfl fun u hu => ?_
  rw [Finset.mem_range] at hu
  rw [natCast_modAdd (hp u hu) (hr u hu), add_mul]

/-- The transform of the word-wise sum is the word-wise sum of the transforms (R89). -/
theorem forwardTransform_modAdd (hc : c.Legal) {p r : Nat → Nat} (hp : ∀ i, i < c.n → p i < c.q)
    (hr : ∀ i, i < c.n → r i < c.q) (i : Nat) :
    forwardTransform c (fun k => modAdd c (p k) (r k)) i =
      modAdd c (forwardTransform c p i) (forwardTransform c r i) := by
  have hplt := forwardTransform_lt hc p i
  have hrlt := forwardTransform_lt hc r i
  have hidx : ∀ u < c.h, i % 2 + 2 * u < c.n := fun u hu => by rw [hc.n_eq_two_h]; omega
  refine eq_of_natCast_eq (forwardTransform_lt hc _ i) (modAdd_lt hplt hrlt) ?_
  rw [natCast_modAdd hplt hrlt, natCast_forwardTransform, natCast_forwardTransform, natCast_forwardTransform,
    residueCoeff_modAdd _ (fun u hu => hp _ (hidx u hu)) fun u hu => hr _ (hidx u hu)]

theorem forwardTransform_zero (c : Config) (i : Nat) : forwardTransform c (fun _ => 0) i = 0 := by
  simp [forwardTransform]

/-- The constant 1 is its own remainder by every `X^2 - WQ[u]` (R89). -/
theorem forwardTransform_one (hc : c.Legal) (i : Nat) :
    forwardTransform c (fun k => if k = 0 then 1 else 0) i = if i % 2 = 0 then 1 else 0 := by
  have h1 : 1 < c.q := hc.two_le_q
  have hh : 0 < c.h := by rw [hc.h_eq]; exact Nat.two_pow_pos _
  rw [forwardTransform]
  rcases Nat.mod_two_eq_zero_or_one i with hi | hi
  · rw [Finset.sum_eq_single_of_mem 0 (Finset.mem_range.2 hh) fun u _ hu => by simp [hu]]
    simp [hi, Nat.mod_eq_of_lt h1]
  · simp [hi]

/-- The words `NTT` leaves in its bank (R88). -/
theorem exec_ntt_words_of_holds {s : State} (hc : s.cfg.Legal) {d : Bank} {p : Nat → Nat} (hp : s.holds d p) :
    ∃ t, exec (.ntt d) s = .next t ∧ ∀ i, i < s.cfg.n → t.word d i = some (forwardTransform s.cfg p i) := by
  obtain ⟨t, hntt, hframe, htrans⟩ := exec_ntt_of_holds hc hp
  exact ⟨t, hntt, fun i hi => (htrans i (hframe.cfg_eq ▸ hi)).1⟩

/-- R89's command sequence: adding the banks before their transforms or after leaves the same words. -/
theorem execAll_madd_ntt_madd {s : State} {x r : Nat → Nat} (hc : s.cfg.Legal) (hx : s.holds .x0 x)
    (hr : s.holds .x1 r) :
    ∃ t, execAll [.madd .x2 .x0 .x1, .ntt .x0, .ntt .x1, .ntt .x2, .madd .x3 .x0 .x1] s = .next t ∧
      ∀ i, i < s.cfg.n → ∃ v, t.word .x2 i = some v ∧ t.word .x3 i = some v := by
  obtain ⟨u, hadd, hframe, hsum⟩ := exec_madd_of_holds .x2 hx hr
  have hxu := hframe.holds_of_ne (by decide) hx
  have hru := hframe.holds_of_ne (by decide) hr
  obtain ⟨v, hntts, hcfg, htrans, -⟩ := execAll_ntt_of_holds (ds := [.x0, .x1, .x2]) (by decide)
    (hframe.cfg_eq ▸ hc) (by simp [Exists.intro _ hxu, Exists.intro _ hru, Exists.intro _ hsum])
  rw [hframe.cfg_eq] at hcfg htrans
  obtain ⟨t, hadd', hframe', hsum'⟩ :=
    exec_madd_of_holds .x3 (htrans .x0 (by decide) x hxu) (htrans .x1 (by decide) r hru)
  have htsum := hframe'.holds_of_ne (by decide) (htrans .x2 (by decide) _ hsum)
  have hcfg' : t.cfg = s.cfg := hframe'.cfg_eq.trans hcfg
  refine ⟨t, ?_, fun i hi => ⟨_, (htsum i (hcfg' ▸ hi)).1, ?_⟩⟩
  · rw [execAll_cons_of_next hadd]
    exact (execAll_append_of_next hntts _).trans (execAll_cons_of_next hadd' _)
  · rw [(hsum' i (hcfg' ▸ hi)).1, hcfg, forwardTransform_modAdd hc (fun k hk => (hx k hk).2) fun k hk => (hr k hk).2]

end Sys2Proof.Machine

open Sys2Proof Sys2Proof.Machine

/-- Settles O41: the sums agree because residues add (`forwardTransform_modAdd`); the polynomials 0 and 1 are their
own residues. -/
theorem nttIsLinear : Obligations.NttIsLinear := by
  refine ⟨fun s x r hc hx hr => execAll_madd_ntt_madd hc hx hr, fun s d hc h => ?_, fun s d hc h => ?_⟩
  · simpa only [forwardTransform_zero] using
      exec_ntt_words_of_holds hc (p := fun _ => 0) fun i hi => ⟨h i hi, hc.q_pos⟩
  · have hone : s.holds d fun k => if k = 0 then 1 else 0 := fun i hi =>
      ⟨h i hi, (ite_le_one le_rfl zero_le_one).trans_lt hc.two_le_q⟩
    simpa only [forwardTransform_one hc] using exec_ntt_words_of_holds hc hone

end

/-! ## `PWM` in the transform domain (R99) -/

section

open Sys2Proof Sys2Proof.Machine

/-- Settles O47, by the rule for `PWM` over forward transforms: slot `u` of `PWM` is the product modulo
`X^2 - WQ[u]` (`natCast_pairMul`), and the negative-wrapped product has that remainder
(`residueCoeff_naiveMultiply`). -/
theorem pwmOfTransformsIsTheTransformOfTheProduct : Obligations.PwmOfTransformsIsTheTransformOfTheProduct :=
  fun _ d _ _ _ _ hc ha hb => exec_pwm_of_holds hc d ha hb

end

/-! ## Words that are no command (R49, R50, R109) -/

section
namespace Sys2Proof

/-- The opcode field is the word's top four bits (R43). -/
theorem fieldOp_eq_div (w : CommandWord) : fieldOp w = w.toNat / 2 ^ 28 := by
  have hlt : w.toNat / 2 ^ 28 < 2 ^ 4 := by have := w.isLt; omega
  simpa [fieldOp, Nat.shiftRight_eq_div_pow] using Nat.mod_eq_of_lt hlt

/-- No opcode from 0xE on names a command (R50). -/
theorem Opcode.ofCode_eq_none_of_le {n : Nat} (h : 0xE ≤ n) : Opcode.ofCode n = none := by
  unfold Opcode.ofCode
  split
  case h_15 => rfl
  all_goals omega

theorem Opcode.code_of_ofCode_eq_some {n : Nat} {o : Opcode} (h : Opcode.ofCode n = some o) : o.code = n := by
  unfold Opcode.ofCode at h
  split at h <;> cases h <;> rfl

/-- R50: a reserved opcode is refused before any other bit is looked at. -/
theorem decode_of_reserved {w : CommandWord} (h : 0xE ≤ w.toNat / 2 ^ 28) :
    decode w = .error .reservedOpcode := by
  simp [decode, Opcode.ofCode_eq_none_of_le (fieldOp_eq_div w ▸ h)]

/-- R49: a word that misses its own row's fixed bits matches no row, the opcode bits being among them. -/
theorem exists_decode_error_of_mask_ne {w : CommandWord}
    (h : ∀ o : Opcode, o.code = w.toNat / 2 ^ 28 → w &&& o.mask ≠ o.matchWord) :
    ∃ r, decode w = .error r := by
  cases ho : Opcode.ofCode (fieldOp w) with
  | none => exact ⟨.reservedOpcode, by simp [decode, ho]⟩
  | some o =>
    have hne := h o (fieldOp_eq_div w ▸ Opcode.code_of_ofCode_eq_some ho)
    exact ⟨.mustBeZeroSet, by simp [decode, ho, hne]⟩

end Sys2Proof

namespace Sys2Proof.Machine

/-- R51, R109: the idle block takes a word that is no command and only raises `ERR_OP`. -/
theorem step_of_decode_error {s : State} {w : CommandWord} {rest : List HostInput} {r : DecodeError}
    (hseq : s.seq = none) (hin : s.inbox = .command w :: rest) (hw : decode w = .error r) :
    step s = .next ((s.accept rest).raise .op) := by
  simp [step, engineStep, hseq, hin, State.runWord, hw]

end Sys2Proof.Machine

open Sys2Proof Sys2Proof.Machine

/-- Settles O6: both causes make `decode` refuse the word (R49, R50), and a refused word only raises `ERR_OP`
(`step_of_decode_error`). -/
theorem wordThatIsNoCommandRaisesErrOp : Obligations.WordThatIsNoCommandRaisesErrOp := by
  intro s w rest hseq hin hcause
  have hdecode : ∃ r, decode w = .error r := by
    rcases hcause with hreserved | hfixed
    · exact ⟨_, decode_of_reserved hreserved⟩
    · exact exists_decode_error_of_mask_ne hfixed
  obtain ⟨r, hw⟩ := hdecode
  exact step_of_decode_error hseq hin hw

end

/-! ## Operands out of range (R108, R110, R111, R113) -/

section
namespace Sys2Proof.Machine

/-- `LDC`'s checks find the fault that R110, R111 and R113 name. -/
theorem loadCheck_eq_faultOf (c : Config) (d : Bank) (idx imm : Nat) :
    loadCheck c idx imm = faultOf c (.ldc d idx imm) := by
  simp [loadCheck, faultOf, wordIdxOk, immOk]

/-- The ROM has no word exactly where `RDT` has no table or no index (R30). -/
theorem romWord_eq_none_iff (c : Config) (tbl idx : Nat) :
    romWord c tbl idx = none ↔ 3 ≤ tbl ∨ c.h ≤ idx := by
  by_cases hi : idx < c.h
  · match tbl with
    | 0 | 1 | 2 => simp [romWord, hi]
    | k + 3 => simp [romWord]
  · simp [romWord, hi, Nat.le_of_not_lt hi]

/-- `LDC` with an index or a value out of range (R104, R110, R111). -/
theorem exec_ldc_of_fault {s : State} {d : Bank} {idx imm : Nat} {e : ErrFlag}
    (h : faultOf s.cfg (.ldc d idx imm) = some e) : exec (.ldc d idx imm) s = .next (s.raise e) := by
  simp [exec, execLdc, loadCheck_eq_faultOf _ d, h]

/-- `LDC` that passes its checks (R104); no legality of the configuration is needed. -/
theorem exec_ldc_of_no_fault {s : State} {d : Bank} {idx imm : Nat}
    (h : faultOf s.cfg (.ldc d idx imm) = none) :
    exec (.ldc d idx imm) s = .next (s.writeWord d idx (imm % 2 ^ s.cfg.dw)) := by
  simp [exec, execLdc, loadCheck_eq_faultOf _ d, h]

/-- `RDC` inside the bank (R105) and outside it (R110). -/
theorem exec_rdc (a : Bank) (idx : Nat) (s : State) :
    exec (.rdc a idx) s =
      .next (if s.cfg.n ≤ idx then (s.raise .idx).respond faultResponse
        else s.respond (zext16 (s.readWord a idx))) := by
  by_cases h : s.cfg.n ≤ idx <;> simp [exec, execRdc, wordIdxOk, h]

/-- `RDT` of a ROM word that does not exist (R78, R110). -/
theorem exec_rdt_of_fault {tbl idx : Nat} {s : State} (h : 3 ≤ tbl ∨ s.cfg.h ≤ idx) :
    exec (.rdt tbl idx) s = .next ((s.raise .idx).respond faultResponse) := by
  simp [exec, execRdt, (romWord_eq_none_iff _ _ _).2 h]

/-- `FSTG` of a stage the transform has, and of one it lacks (R85, R110). -/
theorem exec_fstg (d : Bank) (t : Nat) (s : State) :
    exec (.fstg d t) s =
      .next (if s.cfg.l ≤ t then s.raise .idx else s.finishBank d (s.mapBank d (fwdStage s.cfg t))) := by
  by_cases h : s.cfg.l ≤ t <;> simp [exec, execFstg, stageOk, h]

/-- `ISTG` of a stage the transform has, and of one it lacks (R93, R110). -/
theorem exec_istg (d : Bank) (t : Nat) (s : State) :
    exec (.istg d t) s =
      .next (if s.cfg.l ≤ t then s.raise .idx else s.finishBank d (s.mapBank d (invStage s.cfg t))) := by
  by_cases h : s.cfg.l ≤ t <;> simp [exec, execIstg, stageOk, h]

/-- A faulting command raises its flag, and then responds the all-ones word if it is one of those that respond
(R25, R108). -/
theorem exec_of_faultOf_eq_some {i : Instr} {s : State} {e : ErrFlag} (h : faultOf s.cfg i = some e) :
    exec i s = .next (if i.responds then (s.raise e).respond faultResponse else s.raise e) := by
  cases i with
  | nop | rds | ntt | intt | pwm | madd | msub | mmul | mhlv => cases h
  | ldc d idx imm => exact exec_ldc_of_fault h
  | rdc a idx =>
    obtain ⟨hidx, rfl⟩ : s.cfg.n ≤ idx ∧ .idx = e := by simpa [faultOf] using h
    simp [exec_rdc, hidx, Instr.responds]
  | rdt tbl idx =>
    obtain ⟨hidx, rfl⟩ : (3 ≤ tbl ∨ s.cfg.h ≤ idx) ∧ .idx = e := by simpa [faultOf] using h
    exact exec_rdt_of_fault hidx
  | fstg d t =>
    obtain ⟨ht, rfl⟩ : s.cfg.l ≤ t ∧ .idx = e := by simpa [faultOf] using h
    simp [exec_fstg, ht, Instr.responds]
  | istg d t =>
    obtain ⟨ht, rfl⟩ : s.cfg.l ≤ t ∧ .idx = e := by simpa [faultOf] using h
    simp [exec_istg, ht, Instr.responds]

/-- No command sets a flag but by a fault (R18, R62). -/
theorem status_of_faultOf_eq_none {i : Instr} {s t : State} (h : faultOf s.cfg i = none)
    (ht : exec i s = .next t) : t.status = s.status := by
  cases i with
  | nop | rds => cases ht; rfl
  | ldc d idx imm =>
    cases (exec_ldc_of_no_fault h).symm.trans ht
    exact s.writeWord_status ..
  | rdc a idx =>
    have hidx : ¬ s.cfg.n ≤ idx := by simpa [faultOf] using h
    cases (exec_rdc a idx s).symm.trans ht
    simp [hidx]
  | rdt tbl idx =>
    have hidx : ¬ (3 ≤ tbl ∨ s.cfg.h ≤ idx) := by simpa [faultOf] using h
    obtain ⟨v, hv⟩ := Option.ne_none_iff_exists'.1 (mt (romWord_eq_none_iff ..).1 hidx)
    simp only [exec, execRdt, hv] at ht
    cases ht
    rfl
  | ntt d | intt d =>
    simp only [exec, execNtt, execIntt] at ht
    split at ht <;> cases ht <;> simp
  | pwm | madd | msub | mmul | mhlv =>
    cases ht
    exact s.finishBank_status ..
  | fstg d k =>
    have hk : ¬ s.cfg.l ≤ k := by simpa [faultOf] using h
    cases (exec_fstg d k s).symm.trans ht
    simp [hk]
  | istg d k =>
    have hk : ¬ s.cfg.l ≤ k := by simpa [faultOf] using h
    cases (exec_istg d k s).symm.trans ht
    simp [hk]

end Sys2Proof.Machine

open Sys2Proof Sys2Proof.Machine

/-- Settles O19, by a case split on the command: the checks that `exec` makes find the fault `faultOf` names
(`exec_of_faultOf_eq_some`), and without one no command touches `STATUS` (`status_of_faultOf_eq_none`). -/
theorem faultingCommandOnlySetsItsFlag : Obligations.FaultingCommandOnlySetsItsFlag := by
  intro i s
  refine ⟨fun e he => ?_, fun h t ht => status_of_faultOf_eq_none h ht⟩
  rw [exec_of_faultOf_eq_some he]
  cases i.responds <;> rfl

end

/-! ## Reset from any state (R28, R123, R124) -/

section
namespace Sys2Proof.Machine

/-- R124: the architectural step takes a reset whether or not a command executes. -/
theorem step_of_reset {s : State} {rest : List HostInput} (hin : s.inbox = .reset :: rest) :
    step s = .next (s.takeReset rest) := by
  simp [step, engineStep, hin]

/-- R124: so does the sequencer-level step, which leaves the butterflies still to come undone. -/
theorem engineTick_of_reset {s : State} {rest : List HostInput} (hin : s.inbox = .reset :: rest) :
    engineTick s = .next (s.takeReset rest) := by
  simp [engineTick, hin]

/-- R15, R28: whatever the banks held, no word is written after a reset. -/
@[simp] theorem State.takeReset_word (s : State) (rest : List HostInput) (b : Bank) (i : Nat) :
    (s.takeReset rest).word b i = none :=
  Memory.word_unwritten s.cfg.n b i

end Sys2Proof.Machine

open Sys2Proof Sys2Proof.Machine

/-- Settles O9: both steps take the reset before they look at the sequencer (`step_of_reset`,
`engineTick_of_reset`), and the state they answer holds the values of R28. -/
theorem resetFromAnyStateGivesTheResetState : Obligations.ResetFromAnyStateGivesTheResetState := by
  intro s rest hin
  exact ⟨s.takeReset rest, step_of_reset hin, engineTick_of_reset hin, s.takeReset_status rest,
    s.takeReset_seq rest, s.takeReset_responses rest, s.takeReset_word rest, s.takeReset_cfg rest,
    s.takeReset_inbox rest⟩

end

/-! ## Decoding and encoding are inverse to each other (R42 to R53) -/

section
namespace Sys2Proof

/-- The number in the `k` bits of a command word from bit `lo` on. -/
def field (lo k : Nat) (w : CommandWord) : Nat := (w.extractLsb' lo k).toNat

theorem fieldOp_eq_field : fieldOp = field 28 4 := rfl
theorem fieldD_eq_field : fieldD = field 26 2 := rfl
theorem fieldA_eq_field : fieldA = field 24 2 := rfl
theorem fieldB_eq_field : fieldB = field 22 2 := rfl
theorem fieldIdx_eq_field : fieldIdx = field 16 8 := rfl
theorem fieldImm_eq_field : fieldImm = field 0 16 := rfl

theorem testBit_field (lo k : Nat) (w : CommandWord) (i : Nat) :
    (field lo k w).testBit i = (decide (i < k) && w.getLsbD (lo + i)) := by
  rw [field, BitVec.testBit_toNat, BitVec.getLsbD_extractLsb']

theorem field_lt (lo k : Nat) (w : CommandWord) : field lo k w < 2 ^ k := (w.extractLsb' lo k).isLt

@[simp] theorem field_or (lo k : Nat) (w w' : CommandWord) :
    field lo k (w ||| w') = field lo k w ||| field lo k w' := by
  refine Nat.eq_of_testBit_eq fun i => ?_
  simp [testBit_field, Bool.and_or_distrib_left]

/-- An operand that fits its field is read back from it. -/
theorem field_place_same {v lo k : Nat} (hv : v < 2 ^ k) (hk : lo + k ≤ 32) : field lo k (place v lo) = v := by
  refine Nat.eq_of_testBit_eq fun i => ?_
  rw [testBit_field, getLsbD_place, Nat.add_sub_cancel_left]
  by_cases hi : i < k
  · have hin : lo + i < 32 := by omega
    simp [hi, hin]
  · have hbit : v.testBit i = false :=
      Nat.testBit_lt_two_pow (hv.trans_le (Nat.pow_le_pow_right (by decide) (by omega)))
    simp [hi, hbit]

/-- An operand that fits the `k'` bits from `lo'` on leaves a field apart from them zero. -/
theorem field_place_apart {v lo k lo' k' : Nat} (hv : v < 2 ^ k') (h : lo + k ≤ lo' ∨ lo' + k' ≤ lo) :
    field lo k (place v lo') = 0 := by
  refine Nat.eq_of_testBit_eq fun i => ?_
  rw [testBit_field, getLsbD_place, Nat.zero_testBit]
  by_cases hi : i < k
  · rcases h with h | h
    · have hle : ¬ lo' ≤ lo + i := by omega
      simp [hle]
    · have hbit : v.testBit (lo + i - lo') = false :=
        Nat.testBit_lt_two_pow (hv.trans_le (Nat.pow_le_pow_right (by decide) (by omega)))
      simp [hbit]
  · simp [hi]

/-- Masking the other bits away does not change a field. -/
theorem field_and_of_mask {lo k : Nat} {mask : CommandWord} (w : CommandWord)
    (hm : ∀ i < k, mask.getLsbD (lo + i) = true) : field lo k (w &&& mask) = field lo k w := by
  refine Nat.eq_of_testBit_eq fun i => ?_
  rw [testBit_field, testBit_field, BitVec.getLsbD_and]
  by_cases hi : i < k
  · simp [hm i hi]
  · simp [hi]

/-- A field's number, placed where it was read, is the word with every other bit cleared. -/
theorem place_field {lo k : Nat} {mask : CommandWord} (w : CommandWord)
    (hm : ∀ i : Fin 32, mask.getLsbD i.val = (decide (lo ≤ i.val) && decide (i.val < lo + k))) :
    place (field lo k w) lo = w &&& mask := by
  refine BitVec.eq_of_getLsbD_eq fun i hi => ?_
  rw [getLsbD_place, testBit_field, BitVec.getLsbD_and, hm ⟨i, hi⟩]
  by_cases hl : lo ≤ i
  · by_cases hk : i < lo + k
    · have hlt : i - lo < k := by omega
      simp [hi, hl, hk, hlt]
    · have hlt : ¬ i - lo < k := by omega
      simp [hk, hlt]
  · simp [hl]

theorem Bank.num_ofNum {n : Nat} (h : n < 4) : (Bank.ofNum n).num = n := by
  match n, h with
  | 0, _ | 1, _ | 2, _ | 3, _ => rfl

/-! ### Reading a row's opcode -/

@[simp] theorem Opcode.ofCode_code (o : Opcode) : Opcode.ofCode o.code = some o := by cases o <;> rfl

theorem Opcode.code_lt (o : Opcode) : o.code < 2 ^ 4 := by cases o <;> decide

theorem Opcode.matchWord_eq_place (o : Opcode) : o.matchWord = place o.code 28 := rfl

theorem Opcode.mask_getLsbD_opcode (o : Opcode) : ∀ i < 4, o.mask.getLsbD (28 + i) = true := by
  cases o <;> decide

/-- A word with its row's fixed bits has the row's opcode. -/
theorem fieldOp_of_and_mask {w : CommandWord} {o : Opcode} (h : w &&& o.mask = o.matchWord) :
    fieldOp w = o.code := by
  rw [fieldOp_eq_field, ← field_and_of_mask w o.mask_getLsbD_opcode, h, o.matchWord_eq_place,
    field_place_same o.code_lt (by decide)]

/-- R51: a word decodes exactly when it has the fixed bits of a row, and then to that row's command. -/
theorem decode_eq_ok_iff {w : CommandWord} {i : Instr} :
    decode w = .ok i ↔ ∃ o : Opcode, w &&& o.mask = o.matchWord ∧ i = o.operands w := by
  constructor
  · intro h
    unfold decode at h
    split at h
    case h_1 => cases h
    case h_2 o _ =>
      split at h
      case isTrue hm => exact ⟨o, hm, (Except.ok.inj h).symm⟩
      case isFalse => cases h
  · rintro ⟨o, hm, rfl⟩
    simp [decode, fieldOp_of_and_mask hm, hm]

theorem Opcode.opcode_operands (o : Opcode) (w : CommandWord) : (o.operands w).opcode = o := by cases o <;> rfl

/-! ### From the command to the word and back -/

/-- R44, R48: the word of a well-formed command has its row's fixed bits. -/
theorem encode_and_mask {i : Instr} (h : i.wellFormed = true) : encode i &&& i.opcode.mask = i.opcode.matchWord := by
  cases i with
  | nop => exact Laws.FixedBits.nop h
  | ldc d idx imm => exact Laws.FixedBits.ldc d idx imm h
  | rdc a idx => exact Laws.FixedBits.rdc a idx h
  | rdt tbl idx => exact Laws.FixedBits.rdt tbl idx h
  | rds => exact Laws.FixedBits.rds h
  | ntt d => exact Laws.FixedBits.ntt d h
  | intt d => exact Laws.FixedBits.intt d h
  | pwm d a b => exact Laws.FixedBits.pwm d a b h
  | madd d a b => exact Laws.FixedBits.madd d a b h
  | msub d a b => exact Laws.FixedBits.msub d a b h
  | mmul d a b => exact Laws.FixedBits.mmul d a b h
  | mhlv d a => exact Laws.FixedBits.mhlv d a h
  | fstg d t => exact Laws.FixedBits.fstg d t h
  | istg d t => exact Laws.FixedBits.istg d t h

theorem field_matchWord (o : Opcode) {lo k : Nat} (h : lo + k ≤ 28) : field lo k o.matchWord = 0 := by
  rw [o.matchWord_eq_place, field_place_apart o.code_lt (.inl h)]

@[simp] theorem field_place_bank_same (b : Bank) {lo : Nat} (h : lo + 2 ≤ 32) :
    field lo 2 (place b.num lo) = b.num := field_place_same b.num_lt h

theorem field_place_bank_apart (b : Bank) {lo k lo' : Nat} (h : lo + k ≤ lo' ∨ lo' + 2 ≤ lo) :
    field lo k (place b.num lo') = 0 := field_place_apart (k' := 2) b.num_lt h

/-- R43: the operand fields of a well-formed command's word hold its operands. -/
theorem operands_encode {i : Instr} (h : i.wellFormed = true) : i.opcode.operands (encode i) = i := by
  cases i with
  | nop | rds => rfl
  | ntt d | intt d =>
    simp [encode, Instr.opcode, Instr.operandBits, Opcode.operands, fieldD_eq_field, field_matchWord]
  | mhlv d a =>
    simp [encode, Instr.opcode, Instr.operandBits, Opcode.operands, fieldD_eq_field, fieldA_eq_field,
      field_matchWord, field_place_bank_apart]
  | pwm d a b | madd d a b | msub d a b | mmul d a b =>
    simp [encode, Instr.opcode, Instr.operandBits, Opcode.operands, fieldD_eq_field, fieldA_eq_field,
      fieldB_eq_field, field_matchWord, field_place_bank_apart]
  | fstg d t | istg d t =>
    have ht : t < 2 ^ 8 := by simpa [Instr.wellFormed, fitsIdx] using h
    simp [encode, Instr.opcode, Instr.operandBits, Opcode.operands, fieldD_eq_field, fieldIdx_eq_field,
      field_matchWord, field_place_bank_apart, field_place_same ht, field_place_apart ht]
  | rdc a idx =>
    have hidx : idx < 2 ^ 8 := by simpa [Instr.wellFormed, fitsIdx] using h
    simp [encode, Instr.opcode, Instr.operandBits, Opcode.operands, fieldA_eq_field, fieldIdx_eq_field,
      field_matchWord, field_place_bank_apart, field_place_same hidx, field_place_apart hidx]
  | rdt tbl idx =>
    obtain ⟨htbl, hidx⟩ : tbl < 2 ^ 2 ∧ idx < 2 ^ 8 := by
      simpa [Instr.wellFormed, fitsTable, fitsIdx] using h
    simp [encode, Instr.opcode, Instr.operandBits, Opcode.operands, fieldA_eq_field, fieldIdx_eq_field,
      field_matchWord, field_place_same htbl, field_place_apart htbl, field_place_same hidx, field_place_apart hidx]
  | ldc d idx imm =>
    obtain ⟨hidx, himm⟩ : idx < 2 ^ 8 ∧ imm < 2 ^ 16 := by
      simpa [Instr.wellFormed, fitsIdx, fitsImm] using h
    simp [encode, Instr.opcode, Instr.operandBits, Opcode.operands, fieldD_eq_field, fieldIdx_eq_field,
      fieldImm_eq_field, field_matchWord, field_place_bank_apart, field_place_same hidx, field_place_apart hidx,
      field_place_same himm, field_place_apart himm]

/-! ### From the word to the command and back -/

theorem wellFormed_operands (o : Opcode) (w : CommandWord) : (o.operands w).wellFormed = true := by
  have hidx : fieldIdx w < 256 := field_lt 16 8 w
  have himm : fieldImm w < 65536 := field_lt 0 16 w
  have htbl : fieldA w < 4 := field_lt 24 2 w
  cases o <;> simp [Opcode.operands, Instr.wellFormed, fitsIdx, fitsImm, fitsTable, hidx, himm, htbl]

theorem place_fieldIdx (w : CommandWord) : place (fieldIdx w) 16 = w &&& 0x00FF0000#32 :=
  place_field (k := 8) w (by decide)

theorem place_fieldImm (w : CommandWord) : place (fieldImm w) 0 = w &&& 0x0000FFFF#32 :=
  place_field (k := 16) w (by decide)

theorem place_fieldA (w : CommandWord) : place (fieldA w) 24 = w &&& 0x03000000#32 :=
  place_field (k := 2) w (by decide)

theorem place_bankD (w : CommandWord) : place (Bank.ofNum (fieldD w)).num 26 = w &&& 0x0C000000#32 := by
  rw [Bank.num_ofNum (show fieldD w < 4 from field_lt 26 2 w)]
  exact place_field (k := 2) w (by decide)

theorem place_bankA (w : CommandWord) : place (Bank.ofNum (fieldA w)).num 24 = w &&& 0x03000000#32 := by
  rw [Bank.num_ofNum (show fieldA w < 4 from field_lt 24 2 w), place_fieldA]

theorem place_bankB (w : CommandWord) : place (Bank.ofNum (fieldB w)).num 22 = w &&& 0x00C00000#32 := by
  rw [Bank.num_ofNum (show fieldB w < 4 from field_lt 22 2 w)]
  exact place_field (k := 2) w (by decide)

theorem and_or_and (w m m' : CommandWord) : (w &&& m) ||| (w &&& m') = w &&& (m ||| m') := by
  refine BitVec.eq_of_getLsbD_eq fun i _ => ?_
  simp [Bool.and_or_distrib_left]

/-- R43, R44: the operand bits of a row are the bits its format does not fix. -/
theorem operandBits_operands (o : Opcode) (w : CommandWord) :
    (o.operands w).operandBits = w &&& ~~~ o.mask := by
  cases o <;>
    simp only [Opcode.operands, Instr.operandBits, place_fieldIdx, place_fieldImm, place_fieldA, place_bankD,
      place_bankA, place_bankB, and_or_and] <;>
    simp [Opcode.mask, Opcode.format, Format.mask]

/-- R49: a word with a row's fixed bits is the word of the command read from it. -/
theorem encode_operands {o : Opcode} {w : CommandWord} (h : w &&& o.mask = o.matchWord) :
    encode (o.operands w) = w := by
  rw [encode, o.opcode_operands, operandBits_operands, ← h, and_or_and, BitVec.or_not_self, BitVec.and_allOnes]

/-- R48: the rows are told apart by their fixed bits. -/
theorem exists_decode_opcode_iff {w : CommandWord} {o : Opcode} :
    (∃ i, decode w = .ok i ∧ i.opcode = o) ↔ w &&& o.mask = o.matchWord := by
  constructor
  · rintro ⟨i, hi, rfl⟩
    obtain ⟨o, hm, rfl⟩ := decode_eq_ok_iff.1 hi
    rwa [o.opcode_operands]
  · exact fun hm => ⟨_, decode_eq_ok_iff.2 ⟨o, hm, rfl⟩, o.opcode_operands w⟩

/-- R50: the two reserved rows, by their top four bits. -/
theorem decode_of_reserved_bits {w : CommandWord} {n : Nat} (hn : 0xE ≤ n) (hlt : n < 2 ^ 4)
    (h : w &&& 0xF0000000#32 = place n 28) : decode w = .error .reservedOpcode := by
  have hop : fieldOp w = n := by
    rw [fieldOp_eq_field, ← field_and_of_mask (mask := 0xF0000000#32) w (by decide), h,
      field_place_same hlt (by decide)]
  exact decode_of_reserved (by rwa [← fieldOp_eq_div, hop])

end Sys2Proof

open Sys2Proof

/-- Settles O1: the command's word has its row's fixed bits (`encode_and_mask`), and each field gives its operand
back (`operands_encode`). -/
theorem decodeOfEncodeIsTheCommand : Obligations.DecodeOfEncodeIsTheCommand := by
  intro i hi
  exact decode_eq_ok_iff.2 ⟨i.opcode, encode_and_mask hi, (operands_encode hi).symm⟩

/-- Settles O2: the row's fixed bits and its operand bits together are the whole word (`encode_operands`). -/
theorem encodeOfDecodeIsTheWord : Obligations.EncodeOfDecodeIsTheWord := by
  intro w i h
  obtain ⟨o, hm, rfl⟩ := decode_eq_ok_iff.1 h
  exact ⟨encode_operands hm, wellFormed_operands o w⟩

/-- Settles O3: the written-out pairs are the rows' own `mask` and `matchWord` (`exists_decode_opcode_iff`). -/
theorem wordIsTheRowItMatches : Obligations.WordIsTheRowItMatches := by
  refine ⟨fun row hrow w => ?_, fun w h => ?_⟩
  · obtain ⟨hmask, hmatch⟩ : row.2.2 = row.1.mask ∧ row.2.1 = row.1.matchWord := by
      revert row
      decide
    rw [hmask, hmatch, exists_decode_opcode_iff]
  · rcases h with h | h
    · exact decode_of_reserved_bits (n := 0xE) (by decide) (by decide) h
    · exact decode_of_reserved_bits (n := 0xF) (by decide) (by decide) h

/-- Settles O4: each word has the fixed bits of its row, and its fields hold the operands. -/
theorem writtenOutWordsDecode : Obligations.WrittenOutWordsDecode := by
  unfold Obligations.WrittenOutWordsDecode
  decide

end

/-! ## What a command can do: one lemma for each way it ends, and the inversion lemma of `exec` -/

section
namespace Sys2Proof.Machine

/-- The words a command over whole banks computes; `none` where a source word is unwritten (R15, R16), and for a
command that computes no bank. -/
def State.result (s : State) : Instr → Option (List Nat)
  | .nop => none
  | .ldc _ _ _ => none
  | .rdc _ _ => none
  | .rdt _ _ => none
  | .rds => none
  | .ntt d => s.mapBank d (nttWords s.cfg)
  | .intt d => s.mapBank d (inttWords s.cfg)
  | .pwm _ a b => s.mapBanks a b (pwmWords s.cfg)
  | .madd _ a b => s.mapBanks a b (List.zipWith (modAdd s.cfg))
  | .msub _ a b => s.mapBanks a b (List.zipWith (modSub s.cfg))
  | .mmul _ a b => s.mapBanks a b (List.zipWith (modMul s.cfg))
  | .mhlv _ a => s.mapBank a (List.map (modHlv s.cfg))
  | .fstg d t => s.mapBank d (fwdStage s.cfg t)
  | .istg d t => s.mapBank d (invStage s.cfg t)

/-- The word a reading command responds when its operands are in range (R25, R78, R105, R106). -/
def State.response (s : State) : Instr → Option ResponseWord
  | .rdc a idx => some (zext16 (s.readWord a idx))
  | .rdt tbl idx => (romWord s.cfg tbl idx).map zext16
  | .rds => some s.status
  | _ => none

variable {s : State} {i : Instr}

theorem exec_of_response {v : ResponseWord} (hf : faultOf s.cfg i = none) (h : s.response i = some v) :
    exec i s = .next (s.respond v) := by
  cases i with
  | rdc a idx =>
    have hidx : ¬ s.cfg.n ≤ idx := by simpa [faultOf] using hf
    cases h
    rw [exec_rdc, if_neg hidx]
  | rdt tbl idx =>
    obtain ⟨w, hw, rfl⟩ := Option.map_eq_some_iff.1 h
    simp [exec, execRdt, hw]
  | rds =>
    cases h
    rfl
  | _ => cases h

/-- A multi-step command that passes its checks writes the bank it computes, all N words of it (R16). -/
theorem exec_of_firstPoint {p : LoopPoint} (h : firstPoint s.cfg i = some p) :
    ∃ d, i.dest = some d ∧ exec i s = .next (s.finishBank d (s.result i)) := by
  cases i with
  | nop | ldc | rdc | rdt | rds => cases h
  | pwm d | madd d | msub d | mmul d | mhlv d => exact ⟨d, rfl, rfl⟩
  | ntt d | intt d =>
    refine ⟨d, rfl, ?_⟩
    have hl : s.cfg.l ≠ 0 := fun hl => by simp [firstPoint, hl] at h
    simp [exec, execNtt, execIntt, State.result, hl]
  | fstg d t | istg d t =>
    refine ⟨d, rfl, ?_⟩
    have ht : stageOk s.cfg t = true := by
      by_contra hno
      simp [firstPoint, hno] at h
    simp [exec, execFstg, execIstg, State.result, ht]

/-- A command without fault, response, loop or word to load leaves the state alone: `NOP`, and the transforms for
`N = 2`. -/
theorem exec_of_idle (hf : faultOf s.cfg i = none) (hr : s.response i = none) (hp : firstPoint s.cfg i = none)
    (hldc : ∀ d idx imm, i ≠ .ldc d idx imm) : exec i s = .next s := by
  cases i with
  | nop => rfl
  | ldc d idx imm => exact absurd rfl (hldc d idx imm)
  | rdc | rds => cases hr
  | rdt tbl idx =>
    have hrom := (romWord_eq_none_iff ..).1 (Option.map_eq_none_iff.1 hr)
    simp [faultOf, hrom] at hf
  | pwm | madd | msub | mmul | mhlv => cases hp
  | ntt d | intt d =>
    have hl : s.cfg.l = 0 := by simpa [firstPoint] using hp
    simp [exec, execNtt, execIntt, hl]
  | fstg d t | istg d t =>
    have hlt : s.cfg.l ≤ t := by simpa [firstPoint, stageOk] using hp
    simp [faultOf, hlt] at hf

theorem responds_of_response_eq_some {v : ResponseWord} (h : s.response i = some v) : i.responds = true := by
  cases i with
  | rdc | rdt | rds => rfl
  | _ => cases h

theorem response_isSome_of_responds (hf : faultOf s.cfg i = none) (h : i.responds = true) :
    (s.response i).isSome = true := by
  cases i with
  | rdc | rds => rfl
  | rdt tbl idx =>
    have hrom : ¬ (3 ≤ tbl ∨ s.cfg.h ≤ idx) := by simpa [faultOf] using hf
    simpa [State.response, Option.isSome_iff_ne_none, romWord_eq_none_iff] using hrom
  | _ => cases h

theorem responds_of_firstPoint_eq_some {c : Config} {p : LoopPoint} (h : firstPoint c i = some p) :
    i.responds = false := by
  cases i with
  | nop | ldc | rdc | rdt | rds => cases h
  | _ => rfl

/-- What a command can do to the state. -/
inductive ExecEffect (s : State) : Instr → State → Prop where
  /-- An operand out of range: the flag, and for a reading command the all-ones response (R108). -/
  | fault {i : Instr} (e : ErrFlag) (h : faultOf s.cfg i = some e) :
      ExecEffect s i (if i.responds then (s.raise e).respond faultResponse else s.raise e)
  /-- A reading command's response (R25). -/
  | respond {i : Instr} (v : ResponseWord) (hr : i.responds = true) : ExecEffect s i (s.respond v)
  /-- The word that `LDC` writes (R104). -/
  | load {d : Bank} {idx imm : Nat} (himm : imm < s.cfg.q) :
      ExecEffect s (.ldc d idx imm) (s.writeWord d idx (imm % 2 ^ s.cfg.dw))
  /-- The bank that a multi-step command writes (R16). -/
  | bank {i : Instr} {d : Bank} {p : LoopPoint} (hp : firstPoint s.cfg i = some p) (hd : i.dest = some d) :
      ExecEffect s i (s.finishBank d (s.result i))
  /-- Nothing (R86, R94, R103). -/
  | idle {i : Instr} (hr : i.responds = false) : ExecEffect s i s

/-- Every command answers a next state, in one of these ways. -/
theorem exists_exec_effect (i : Instr) (s : State) : ∃ t, exec i s = .next t ∧ ExecEffect s i t := by
  cases hf : faultOf s.cfg i with
  | some e => exact ⟨_, exec_of_faultOf_eq_some hf, .fault e hf⟩
  | none =>
    cases hr : s.response i with
    | some v => exact ⟨_, exec_of_response hf hr, .respond v (responds_of_response_eq_some hr)⟩
    | none =>
      cases hp : firstPoint s.cfg i with
      | some p =>
        obtain ⟨d, hd, hexec⟩ := exec_of_firstPoint hp
        exact ⟨_, hexec, .bank hp hd⟩
      | none =>
        by_cases hldc : ∃ d idx imm, i = .ldc d idx imm
        · obtain ⟨d, idx, imm, rfl⟩ := hldc
          have himm : imm < s.cfg.q := by
            simp only [faultOf] at hf
            split_ifs at hf
            omega
          exact ⟨_, exec_ldc_of_no_fault hf, .load himm⟩
        · have hno : i.responds = false := by
            by_contra h
            have := response_isSome_of_responds hf (eq_true_of_ne_false h)
            simp [hr] at this
          exact ⟨s, exec_of_idle hf hr hp fun d idx imm h => hldc ⟨d, idx, imm, h⟩, .idle hno⟩

/-- Inversion of `exec`. -/
theorem exec_effect {t : State} (h : exec i s = .next t) : ExecEffect s i t := by
  obtain ⟨t', h', heff⟩ := exists_exec_effect i s
  cases h.symm.trans h'
  exact heff

/-! ### What a whole-bank command leaves -/

theorem State.finishBank_none (s : State) (d : Bank) :
    s.finishBank d none = { s.writeBank d (unspecifiedBank s.cfg s.draws) with draws := s.draws + 1 } := rfl

theorem State.word_finishBank_same (s : State) (d : Bank) (r : Option (List Nat)) (j : Nat) :
    (s.finishBank d r).word d j = (r.getD (unspecifiedBank s.cfg s.draws))[j]? := by
  cases r <;> exact s.word_writeBank_same d _ j

theorem State.word_finishBank_of_ne (s : State) {b d : Bank} (r : Option (List Nat)) (j : Nat) (h : b ≠ d) :
    (s.finishBank d r).word b j = s.word b j := by
  cases r <;> exact s.word_writeBank_of_ne _ j h

/-- R16: a command leaves the configuration, the sequencer, the inputs and the reset counter alone, and every bank
that is not its destination. -/
theorem ExecEffect.frame {t : State} (h : ExecEffect s i t) :
    t.cfg = s.cfg ∧ t.seq = s.seq ∧ t.inbox = s.inbox ∧ t.resets = s.resets ∧
      ∀ b, i.dest ≠ some b → ∀ j, t.word b j = s.word b j := by
  cases h with
  | fault e => split <;> exact ⟨rfl, rfl, rfl, rfl, fun _ _ _ => rfl⟩
  | respond | idle => exact ⟨rfl, rfl, rfl, rfl, fun _ _ _ => rfl⟩
  | load =>
    exact ⟨rfl, rfl, rfl, rfl, fun b hb j =>
      Memory.word_setWord_of_ne _ _ (.inl fun h => hb (congrArg some h.symm))⟩
  | bank hp hd =>
    exact ⟨s.finishBank_cfg .., s.finishBank_seq .., s.finishBank_inbox .., s.finishBank_resets .., fun b hb j =>
      s.word_finishBank_of_ne _ j fun h => hb (hd.trans (congrArg some h.symm))⟩

/-- R18, R115: a command sets flags and clears none. -/
theorem ExecEffect.status {t : State} (h : ExecEffect s i t) :
    t.status = s.status ∨ ∃ e, t.status = setFlag s.status e := by
  cases h with
  | fault e => exact .inr ⟨e, by split <;> rfl⟩
  | respond | load | idle => exact .inl rfl
  | bank => exact .inl (s.finishBank_status ..)

/-- R25: one response of a reading command, none of any other. -/
theorem ExecEffect.responses {t : State} (h : ExecEffect s i t) :
    if i.responds then ∃ v, t.responses = s.responses ++ [v] else t.responses = s.responses := by
  cases h with
  | fault e => cases i.responds <;> simp
  | respond v hr => simp [hr]
  | load => simp [Instr.responds]
  | bank hp hd => simp [responds_of_firstPoint_eq_some hp]
  | idle hr => simp [hr]

/-! ### Where the words of a result come from -/

theorem State.mapBank_isSome (s : State) (a : Bank) (f : List Nat → List Nat) :
    (s.mapBank a f).isSome = (s.readBank a).isSome := by
  rw [State.mapBank, Option.isSome_map]

theorem State.mapBanks_isSome (s : State) (a b : Bank) (f : List Nat → List Nat → List Nat) :
    (s.mapBanks a b f).isSome = ((s.readBank a).isSome && (s.readBank b).isSome) := by
  unfold State.mapBanks
  cases s.readBank a <;> simp

/-- R15: the result of a multi-step command exists exactly when its sources are written. -/
theorem result_isSome {c : Config} {p : LoopPoint} (hp : firstPoint c i = some p) :
    (s.result i).isSome = s.sourcesWritten i := by
  cases i with
  | nop | ldc | rdc | rdt | rds => cases hp
  | pwm | madd | msub | mmul => exact s.mapBanks_isSome ..
  | ntt | intt | mhlv | fstg | istg => exact s.mapBank_isSome ..

/-- A command that reads whole banks and runs is refused by R15's refusing reading exactly when a source word is
unwritten. -/
theorem admits_of_firstPoint {p : LoopPoint} (hp : firstPoint s.cfg i = some p) :
    s.admits i = s.sourcesWritten i := by
  cases i with
  | nop | ldc | rdc | rdt | rds => cases hp
  | pwm | madd | msub | mmul | mhlv => rfl
  | ntt d | intt d =>
    have hl : s.cfg.l ≠ 0 := fun hl => by simp [firstPoint, hl] at hp
    simp [State.admits, hl]
  | fstg d t | istg d t =>
    have ht : stageOk s.cfg t = true := by
      by_contra hno
      simp [firstPoint, hno] at hp
    simp [State.admits, ht]

theorem firstPoint_of_dest_of_not_admits {d : Bank} (hd : i.dest = some d) (h : s.admits i = false) :
    ∃ p, firstPoint s.cfg i = some p := by
  cases i with
  | nop | rdc | rdt | rds => cases hd
  | ldc => cases h
  | pwm | madd | msub | mmul | mhlv => exact ⟨_, rfl⟩
  | ntt d | intt d =>
    obtain ⟨hl, -⟩ : s.cfg.l ≠ 0 ∧ _ := by simpa [State.admits] using h
    exact ⟨_, if_neg hl⟩
  | fstg d t | istg d t =>
    obtain ⟨ht, -⟩ : stageOk s.cfg t = true ∧ _ := by simpa [State.admits] using h
    exact ⟨_, if_pos ht⟩

/-- A command that computes no bank but has a destination other than `LDC`'s reads that bank. -/
theorem mem_sources_of_dest {c : Config} {d : Bank} (hldc : ∀ d idx imm, i ≠ .ldc d idx imm)
    (hp : firstPoint c i = none) (hd : i.dest = some d) : d ∈ i.sources := by
  cases i with
  | nop | rdc | rdt | rds => cases hd
  | ldc d idx imm => exact absurd rfl (hldc d idx imm)
  | pwm | madd | msub | mmul | mhlv => cases hp
  | ntt | intt | fstg | istg =>
    cases hd
    exact List.mem_cons_self

theorem State.readBank_congr {s s' : State} {b : Bank} (hcfg : s'.cfg = s.cfg)
    (h : ∀ j, s'.word b j = s.word b j) : s'.readBank b = s.readBank b := by
  rw [State.readBank, State.readBank, hcfg, funext h]

/-- R16: the result is a function of the source banks. -/
theorem result_congr {s s' : State} (hcfg : s'.cfg = s.cfg)
    (h : ∀ b ∈ i.sources, ∀ j, s'.word b j = s.word b j) : s'.result i = s.result i := by
  have hread : ∀ b ∈ i.sources, s'.readBank b = s.readBank b := fun b hb => State.readBank_congr hcfg (h b hb)
  cases i with
  | nop | ldc | rdc | rdt | rds => rfl
  | ntt | intt | mhlv | fstg | istg =>
    simp only [State.result, State.mapBank, hcfg, hread _ List.mem_cons_self]
  | pwm d a b | madd d a b | msub d a b | mmul d a b =>
    simp only [State.result, State.mapBanks, hcfg, hread a List.mem_cons_self,
      hread b (List.mem_cons_of_mem _ List.mem_cons_self)]

theorem response_congr {s s' : State} (hcfg : s'.cfg = s.cfg) (hresets : s'.resets = s.resets)
    (hstatus : s'.status = s.status) (h : ∀ b ∈ i.sources, ∀ j, s'.word b j = s.word b j) :
    s'.response i = s.response i := by
  cases i with
  | rdc a idx => simp only [State.response, State.readWord, hcfg, hresets, h a List.mem_cons_self]
  | rdt => simp only [State.response, hcfg]
  | rds => simp only [State.response, hstatus]
  | _ => rfl

end Sys2Proof.Machine

open Sys2Proof Sys2Proof.Machine

/-- Settles O52, from the frame of each way a command can end (`ExecEffect.frame`). -/
theorem commandsWriteOnlyTheirDestination : Obligations.CommandsWriteOnlyTheirDestination := by
  intro i s t h
  exact (exec_effect h).frame

/-- Settles O18, from the responses of each way a command can end (`ExecEffect.responses`). -/
theorem exactlyTheReadsRespondOnce : Obligations.ExactlyTheReadsRespondOnce := by
  intro i s t h
  exact (exec_effect h).responses

/-- Settles O54: such a command runs (`firstPoint_of_dest_of_not_admits`), has no result, and so leaves the
unspecified bank. -/
theorem unwrittenSourcesLeaveAnUnspecifiedBank : Obligations.UnwrittenSourcesLeaveAnUnspecifiedBank := by
  intro i s d hd h
  obtain ⟨p, hp⟩ := firstPoint_of_dest_of_not_admits hd h
  obtain ⟨d', hd', hexec⟩ := exec_of_firstPoint hp
  obtain rfl : d = d' := Option.some.inj (hd.symm.trans hd')
  have hnone : s.result i = none := by
    rw [← Option.not_isSome_iff_eq_none, result_isSome hp, ← admits_of_firstPoint hp, h]
    decide
  rw [hnone] at hexec
  refine ⟨_, hexec, rfl, fun b hb j => s.word_finishBank_of_ne _ j hb, fun j hj =>
    ⟨unspecifiedResult s.cfg s.draws j, unspecifiedResult_lt _ _ _, ?_⟩⟩
  simp [State.word_finishBank_same, unspecifiedBank, hj]

/-- Settles O53: whichever way the command ends in one state it ends in the other, with the same response
(`response_congr`) or the same computed words (`result_congr`); a command that computes no bank has its destination
among its sources. -/
theorem resultsDependOnTheNamedBanksOnly : Obligations.ResultsDependOnTheNamedBanksOnly := by
  intro i s s' t t' hldc hcfg hresets hdraws hstatus hresp hwords ht ht'
  have hdest : ∀ b, firstPoint s.cfg i = none → i.dest = some b → ∀ j, s'.word b j = s.word b j :=
    fun b hp hb => hwords b (mem_sources_of_dest hldc hp hb)
  have hresponse : s'.response i = s.response i := response_congr hcfg hresets hstatus hwords
  have hresult : s'.result i = s.result i := result_congr hcfg hwords
  cases hp : firstPoint s.cfg i with
  | some p =>
    obtain ⟨d, hd, hexec⟩ := exec_of_firstPoint hp
    obtain ⟨d', hd', hexec'⟩ := exec_of_firstPoint (s := s') (hcfg ▸ hp)
    obtain rfl : d = d' := Option.some.inj (hd.symm.trans hd')
    cases ht.symm.trans hexec
    cases ht'.symm.trans hexec'
    refine ⟨by simp [hstatus], by simp [hresp], fun b hb j _ => ?_⟩
    obtain rfl : d = b := Option.some.inj (hd.symm.trans hb)
    rw [State.word_finishBank_same, State.word_finishBank_same, hresult, hcfg, hdraws]
  | none =>
    cases hf : faultOf s.cfg i with
    | some e =>
      cases ht.symm.trans (exec_of_faultOf_eq_some hf)
      cases ht'.symm.trans (exec_of_faultOf_eq_some (s := s') (hcfg ▸ hf))
      cases hr : i.responds <;>
        exact ⟨by simp [hstatus], by simp [hresp], fun b hb j _ => hdest b hp hb j⟩
    | none =>
      have hf' : faultOf s'.cfg i = none := hcfg ▸ hf
      cases hr : s.response i with
      | some v =>
        cases ht.symm.trans (exec_of_response hf hr)
        cases ht'.symm.trans (exec_of_response hf' (hresponse.trans hr))
        exact ⟨hstatus, by simp [hresp], fun b hb j _ => hdest b hp hb j⟩
      | none =>
        cases ht.symm.trans (exec_of_idle hf hr hp hldc)
        cases ht'.symm.trans (exec_of_idle hf' (hresponse.trans hr) (hcfg ▸ hp) hldc)
        exact ⟨hstatus, hresp, fun b hb j _ => hdest b hp hb j⟩

end

/-! ## What a step can do, and the host's commands (R21, R22, R36, R103 to R106) -/

section
namespace Sys2Proof.Machine

/-- What one architectural step can do. -/
inductive StepEffect (s : State) : State → Prop where
  /-- R124: a reset, from any state. -/
  | reset {rest : List HostInput} (hin : s.inbox = .reset :: rest) : StepEffect s (s.takeReset rest)
  /-- R22: the command in execution carried to its end. -/
  | drain {q : Sequencer} (hseq : s.seq = some q) (hin : ∀ rest, s.inbox ≠ .reset :: rest) :
      StepEffect s (s.drain (drainFuel s.cfg))
  /-- R122: no input. -/
  | wait (hseq : s.seq = none) (hin : s.inbox = []) : StepEffect s s
  /-- R109: a word that is no command. -/
  | refuse {w : CommandWord} {rest : List HostInput} {r : DecodeError} (hseq : s.seq = none)
      (hin : s.inbox = .command w :: rest) (hw : decode w = .error r) : StepEffect s ((s.accept rest).raise .op)
  /-- R36: a command, completely. -/
  | command {w : CommandWord} {rest : List HostInput} {i : Instr} {t : State} (hseq : s.seq = none)
      (hin : s.inbox = .command w :: rest) (hw : decode w = .ok i) (h : ExecEffect (s.accept rest) i t) :
      StepEffect s t

/-- A busy block that is not reset carries its command to the end (R22). -/
theorem step_of_busy {s : State} {q : Sequencer} (hseq : s.seq = some q) (hin : ∀ rest, s.inbox ≠ .reset :: rest) :
    step s = .next (s.drain (drainFuel s.cfg)) := by
  rcases hi : s.inbox with _ | ⟨_ | _, rest⟩
  case cons.reset => exact absurd hi (hin rest)
  all_goals simp [step, engineStep, hi, hseq]

theorem step_of_wait {s : State} (hseq : s.seq = none) (hin : s.inbox = []) : step s = .next s := by
  simp [step, engineStep, hseq, hin]

theorem step_of_command {s : State} {w : CommandWord} {rest : List HostInput} {i : Instr} (hseq : s.seq = none)
    (hin : s.inbox = .command w :: rest) (hw : decode w = .ok i) : step s = exec i (s.accept rest) := by
  simp [step, engineStep, hseq, hin, State.runWord, hw]

/-- Every step answers a next state, in one of these ways. -/
theorem exists_step_effect (s : State) : ∃ t, step s = .next t ∧ StepEffect s t := by
  rcases hin : s.inbox with _ | ⟨_ | _, rest⟩
  case cons.reset => exact ⟨_, step_of_reset hin, .reset hin⟩
  all_goals
    rcases hseq : s.seq with _ | q
    case some =>
      have hno : ∀ rest, s.inbox ≠ .reset :: rest := by simp [hin]
      exact ⟨_, step_of_busy hseq hno, .drain hseq hno⟩
  case nil.none => exact ⟨s, step_of_wait hseq hin, .wait hseq hin⟩
  case cons.command.none w =>
    cases hw : decode w with
    | error r => exact ⟨_, step_of_decode_error hseq hin hw, .refuse hseq hin hw⟩
    | ok i =>
      obtain ⟨t, ht, heff⟩ := exists_exec_effect i (s.accept rest)
      exact ⟨t, (step_of_command hseq hin hw).trans ht, .command hseq hin hw heff⟩

/-- Inversion of `step`. -/
theorem step_effect {s t : State} (h : step s = .next t) : StepEffect s t := by
  obtain ⟨t', h', heff⟩ := exists_step_effect s
  cases h.symm.trans h'
  exact heff

/-- R21: a busy block that is not reset does the next point's work. -/
theorem engineTick_of_busy {s : State} {q : Sequencer} (hseq : s.seq = some q)
    (hin : ∀ rest, s.inbox ≠ .reset :: rest) : engineTick s = .next (s.sequencerStep q) := by
  rcases hi : s.inbox with _ | ⟨_ | _, rest⟩
  case cons.reset => exact absurd hi (hin rest)
  all_goals simp [engineTick, hi, hseq]

/-- R22: carrying a command to its end accepts no input, responds nothing and sets no flag. -/
theorem drain_frame (fuel : Nat) (s : State) :
    (s.drain fuel).inbox = s.inbox ∧ (s.drain fuel).responses = s.responses ∧ (s.drain fuel).status = s.status := by
  induction fuel generalizing s with
  | zero => exact ⟨rfl, rfl, rfl⟩
  | succ fuel ih =>
    rw [State.drain]
    split
    case h_1 => exact ⟨rfl, rfl, rfl⟩
    case h_2 q _ => simpa using ih (s.sequencerStep q)

theorem setFlag_and_self (status : StatusWord) (e : ErrFlag) : status &&& setFlag status e = status := by
  refine BitVec.eq_of_getLsbD_eq fun i _ => ?_
  rw [setFlag, BitVec.getLsbD_and, BitVec.getLsbD_or]
  cases status.getLsbD i <;> rfl

/-- R18: the three flags stand below the reserved bits. -/
theorem statusReserved_setFlag {status : StatusWord} (h : statusReserved status = true) (e : ErrFlag) :
    statusReserved (setFlag status e) = true := by
  rw [statusReserved, beq_iff_eq] at h ⊢
  have hmask : e.mask &&& 0xFFF8#16 = 0#16 := by cases e <;> decide
  refine BitVec.eq_of_getLsbD_eq fun i hi => ?_
  have hbit := congrArg (fun w : StatusWord => w.getLsbD i) h
  have hbit' := congrArg (fun w : StatusWord => w.getLsbD i) hmask
  simp only [BitVec.getLsbD_and] at hbit hbit'
  rw [setFlag, BitVec.getLsbD_and, BitVec.getLsbD_or, Bool.and_or_distrib_right, hbit, hbit']
  simp

/-- A word of DW bits keeps its value on the response port (R25). -/
theorem toNat_zext16 {c : Config} (hc : c.Legal) {v : Nat} (hv : v < 2 ^ c.dw) : (zext16 v).toNat = v := by
  rw [zext16, BitVec.toNat_ofNat]
  exact Nat.mod_eq_of_lt (hv.trans_le (Nat.pow_le_pow_right (by decide) hc.dw_le))

/-- Q is below `2^16`, and odd, so no field element is the all-ones word (R25). -/
theorem zext16_ne_faultResponse {c : Config} (hc : c.Legal) {v : Nat} (hv : v < c.q) : zext16 v ≠ 0xFFFF#16 := by
  intro h
  have hnat := congrArg BitVec.toNat h
  rw [toNat_zext16 hc (hv.trans_le hc.q_le_two_pow_dw)] at hnat
  have hlt := hc.modulus
  have hmax : (0xFFFF#16).toNat = 65535 := rfl
  omega

theorem readWord_lt_of_unwritten {s : State} {a : Bank} {idx : Nat} (h : s.word a idx = none) :
    s.readWord a idx < 2 ^ s.cfg.dw := by
  rw [State.readWord, h]
  exact Nat.mod_lt _ (Nat.two_pow_pos _)

/-- The ROM word of a table that exists, at an index it has (R30, R78). -/
theorem exec_rdt_of_romWord {s : State} {tbl idx v : Nat} (h : romWord s.cfg tbl idx = some v) :
    exec (.rdt tbl idx) s = .next (s.respond (zext16 v)) := by
  simp [exec, execRdt, h]

/-- Every ROM word is a field element (R24). -/
theorem romWord_lt {c : Config} (hc : c.Legal) {tbl idx v : Nat} (h : romWord c tbl idx = some v) : v < c.q := by
  unfold romWord at h
  split_ifs at h
  split at h <;> cases h
  · exact fwd_lt hc idx
  · exact inv_lt hc idx
  · exact wq_lt hc idx

end Sys2Proof.Machine

open Sys2Proof Sys2Proof.Machine

/-- Settles O5: the idle block decodes the word and runs its command. -/
theorem stepRunsTheDecodedCommand : Obligations.StepRunsTheDecodedCommand := by
  intro s w rest i hseq hin hw
  exact step_of_command hseq hin hw

/-- Settles O7. -/
theorem idleBlockWaits : Obligations.IdleBlockWaits := by
  intro s hseq hin
  exact step_of_wait hseq hin

/-- Settles O8: both a step and a sequencer-level step of a busy block do work of its command only (`drain_frame`). -/
theorem busyBlockAcceptsNothing : Obligations.BusyBlockAcceptsNothing := by
  intro s t q hseq hin h
  rcases h with h | h
  · cases h.symm.trans (step_of_busy hseq hin)
    exact drain_frame _ s
  · cases h.symm.trans (engineTick_of_busy hseq hin)
    exact ⟨s.sequencerStep_inbox q, s.sequencerStep_responses q, s.sequencerStep_status q⟩

/-- Settles O10: the fields of R28's state, and that no word of its banks is written. -/
theorem resetStateHoldsTheResetValues : Obligations.ResetStateHoldsTheResetValues := by
  intro c
  exact ⟨rfl, rfl, rfl, fun b i => Memory.word_unwritten c.n b i, rfl⟩

/-- Settles O11. -/
theorem nopChangesNothing : Obligations.NopChangesNothing := by
  intro s
  rfl

/-- Settles O12: with its operands in range `LDC` is the write of one word (`exec_ldc_of_lt`). -/
theorem ldcWritesOneWord : Obligations.LdcWritesOneWord := by
  intro s d idx imm hc hm hidx himm
  refine ⟨_, exec_ldc_of_lt hc d hidx himm, rfl, ?_, fun b i h => Memory.word_setWord_of_ne _ _ h⟩
  exact Memory.word_setWord_same _ d imm (by rwa [Memory.wf_bank_length hm])

/-- Settles O13. -/
theorem rdcRespondsTheWord : Obligations.RdcRespondsTheWord := by
  intro s a idx v hidx hv
  exact exec_rdc_of_word hidx hv

/-- Settles O14: the response is the free value of the word, which no response changes. -/
theorem rdcOfAnUnwrittenWordRespondsSomeWord : Obligations.RdcOfAnUnwrittenWordRespondsSomeWord := by
  intro s a idx hc hidx hw
  have hlt := readWord_lt_of_unwritten hw
  have hread (s : State) (h : idx < s.cfg.n) : exec (.rdc a idx) s = .next (s.respond (zext16 (s.readWord a idx))) := by
    rw [exec_rdc, if_neg (by omega)]
  refine ⟨zext16 (s.readWord a idx), by rwa [toNat_zext16 hc hlt], hread s hidx, ?_⟩
  refine (hread (s.respond (zext16 (s.readWord a idx))) hidx).trans ?_
  simp [State.respond, State.readWord, State.word]

/-- Settles O15: the tables' entries are R73, R74 and R75's powers by definition. -/
theorem rdtRespondsTheRomWord : Obligations.RdtRespondsTheRomWord := by
  intro s idx hidx
  exact ⟨exec_rdt_of_romWord (if_pos hidx), exec_rdt_of_romWord (if_pos hidx), exec_rdt_of_romWord (if_pos hidx)⟩

/-- Settles O16. -/
theorem rdsRespondsStatus : Obligations.RdsRespondsStatus := by
  intro s
  rfl

/-- Settles O17: bank words by the premise and ROM words by `romWord_lt` are field elements, which are never
`0xFFFF`. -/
theorem fieldElementsAreNeverTheFaultResponse : Obligations.FieldElementsAreNeverTheFaultResponse := by
  refine ⟨fun s t a idx v hc hidx hv hlt h => ?_, fun s t tbl idx hc htbl hidx h => ?_⟩
  · cases h.symm.trans (exec_rdc_of_word hidx hv)
    exact ⟨zext16 v, rfl, zext16_ne_faultResponse hc hlt, toNat_zext16 hc (hlt.trans_le hc.q_le_two_pow_dw)⟩
  · have hrom : romWord s.cfg tbl idx ≠ none := fun hnone => by
      have := (romWord_eq_none_iff ..).1 hnone
      omega
    obtain ⟨v, hv⟩ := Option.ne_none_iff_exists'.1 hrom
    have hlt := romWord_lt hc hv
    have hnat := toNat_zext16 hc (hlt.trans_le hc.q_le_two_pow_dw)
    cases h.symm.trans (exec_rdt_of_romWord hv)
    exact ⟨zext16 v, rfl, zext16_ne_faultResponse hc hlt, by rwa [hnat], by rw [hnat, hv]⟩

/-- Settles O20, over the ways a step can end (`step_effect`): only a command or a refused word touches `STATUS`,
and both only set a bit. -/
theorem flagsAreSticky : Obligations.FlagsAreSticky := by
  intro s t hno h
  cases step_effect h with
  | reset hin => exact absurd hin (hno _)
  | drain => rw [(drain_frame _ s).2.2, BitVec.and_self]
  | wait => exact BitVec.and_self
  | refuse => exact setFlag_and_self s.status .op
  | command _ _ _ heff =>
    rcases heff.status with heq | ⟨e, heq⟩
    · rw [heq]
      exact BitVec.and_self
    · rw [heq]
      exact setFlag_and_self s.status e

/-- Settles O21, from the totality of `exec` and `step`. -/
theorem nothingStopsTheBlock : Obligations.NothingStopsTheBlock := by
  refine ⟨fun i s => ?_, fun s => ?_⟩
  · obtain ⟨t, ht, -⟩ := exists_exec_effect i s
    exact ⟨t, ht⟩
  · obtain ⟨t, ht, -⟩ := exists_step_effect s
    exact ⟨t, ht⟩

end

/-! ## The legal configurations (R6, R7, R75, R81) -/

section
namespace Sys2Proof

/-- The parameters for which R6 and R7 make hardware, stated without the elaboration's functions. -/
structure Config.Params (c : Config) : Prop where
  prime : c.q.Prime
  odd : c.q % 2 = 1
  three_le : 3 ≤ c.q
  q_lt : c.q < 65536
  pow_two : ∃ k, c.n = 2 ^ k
  two_le : 2 ≤ c.n
  n_le : c.n ≤ 256
  n_dvd : (c.q - 1) % c.n = 0
  one_le_w : 1 ≤ c.w
  w_lt : c.w < c.q
  root : c.w ^ (c.n / 2) % c.q = c.q - 1

/-- `W^(N/2) mod Q = Q - 1` in the words of R6. -/
theorem Config.Legal.pow_half_mod {c : Config} (h : c.Legal) : c.w ^ (c.n / 2) % c.q = c.q - 1 := by
  refine Machine.eq_of_natCast_eq (Nat.mod_lt _ h.q_pos) (Machine.q_sub_one_lt h) ?_
  rw [ZMod.natCast_mod, Nat.cast_pow, h.natCast_q_sub_one]
  exact h.pow_h

theorem Config.Legal.params {c : Config} (h : c.Legal) : c.Params where
  prime := h.prime
  odd := h.modulus.1
  three_le := h.modulus.2.1
  q_lt := h.modulus.2.2
  pow_two := ⟨_, h.size.1⟩
  two_le := h.size.2.1
  n_le := h.size.2.2.1
  n_dvd := h.size.2.2.2
  one_le_w := h.root.1
  w_lt := h.root.2
  root := h.pow_half_mod

/-- No check of elaboration refuses such parameters (R81). -/
theorem Config.Params.legal {c : Config} (h : c.Params) : c.Legal := by
  obtain ⟨hprime, hodd, hthree, hlt, ⟨k, hk⟩, htwo, hle, hdvd, hone, hw, hroot⟩ := h
  have hlog : c.n = 2 ^ Nat.log2 c.n := by rw [hk, Nat.log2_two_pow]
  have htrial : Machine.isPrime16 c.q = true := (Machine.isPrime16_iff_prime hlt).2 hprime
  have hmod : c.w % c.q ≠ 0 := by rw [Nat.mod_eq_of_lt hw]; omega
  have hpow : Machine.modPow c.q c.w (c.n / 2) = c.q - 1 := by
    rw [Machine.modPow_eq_pow_mod hprime.two_le, hroot]
  unfold Config.Legal Machine.elabCheck
  rw [if_neg (by omega), if_neg (by omega), if_neg (by simp [hmod, htrial]), if_neg (by omega), if_neg (by simp [hpow])]

theorem Config.legal_iff_params (c : Config) : c.Legal ↔ c.Params := ⟨Config.Legal.params, Config.Params.legal⟩

theorem Config.params_reference : Config.reference.Params where
  prime := by norm_num [Config.reference]
  odd := rfl
  three_le := by decide
  q_lt := by decide
  pow_two := ⟨3, rfl⟩
  two_le := by decide
  n_le := by decide
  n_dvd := rfl
  one_le_w := by decide
  w_lt := by decide
  root := rfl

/-- The square of `W^H = -1` is 1, so the order of `W` divides `2^(L+1)` and not `2^L` (R7). -/
theorem Config.Legal.orderOf_w {c : Config} (h : c.Legal) : orderOf (c.w : ZMod c.q) = c.n := by
  have hfact := Fact.mk Nat.prime_two
  have hne : (c.w : ZMod c.q) ^ 2 ^ c.l ≠ 1 := by
    rw [← h.h_eq, h.pow_h]
    intro hneg
    have hsq : (2 : ZMod c.q) * 0 = 2 * 1 := by linear_combination hneg
    have hzero := Machine.eq_of_natCast_eq (a := 0) (b := 1) h.q_pos h.two_le_q (by
      simpa using h.eq_of_two_mul_eq hsq)
    omega
  rw [h.n_eq]
  exact orderOf_eq_prime_pow hne (by rw [← h.n_eq, h.pow_n])

end Sys2Proof

namespace Sys2Proof.Machine

variable {c : Config}

theorem wn_injOn (hc : c.Legal) {i j : Nat} (hi : i < c.n) (hj : j < c.n) (h : wn c i = wn c j) : i = j := by
  rw [← hc.orderOf_w] at hi hj
  refine pow_injOn_Iio_orderOf hi hj ?_
  simp only [← natCast_wn, h]

theorem brv_l_lt (hc : c.Legal) (i : Nat) : brv i c.l < c.h := by
  rw [hc.h_eq]
  exact brv_lt i c.l

theorem wq_pow_h_mod (hc : c.Legal) (i : Nat) : wq c i ^ c.h % c.q = c.q - 1 := by
  refine eq_of_natCast_eq (Nat.mod_lt _ hc.q_pos) (q_sub_one_lt hc) ?_
  rw [ZMod.natCast_mod, Nat.cast_pow, natCast_wq_pow_h hc, hc.natCast_q_sub_one]

/-- Different indices are reversed to different odd exponents below N. -/
theorem wq_injOn (hc : c.Legal) {i j : Nat} (hi : i < c.h) (hj : j < c.h) (h : wq c i = wq c j) : i = j := by
  have hn := hc.n_eq_two_h
  have hilt := brv_l_lt hc i
  have hjlt := brv_l_lt hc j
  have hexp := wn_injOn hc (by omega) (by omega) h
  rw [hc.h_eq] at hi hj
  rw [← brv_brv hi, ← brv_brv hj]
  congr 1
  omega

/-- The reversals of `2u` and `2u + 1` differ by the top bit, half the table (R75). -/
theorem wq_two_mul_add_one (hc : c.Legal) {u : Nat} (hu : 2 * u + 1 < c.h) :
    wq c (2 * u + 1) = c.q - wq c (2 * u) := by
  obtain ⟨t, ht⟩ : ∃ t, c.l = t + 1 := by
    refine Nat.exists_eq_succ_of_ne_zero fun h0 => ?_
    rw [hc.h_eq, h0] at hu
    omega
  have hodd := brv_two_mul_add (e := 1) (by decide) u t
  have heven := brv_two_mul_add (e := 0) (by decide) u t
  rw [Nat.zero_mul, Nat.add_zero, Nat.add_zero] at heven
  have hexp : 2 * brv (2 * u + 1) c.l + 1 = 2 * brv (2 * u) c.l + 1 + c.h := by
    rw [hc.h_eq, ht, hodd, heven, Nat.pow_succ]
    omega
  rw [wq, wq, hexp, wn_add_h hc]

theorem elaborate_of_legal (hc : c.Legal) : elaborate c = .ok (State.afterReset c) := by
  rw [elaborate, hc]

theorem elaborate_of_not_legal (hc : ¬ c.Legal) : ∃ e, elaborate c = .error e := by
  obtain ⟨e, he⟩ := Option.ne_none_iff_exists'.1 hc
  exact ⟨e, by rw [elaborate, he]⟩

end Sys2Proof.Machine

open Sys2Proof Sys2Proof.Machine

/-- Settles O36. -/
theorem rootHasOrderN : Obligations.RootHasOrderN := by
  intro c hc
  refine ⟨hc.orderOf_w, eq_of_natCast_eq (Nat.mod_lt _ hc.q_pos) hc.two_le_q ?_⟩
  rw [ZMod.natCast_mod, Nat.cast_pow, hc.pow_n, Nat.cast_one]

/-- Settles O31: distinct odd powers of a root of order N, and the wrap of sign at half the table. -/
theorem wrapValuesAreTheRootsOfMinusOne : Obligations.WrapValuesAreTheRootsOfMinusOne := by
  intro c hc
  exact ⟨fun i _ => ⟨wq_lt hc i, wq_pow_h_mod hc i⟩, fun i j hi hj h => wq_injOn hc hi hj h,
    fun u hu => wq_two_mul_add_one hc hu⟩

/-- Settles O35: the checks of elaboration are R6's and R7's conditions (`Config.legal_iff_params`), primality by
trial division and the power by `modPow`. -/
theorem elaborationAcceptsExactlyTheLegalParameters : Obligations.ElaborationAcceptsExactlyTheLegalParameters := by
  intro c legal
  have hiff : legal ↔ c.Params :=
    ⟨fun ⟨h1, h2, h3, h4, h5, h6, h7, h8, h9, h10, h11⟩ => ⟨h1, h2, h3, h4, h5, h6, h7, h8, h9, h10, h11⟩,
      fun ⟨h1, h2, h3, h4, h5, h6, h7, h8, h9, h10, h11⟩ => ⟨h1, h2, h3, h4, h5, h6, h7, h8, h9, h10, h11⟩⟩
  rw [hiff, ← c.legal_iff_params]
  exact ⟨elaborate_of_legal, elaborate_of_not_legal⟩

end

/-! ## The engine's invariant and the range of the written words (R13, R14, R18, R21) -/

section
namespace Sys2Proof.Machine

/-- A property of numbers that the zero word, the ROM words and every output of a unit on such operands have. -/
structure UnitClosed (c : Config) (P : Nat → Prop) : Prop where
  zero : P 0
  fwd : ∀ k, P (fwd c k)
  inv : ∀ k, P (inv c k)
  wq : ∀ k, P (wq c k)
  add : ∀ a b, P a → P b → P (modAdd c a b)
  sub : ∀ a b, P a → P b → P (modSub c a b)
  mul : ∀ a b, P a → P b → P (modMul c a b)
  hlv : ∀ a, P a → P (modHlv c a)

variable {c : Config} {P : Nat → Prop}

/-- R14: the field elements. -/
theorem unitClosed_lt_q (hc : c.Legal) : UnitClosed c (· < c.q) where
  zero := hc.q_pos
  fwd := fwd_lt hc
  inv := inv_lt hc
  wq := wq_lt hc
  add _ _ := modAdd_lt
  sub _ _ := modSub_lt
  mul _ _ := modMul_lt
  hlv _ := modHlv_lt hc

/-- R33, R63: the numbers of DW bits; a unit gives such a number even where its output is unspecified. -/
theorem unitClosed_lt_dw (hc : c.Legal) : UnitClosed c (· < 2 ^ c.dw) where
  zero := Nat.two_pow_pos _
  fwd k := (fwd_lt hc k).trans_le hc.q_le_two_pow_dw
  inv k := (inv_lt hc k).trans_le hc.q_le_two_pow_dw
  wq k := (wq_lt hc k).trans_le hc.q_le_two_pow_dw
  add a b _ _ := by
    by_cases h : a < c.q ∧ b < c.q
    · exact (modAdd_lt h.1 h.2).trans_le hc.q_le_two_pow_dw
    · exact (if_neg h).trans_lt (unspecifiedOutput_lt c .add a b)
  sub a b _ _ := by
    by_cases h : a < c.q ∧ b < c.q
    · exact (modSub_lt h.1 h.2).trans_le hc.q_le_two_pow_dw
    · exact (if_neg h).trans_lt (unspecifiedOutput_lt c .sub a b)
  mul a b _ _ := by
    by_cases h : a < c.q ∧ b < c.q
    · exact (modMul_lt h.1 h.2).trans_le hc.q_le_two_pow_dw
    · exact (if_neg h).trans_lt (unspecifiedOutput_lt c .mul a b)
  hlv a _ := by
    by_cases h : a < c.q
    · exact (modHlv_lt hc h).trans_le hc.q_le_two_pow_dw
    · exact (if_neg h).trans_lt (unspecifiedOutput_lt c .hlv a 0)

theorem UnitClosed.ct (h : UnitClosed c P) {A B W : Nat} (hA : P A) (hB : P B) (hW : P W) :
    P (ct c A B W).1 ∧ P (ct c A B W).2 :=
  ⟨h.add _ _ hA (h.mul _ _ hW hB), h.sub _ _ hA (h.mul _ _ hW hB)⟩

theorem UnitClosed.gs (h : UnitClosed c P) {A B W : Nat} (hA : P A) (hB : P B) (hW : P W) :
    P (gs c A B W).1 ∧ P (gs c A B W).2 :=
  ⟨h.hlv _ (h.add _ _ hA hB), h.hlv _ (h.mul _ _ (h.sub _ _ hA hB) hW)⟩

theorem UnitClosed.pairMul (h : UnitClosed c P) {a0 a1 b0 b1 z : Nat} (ha0 : P a0) (ha1 : P a1) (hb0 : P b0)
    (hb1 : P b1) (hz : P z) : P (pairMul c a0 a1 b0 b1 z).1 ∧ P (pairMul c a0 a1 b0 b1 z).2 :=
  ⟨h.add _ _ (h.mul _ _ ha0 hb0) (h.mul _ _ (h.mul _ _ ha1 hb1) hz),
    h.add _ _ (h.mul _ _ ha0 hb1) (h.mul _ _ ha1 hb0)⟩

theorem coeffAt_of_forall {x : List Nat} (h0 : P 0) (hx : ∀ v ∈ x, P v) (j : Nat) : P (coeffAt x j) := by
  unfold coeffAt
  cases hj : x[j]? with
  | none => exact h0
  | some v => exact hx v (List.mem_of_getElem? hj)

/-- One butterfly in place keeps a property that its function keeps. -/
theorem forall_mem_butterfly {f : Nat → Nat → Nat × Nat} (h0 : P 0)
    (hf : ∀ A B, P A → P B → P (f A B).1 ∧ P (f A B).2) {x : List Nat} (hx : ∀ v ∈ x, P v) (j m : Nat) :
    ∀ v ∈ butterfly f x j m, P v := by
  obtain ⟨hfst, hsnd⟩ := hf _ _ (coeffAt_of_forall h0 hx j) (coeffAt_of_forall h0 hx (j + m))
  intro v hv
  rcases List.mem_or_eq_of_mem_set hv with hv | rfl
  · rcases List.mem_or_eq_of_mem_set hv with hv | rfl
    · exact hx v hv
    · exact hfst
  · exact hsnd

/-- What every step of a loop keeps of a bank's words, the loop keeps. -/
theorem forall_mem_foldl {α : Type} {g : List Nat → α → List Nat}
    (hg : ∀ x p, (∀ v ∈ x, P v) → ∀ v ∈ g x p, P v) (ps : List α) {x : List Nat} (hx : ∀ v ∈ x, P v) :
    ∀ v ∈ ps.foldl g x, P v :=
  List.foldlRecOn ps g hx fun x hx p _ => hg x p hx

theorem UnitClosed.fwdStage (h : UnitClosed c P) (t : Nat) {x : List Nat} (hx : ∀ v ∈ x, P v) :
    ∀ v ∈ fwdStage c t x, P v :=
  forall_mem_foldl (fun _ p hx =>
    forall_mem_butterfly h.zero (fun _ _ hA hB => h.ct hA hB (h.fwd p.k)) hx p.j p.m) _ hx

theorem UnitClosed.invStage (h : UnitClosed c P) (t : Nat) {x : List Nat} (hx : ∀ v ∈ x, P v) :
    ∀ v ∈ invStage c t x, P v :=
  forall_mem_foldl (fun _ p hx =>
    forall_mem_butterfly h.zero (fun _ _ hA hB => h.gs hA hB (h.inv p.k)) hx p.j p.m) _ hx

theorem UnitClosed.nttWords (h : UnitClosed c P) {x : List Nat} (hx : ∀ v ∈ x, P v) : ∀ v ∈ nttWords c x, P v :=
  forall_mem_foldl (fun _ t hx => h.fwdStage t hx) _ hx

theorem UnitClosed.inttWords (h : UnitClosed c P) {x : List Nat} (hx : ∀ v ∈ x, P v) : ∀ v ∈ inttWords c x, P v :=
  forall_mem_foldl (fun _ t hx => h.invStage t hx) _ hx

theorem UnitClosed.pwmWords (h : UnitClosed c P) {x y : List Nat} (hx : ∀ v ∈ x, P v) (hy : ∀ v ∈ y, P v) :
    ∀ v ∈ pwmWords c x y, P v := by
  intro v hv
  obtain ⟨i, -, hv⟩ := List.mem_flatMap.1 hv
  obtain ⟨hfst, hsnd⟩ := h.pairMul (coeffAt_of_forall h.zero hx (2 * i)) (coeffAt_of_forall h.zero hx (2 * i + 1))
    (coeffAt_of_forall h.zero hy (2 * i)) (coeffAt_of_forall h.zero hy (2 * i + 1)) (h.wq i)
  rcases List.mem_cons.1 hv with rfl | hv
  · exact hfst
  · rw [List.mem_singleton.1 hv]
    exact hsnd

theorem forall_mem_zipWith {f : Nat → Nat → Nat} (hf : ∀ a b, P a → P b → P (f a b)) {x y : List Nat}
    (hx : ∀ v ∈ x, P v) (hy : ∀ v ∈ y, P v) : ∀ v ∈ List.zipWith f x y, P v := by
  intro v hv
  rw [← List.map_uncurry_zip_eq_zipWith] at hv
  obtain ⟨⟨a, b⟩, hab, rfl⟩ := List.mem_map.1 hv
  obtain ⟨ha, hb⟩ := List.of_mem_zip hab
  exact hf a b (hx a ha) (hy b hb)

/-- A list of N words with a property. -/
def WordsAll (c : Config) (P : Nat → Prop) (x : List Nat) : Prop := x.length = c.n ∧ ∀ v ∈ x, P v

/-- Every written word has the property. -/
def State.allWords (s : State) (P : Nat → Prop) : Prop := ∀ b i v, s.word b i = some v → P v

variable {s : State}

theorem State.allWords.readBank (hs : s.allWords P) {b : Bank} {x : List Nat} (hx : s.readBank b = some x) :
    WordsAll s.cfg P x := by
  obtain ⟨hlen, hword⟩ := (s.readBank_eq_some_iff b x).1 hx
  refine ⟨hlen, fun v hv => ?_⟩
  obtain ⟨i, hi, rfl⟩ := List.getElem_of_mem hv
  refine hs b i _ ((hword i (hlen ▸ hi)).trans ?_)
  simp [coeffAt, hi]

theorem State.allWords.mapBank (hs : s.allWords P) {a : Bank} {f : List Nat → List Nat} {ws : List Nat}
    (h : s.mapBank a f = some ws) (hf : ∀ x, WordsAll s.cfg P x → WordsAll s.cfg P (f x)) : WordsAll s.cfg P ws := by
  obtain ⟨x, hx, rfl⟩ := Option.map_eq_some_iff.1 h
  exact hf x (hs.readBank hx)

theorem State.allWords.mapBanks (hs : s.allWords P) {a b : Bank} {f : List Nat → List Nat → List Nat}
    {ws : List Nat} (h : s.mapBanks a b f = some ws)
    (hf : ∀ x y, WordsAll s.cfg P x → WordsAll s.cfg P y → WordsAll s.cfg P (f x y)) : WordsAll s.cfg P ws := by
  obtain ⟨x, hx, h⟩ := Option.bind_eq_some_iff.1 h
  obtain ⟨y, hy, rfl⟩ := Option.map_eq_some_iff.1 h
  exact hf x y (hs.readBank hx) (hs.readBank hy)

theorem WordsAll.zipWith {f : Nat → Nat → Nat} (hf : ∀ a b, P a → P b → P (f a b)) {x y : List Nat}
    (hx : WordsAll c P x) (hy : WordsAll c P y) : WordsAll c P (List.zipWith f x y) :=
  ⟨by rw [List.length_zipWith, hx.1, hy.1, min_self], forall_mem_zipWith hf hx.2 hy.2⟩

/-- Whatever the banks' words and the units share, the words a command computes have, and there are N of them. -/
theorem wordsAll_result (hc : s.cfg.Legal) (hP : UnitClosed s.cfg P) (hs : s.allWords P) {i : Instr}
    {ws : List Nat} (h : s.result i = some ws) : WordsAll s.cfg P ws := by
  cases i with
  | nop | ldc | rdc | rdt | rds => cases h
  | ntt d => exact hs.mapBank h fun x ⟨hlen, hx⟩ => ⟨(nttWords_length _ x).trans hlen, hP.nttWords hx⟩
  | intt d => exact hs.mapBank h fun x ⟨hlen, hx⟩ => ⟨(inttWords_length _ x).trans hlen, hP.inttWords hx⟩
  | pwm d a b =>
    exact hs.mapBanks h fun x y ⟨_, hx⟩ ⟨_, hy⟩ =>
      ⟨(pwmWords_length _ x y).trans hc.n_eq_two_h.symm, hP.pwmWords hx hy⟩
  | madd d a b => exact hs.mapBanks h fun x y hx hy => hx.zipWith hP.add hy
  | msub d a b => exact hs.mapBanks h fun x y hx hy => hx.zipWith hP.sub hy
  | mmul d a b => exact hs.mapBanks h fun x y hx hy => hx.zipWith hP.mul hy
  | mhlv d a =>
    exact hs.mapBank h fun x ⟨hlen, hx⟩ =>
      ⟨(List.length_map _).trans hlen, List.forall_mem_map.2 fun v hv => hP.hlv v (hx v hv)⟩
  | fstg d t => exact hs.mapBank h fun x ⟨hlen, hx⟩ => ⟨(fwdStage_length _ t x).trans hlen, hP.fwdStage t hx⟩
  | istg d t => exact hs.mapBank h fun x ⟨hlen, hx⟩ => ⟨(invStage_length _ t x).trans hlen, hP.invStage t hx⟩

/-- A memory in its form holds numbers of DW bits. -/
theorem allWords_of_wf (h : s.coef.wf s.cfg = true) : s.allWords (· < 2 ^ s.cfg.dw) := by
  intro b i v hv
  have hbank := ((bankWf_iff _ _).1 ((Memory.wf_iff _ _).1 h b)).2
  exact hbank v (List.mem_of_getElem? (Option.join_eq_some_iff.1 hv))

/-- R13: a command keeps the memory's form. -/
theorem ExecEffect.wf {i : Instr} {t : State} (h : ExecEffect s i t) (hc : s.cfg.Legal)
    (hm : s.coef.wf s.cfg = true) : t.coef.wf t.cfg = true := by
  rw [h.frame.1]
  cases h with
  | fault => split <;> exact hm
  | respond | idle => exact hm
  | load => exact Memory.wf_setWord hm _ _ (Nat.mod_lt _ (Nat.two_pow_pos _))
  | bank => exact s.wf_finishBank hm _ fun ws hws => wordsAll_result hc (unitClosed_lt_dw hc) (allWords_of_wf hm) hws

theorem State.Inv.of_exec_accept (hs : s.Inv) {i : Instr} {t : State} {rest : List HostInput}
    (h : ExecEffect (s.accept rest) i t) : t.Inv := by
  obtain ⟨hc, hm, hst, hseq⟩ := hs
  obtain ⟨hcfg, hseq', -⟩ := h.frame
  refine ⟨hcfg ▸ hc, h.wf hc hm, ?_, hseq'.trans hseq⟩
  rcases h.status with heq | ⟨e, heq⟩
  · rwa [heq]
  · rw [heq]
    exact statusReserved_setFlag hst e

theorem statusReserved_zero : statusReserved 0#16 = true := by decide

/-- The state right after a reset, whatever was executing, has the invariant. -/
theorem inv_takeReset (hc : s.cfg.Legal) (rest : List HostInput) : (s.takeReset rest).Inv :=
  ⟨hc, Memory.wf_unwritten s.cfg, statusReserved_zero, rfl⟩

theorem inv_afterReset (hc : c.Legal) : (State.afterReset c).Inv :=
  ⟨hc, Memory.wf_unwritten c, statusReserved_zero, rfl⟩

/-- R14: the words a write of one word leaves. -/
theorem State.allWords.writeWord (hs : s.allWords P) (d : Bank) (i : Nat) {v : Nat} (hv : P v) :
    (s.writeWord d i v).allWords P := by
  intro b j w hw
  by_cases hne : b ≠ d ∨ j ≠ i
  · exact hs b j w ((Memory.word_setWord_of_ne _ _ hne).symm.trans hw)
  · obtain ⟨rfl, rfl⟩ : b = d ∧ j = i := by simpa using hne
    simp only [State.word, State.writeWord_coef, Memory.setWord, Memory.word_setBank_same, Option.join_eq_some_iff,
      List.getElem?_set_self'] at hw
    obtain ⟨_, -, hw⟩ := Option.map_eq_some_iff.1 hw
    cases hw
    exact hv

theorem State.allWords.writeBank (hs : s.allWords P) (d : Bank) {ws : List Nat} (hws : ∀ v ∈ ws, P v) :
    (s.writeBank d ws).allWords P := by
  intro b j w hw
  by_cases hb : b = d
  · subst hb
    rw [State.word_writeBank_same] at hw
    exact hws w (List.mem_of_getElem? hw)
  · exact hs b j w ((s.word_writeBank_of_ne ws j hb).symm.trans hw)

/-- R14: a command that reads no unwritten word computes field elements from field elements. -/
theorem ExecEffect.inRange {i : Instr} {t : State} (h : ExecEffect s i t) (hc : s.cfg.Legal) (hs : s.inRange)
    (hadm : s.admits i = true) : t.inRange := by
  have hs' : s.allWords (· < s.cfg.q) := hs
  suffices t.allWords (· < s.cfg.q) by
    rw [← h.frame.1] at this
    exact this
  cases h with
  | fault => split <;> exact hs
  | respond | idle => exact hs
  | load himm => exact hs'.writeWord _ _ ((Nat.mod_le _ _).trans_lt himm)
  | bank hp =>
    rw [admits_of_firstPoint hp, ← result_isSome hp] at hadm
    obtain ⟨ws, hws⟩ := Option.isSome_iff_exists.1 hadm
    rw [hws]
    exact hs'.writeBank _ (wordsAll_result hc (unitClosed_lt_q hc) hs' hws).2

end Sys2Proof.Machine

open Sys2Proof Sys2Proof.Machine

/-- Settles O55, over the ways a step can end; the words a command computes have DW bits even where a unit's output
is unspecified (`unitClosed_lt_dw`). -/
theorem stepKeepsTheEngineInvariant : Obligations.StepKeepsTheEngineInvariant := by
  intro s t hs h
  have ⟨hc, hm, hst, hseq⟩ := hs
  cases step_effect h with
  | reset => exact ⟨inv_takeReset hc _, rfl⟩
  | drain hbusy => cases hseq.symm.trans hbusy
  | wait => exact ⟨hs, rfl⟩
  | refuse => exact ⟨⟨hc, hm, statusReserved_setFlag hst .op, hseq⟩, rfl⟩
  | command _ _ _ heff => exact ⟨hs.of_exec_accept heff, heff.frame.1⟩

/-- Settles O56, with the reference configuration legal by R6's conditions (`Config.params_reference`). -/
theorem resetStateHasTheEngineInvariant : Obligations.ResetStateHasTheEngineInvariant :=
  ⟨inv_afterReset Config.params_reference.legal, fun _ hc => inv_afterReset hc⟩

/-- Settles O57, over the ways a step can end; the units keep the field elements (`unitClosed_lt_q`). -/
theorem stepKeepsWrittenWordsInRange : Obligations.StepKeepsWrittenWordsInRange := by
  intro s t ⟨hc, _, _, hseq⟩ hs hadm h
  cases step_effect h with
  | @reset rest =>
    intro b i v hv
    rw [s.takeReset_word rest] at hv
    cases hv
  | drain hbusy => cases hseq.symm.trans hbusy
  | wait => exact hs
  | refuse => exact hs
  | command _ hin hw heff =>
    rw [State.nextAdmitted, hin] at hadm
    simp only [hw] at hadm
    exact heff.inRange hc hs hadm

end

/-! ## The word-wise commands and `PWM` on banks of field elements (R66 to R69, R96 to R98, R126) -/

section
namespace Sys2Proof.Machine

variable {s : State} {c : Config}

theorem State.mapBank_of_holds {a : Bank} {p : Nat → Nat} (ha : s.holds a p) (f : List Nat → List Nat) :
    s.mapBank a f = some (f (wordsOf s.cfg p)) := by
  rw [State.mapBank, State.readBank_eq_wordsOf ha, Option.map_some]

theorem State.mapBanks_of_holds {a b : Bank} {p r : Nat → Nat} (ha : s.holds a p) (hb : s.holds b r)
    (f : List Nat → List Nat → List Nat) : s.mapBanks a b f = some (f (wordsOf s.cfg p) (wordsOf s.cfg r)) := by
  rw [State.mapBanks, State.readBank_eq_wordsOf ha, State.readBank_eq_wordsOf hb, Option.bind_some, Option.map_some]

theorem getElem?_eq_coeffAt {ws : List Nat} {i : Nat} (hi : i < ws.length) : ws[i]? = some (coeffAt ws i) := by
  simp [coeffAt, hi]

theorem State.word_writeBank_coeffAt (s : State) (d : Bank) {ws : List Nat} {i : Nat} (hi : i < ws.length) :
    (s.writeBank d ws).word d i = some (coeffAt ws i) := by
  rw [s.word_writeBank_same, getElem?_eq_coeffAt hi]

theorem wordsOf_length (c : Config) (p : Nat → Nat) : (wordsOf c p).length = c.n := by simp [wordsOf]

theorem State.word_writeBank_wordsOf (s : State) (d : Bank) (p : Nat → Nat) {i : Nat} (hi : i < s.cfg.n) :
    (s.writeBank d (wordsOf s.cfg p)).word d i = some (p i) := by
  rw [s.word_writeBank_coeffAt d (by rwa [wordsOf_length]), coeffAt_wordsOf p hi]

theorem zipWith_wordsOf (f : Nat → Nat → Nat) (p r : Nat → Nat) :
    List.zipWith f (wordsOf c p) (wordsOf c r) = wordsOf c fun i => f (p i) (r i) := by
  simp [wordsOf, List.zipWith_map, List.zipWith_self]

theorem map_wordsOf (f : Nat → Nat) (p : Nat → Nat) : (wordsOf c p).map f = wordsOf c fun i => f (p i) := by
  simp [wordsOf]

/-- `MSUB` lane by lane (R67). -/
theorem exec_msub_of_holds (d : Bank) {a b : Bank} {p r : Nat → Nat} (ha : s.holds a p) (hb : s.holds b r) :
    exec (.msub d a b) s = .next (s.writeBank d (wordsOf s.cfg fun i => modSub s.cfg (p i) (r i))) := by
  rw [exec, execMsub, State.mapBanks_of_holds ha hb, zipWith_wordsOf, State.finishBank_some]

/-- `MMUL` lane by lane (R68). -/
theorem exec_mmul_of_holds (d : Bank) {a b : Bank} {p r : Nat → Nat} (ha : s.holds a p) (hb : s.holds b r) :
    exec (.mmul d a b) s = .next (s.writeBank d (wordsOf s.cfg fun i => modMul s.cfg (p i) (r i))) := by
  rw [exec, execMmul, State.mapBanks_of_holds ha hb, zipWith_wordsOf, State.finishBank_some]

/-- `MHLV` lane by lane (R69). -/
theorem exec_mhlv_of_holds (d : Bank) {a : Bank} {p : Nat → Nat} (ha : s.holds a p) :
    exec (.mhlv d a) s = .next (s.writeBank d (wordsOf s.cfg fun i => modHlv s.cfg (p i))) := by
  rw [exec, execMhlv, State.mapBank_of_holds ha, map_wordsOf, State.finishBank_some]

/-- R59 with its correction branch. -/
theorem modSub_eq_ite {a b : Nat} (ha : a < c.q) (hb : b < c.q) :
    modSub c a b = if a < b then c.q - (b - a) else a - b := by
  rw [modSub_of_lt ha hb]
  split
  case isTrue h => rw [Nat.mod_eq_of_lt (by omega)]; omega
  case isFalse h => rw [Nat.mod_eq_sub_mod (by omega), Nat.mod_eq_of_lt (by omega)]; omega

/-- The words of slot `i` that `PWM` computes (R97). -/
theorem pwmSlot_wordsOf (hc : c.Legal) (x y : Nat → Nat) {i : Nat} (hi : i < c.h) :
    pwmSlot c (wordsOf c x) (wordsOf c y) i =
      pairMul c (x (2 * i)) (x (2 * i + 1)) (y (2 * i)) (y (2 * i + 1)) (wq c i) := by
  have hn := hc.n_eq_two_h
  rw [pwmSlot, coeffAt_wordsOf x (by omega), coeffAt_wordsOf x (by omega), coeffAt_wordsOf y (by omega),
    coeffAt_wordsOf y (by omega)]

/-- The pair product on field elements, as remainders (R96). -/
theorem pairMul_eq {a0 a1 b0 b1 z : Nat} (ha0 : a0 < c.q) (ha1 : a1 < c.q) (hb0 : b0 < c.q) (hb1 : b1 < c.q)
    (hz : z < c.q) :
    (pairMul c a0 a1 b0 b1 z).1 = (a0 * b0 + a1 * b1 * z) % c.q ∧
      (pairMul c a0 a1 b0 b1 z).2 = (a0 * b1 + a1 * b0) % c.q := by
  have hq : 0 < c.q := by omega
  obtain ⟨hfst, hsnd⟩ := natCast_pairMul ha0 ha1 hb0 hb1 hz
  obtain ⟨hfst_lt, hsnd_lt⟩ := pairMul_lt ha0 ha1 hb0 hb1 hz
  exact ⟨eq_of_natCast_eq hfst_lt (Nat.mod_lt _ hq) (by rw [hfst, ZMod.natCast_mod]; push_cast; rfl),
    eq_of_natCast_eq hsnd_lt (Nat.mod_lt _ hq) (by rw [hsnd, ZMod.natCast_mod]; push_cast; rfl)⟩

end Sys2Proof.Machine

open Sys2Proof Sys2Proof.Machine

/-- Settles O24, from `exec_madd_of_holds`. -/
theorem maddAddsWordByWord : Obligations.MaddAddsWordByWord := by
  intro s d a b x y hx hy
  obtain ⟨t, hexec, hframe, hsum⟩ := exec_madd_of_holds d hx hy
  exact ⟨t, hexec, hframe, fun i hi =>
    (hsum i (hframe.cfg_eq ▸ hi)).1.trans (congrArg some (modAdd_of_lt (hx i hi).2 (hy i hi).2))⟩

/-- Settles O25. -/
theorem msubSubtractsWordByWord : Obligations.MsubSubtractsWordByWord := by
  intro s d a b x y hx hy
  refine ⟨_, exec_msub_of_holds d hx hy, s.onlyBank_writeBank d _, fun i hi => ?_⟩
  rw [s.word_writeBank_wordsOf d _ hi, modSub_eq_ite (hx i hi).2 (hy i hi).2]

/-- Settles O26. -/
theorem mmulMultipliesWordByWord : Obligations.MmulMultipliesWordByWord := by
  intro s d a b x y hx hy
  refine ⟨_, exec_mmul_of_holds d hx hy, s.onlyBank_writeBank d _, fun i hi => ?_⟩
  rw [s.word_writeBank_wordsOf d _ hi, modMul_of_lt (hx i hi).2 (hy i hi).2]

/-- Settles O27: the half is the field element whose double is the operand (`modHlv_of_lt`). -/
theorem mhlvHalvesWordByWord : Obligations.MhlvHalvesWordByWord := by
  intro s d a x hc hx
  refine ⟨_, exec_mhlv_of_holds d hx, s.onlyBank_writeBank d _, fun i hi => ?_⟩
  obtain ⟨hlt, hdouble⟩ := modHlv_of_lt hc.modulus.1 (hx i hi).2
  exact ⟨_, hlt, hdouble, s.word_writeBank_wordsOf d _ hi⟩

/-- Settles O28: halving undoes doubling (`modHlv_modAdd_self`). -/
theorem doublingThenHalvingCopiesTheBank : Obligations.DoublingThenHalvingCopiesTheBank := by
  intro s d a x hc hx
  obtain ⟨t, hadd, hframe, hsum⟩ := exec_madd_of_holds d hx hx
  have hhlv := exec_mhlv_of_holds d hsum
  refine ⟨_, ((execAll_cons_of_next hadd _).trans (execAll_cons_of_next hhlv _)).trans (execAll_nil _),
    hframe.trans (t.onlyBank_writeBank d _), fun i hi => ?_⟩
  have hi' : i < s.cfg.n := hframe.cfg_eq ▸ hi
  have hcopy : modHlv t.cfg (modAdd s.cfg (x i) (x i)) = x i := by
    rw [hframe.cfg_eq, modHlv_modAdd_self hc (hx i hi').2]
  refine ⟨(t.word_writeBank_wordsOf d _ hi).trans (congrArg some hcopy), ?_⟩
  rw [State.writeBank_cfg, hframe.cfg_eq]
  exact (hx i hi').2

/-- Settles O46: slot `i` of the result is the pair product of the sources' slots (`pwmSlot_wordsOf`,
`pairMul_eq`). -/
theorem pwmMultipliesSlotBySlot : Obligations.PwmMultipliesSlotBySlot := by
  intro s d a b x y hc hx hy
  have hn := hc.n_eq_two_h
  have hexec : exec (.pwm d a b) s = .next (s.writeBank d (pwmWords s.cfg (wordsOf s.cfg x) (wordsOf s.cfg y))) := by
    rw [exec, execPwm, State.mapBanks_of_holds hx hy, State.finishBank_some]
  refine ⟨_, hexec, s.onlyBank_writeBank d _, fun i hi => ?_⟩
  have hlen := pwmWords_length s.cfg (wordsOf s.cfg x) (wordsOf s.cfg y)
  obtain ⟨heven, hodd⟩ := coeffAt_pwmWords s.cfg (wordsOf s.cfg x) (wordsOf s.cfg y) hi
  obtain ⟨hfst, hsnd⟩ := pairMul_eq (hx (2 * i) (by omega)).2 (hx (2 * i + 1) (by omega)).2
    (hy (2 * i) (by omega)).2 (hy (2 * i + 1) (by omega)).2 (wq_lt hc i)
  rw [s.word_writeBank_coeffAt d (by omega), s.word_writeBank_coeffAt d (by omega), heven, hodd,
    pwmSlot_wordsOf hc x y hi, hfst, hsnd]
  exact ⟨rfl, rfl⟩

end

/-! ## The stages and the transforms as commands (R82 to R95) -/

section
namespace Sys2Proof.Machine

variable {s : State} {c : Config}

theorem fieldWords_iff_wordsAll {x : List Nat} : FieldWords c x ↔ WordsAll c (· < c.q) x := by
  refine and_congr_right fun hlen => ⟨fun h v hv => ?_, fun h i hi => ?_⟩
  · obtain ⟨i, hi, rfl⟩ := List.getElem_of_mem hv
    simpa [coeffAt, hi] using h i (hlen ▸ hi)
  · exact h _ (List.mem_of_getElem? (getElem?_eq_coeffAt (hlen.symm ▸ hi)))

theorem FieldWords.invStage (hc : c.Legal) (t : Nat) {x : List Nat} (hx : FieldWords c x) :
    FieldWords c (invStage c t x) := by
  obtain ⟨hlen, hx⟩ := fieldWords_iff_wordsAll.1 hx
  exact fieldWords_iff_wordsAll.2 ⟨(invStage_length c t x).trans hlen, (unitClosed_lt_q hc).invStage t hx⟩

theorem FieldWords.inttWords (hc : c.Legal) {x : List Nat} (hx : FieldWords c x) : FieldWords c (inttWords c x) := by
  obtain ⟨hlen, hx⟩ := fieldWords_iff_wordsAll.1 hx
  exact fieldWords_iff_wordsAll.2 ⟨(inttWords_length c x).trans hlen, (unitClosed_lt_q hc).inttWords hx⟩

theorem wordsOf_coeffAt {x : List Nat} (hx : x.length = c.n) : wordsOf c (coeffAt x) = x :=
  (eq_wordsOf hx fun _ _ => rfl).symm

/-- A bank written with field elements holds them. -/
theorem State.holds_writeBank_coeffAt (s : State) (d : Bank) {x : List Nat} (hx : FieldWords s.cfg x) :
    (s.writeBank d x).holds d (coeffAt x) := by
  have h := s.holds_writeBank d hx.2
  rwa [wordsOf_coeffAt hx.1] at h

theorem State.holds.congr {d : Bank} {p r : Nat → Nat} (hp : s.holds d p) (h : ∀ i, i < s.cfg.n → p i = r i) :
    s.holds d r := fun i hi => h i hi ▸ hp i hi

/-- `FSTG` of a stage the transform has (R85). -/
theorem exec_fstg_of_holds {d : Bank} {t : Nat} {x : Nat → Nat} (ht : t < s.cfg.l) (hx : s.holds d x) :
    exec (.fstg d t) s = .next (s.writeBank d (fwdStage s.cfg t (wordsOf s.cfg x))) := by
  rw [exec_fstg, if_neg (by omega), State.mapBank_of_holds hx, State.finishBank_some]

/-- `ISTG` of a stage the transform has (R93). -/
theorem exec_istg_of_holds {d : Bank} {t : Nat} {x : Nat → Nat} (ht : t < s.cfg.l) (hx : s.holds d x) :
    exec (.istg d t) s = .next (s.writeBank d (invStage s.cfg t (wordsOf s.cfg x))) := by
  rw [exec_istg, if_neg (by omega), State.mapBank_of_holds hx, State.finishBank_some]

theorem h_div_two_pow (hc : c.Legal) {t : Nat} (ht : t ≤ c.l) : c.h / 2 ^ t = 2 ^ (c.l - t) := by
  rw [← Nat.shiftRight_eq_div_pow, hc.h_shiftRight ht]

/-- A pair of inverse stage `t` is a pair of the forward stage that it undoes (R93). -/
theorem stagePair_of_inverse (hc : c.Legal) {t b i : Nat} (ht : t < c.l) (hb : b < c.h / 2 ^ (t + 1))
    (hi : i < 2 ^ (t + 1)) :
    StagePair c (c.l - 1 - t) b (b * (2 * 2 ^ (t + 1)) + i) (2 ^ (t + 1)) where
  stage := by omega
  block := by
    rw [h_div_two_pow hc (by omega), show c.l - (t + 1) = c.l - 1 - t by omega] at hb
    exact hb
  dist := by
    congr 1
    omega
  index := ⟨i, hi, rfl⟩

/-- Inverse stage `t` performs the inverse butterfly on each of its pairs (R92). -/
theorem coeffAt_invStage_of_lt (hc : c.Legal) {t b i : Nat} {x : List Nat} (hx : x.length = c.n) (ht : t < c.l)
    (hb : b < c.h / 2 ^ (t + 1)) (hi : i < 2 ^ (t + 1)) :
    let j := b * (2 * 2 ^ (t + 1)) + i
    let r := gs c (coeffAt x j) (coeffAt x (j + 2 ^ (t + 1))) (inv c (c.h - c.h / 2 ^ t + b))
    coeffAt (invStage c t x) j = r.1 ∧ coeffAt (invStage c t x) (j + 2 ^ (t + 1)) = r.2 := by
  have h := coeffAt_invStage hc hx (stagePair_of_inverse hc ht hb hi)
  rwa [show c.l - 1 - (c.l - 1 - t) = t by omega, show c.l - 1 - t + 1 = c.l - t by omega,
    ← h_div_two_pow hc ht.le] at h

/-- The inverse butterfly's results have the doubles of R90. -/
theorem gs_doubles (hc : c.Legal) {A B W : Nat} (hA : A < c.q) (hB : B < c.q) (hW : W < c.q) :
    ((gs c A B W).1 + (gs c A B W).1) % c.q = (A + B) % c.q ∧
      ((gs c A B W).2 + (gs c A B W).2) % c.q = (A + c.q - B) * W % c.q := by
  have hD := modSub_lt hA hB
  obtain ⟨-, hsum⟩ := modHlv_of_lt hc.modulus.1 (modAdd_lt hA hB)
  obtain ⟨-, hprod⟩ := modHlv_of_lt hc.modulus.1 (modMul_lt hD hW)
  refine ⟨hsum.trans (modAdd_of_lt hA hB), hprod.trans ?_⟩
  rw [modMul_of_lt hD hW, modSub_of_lt hA hB, Nat.mod_mul_mod, Nat.add_sub_assoc hB.le]

/-- The forward butterfly's results as remainders (R82). -/
theorem ct_eq {A B W : Nat} (hA : A < c.q) (hB : B < c.q) (hW : W < c.q) :
    (ct c A B W).1 = (A + W * B % c.q) % c.q ∧ (ct c A B W).2 = (A + c.q - W * B % c.q) % c.q := by
  have hT := modMul_lt hW hB
  have hval := modMul_of_lt hW hB
  refine ⟨by rw [ct, modAdd_of_lt hA hT, hval], ?_⟩
  rw [ct, modSub_of_lt hA hT, ← Nat.add_sub_assoc hT.le, hval]

/-- With inverse twiddles the forward butterfly undoes the inverse one. -/
theorem ct_gs (hc : c.Legal) {A B W V : Nat} (hA : A < c.q) (hB : B < c.q) (hW : W < c.q) (hV : V < c.q)
    (hWV : (W : ZMod c.q) * V = 1) : ct c (gs c A B V).1 (gs c A B V).2 W = (A, B) := by
  obtain ⟨hE, hO⟩ := gs_lt hc hA hB hV
  obtain ⟨hsum, hdiff⟩ := two_mul_natCast_gs hc hA hB hV
  obtain ⟨hfst, hsnd⟩ := natCast_ct hE hO hW
  obtain ⟨hfst_lt, hsnd_lt⟩ := ct_lt hE hO hW
  refine Prod.ext (eq_of_natCast_eq hfst_lt hA (hc.eq_of_two_mul_eq ?_))
    (eq_of_natCast_eq hsnd_lt hB (hc.eq_of_two_mul_eq ?_))
  · rw [hfst]
    linear_combination hsum + (W : ZMod c.q) * hdiff + ((A : ZMod c.q) - B) * hWV
  · rw [hsnd]
    linear_combination hsum - (W : ZMod c.q) * hdiff - ((A : ZMod c.q) - B) * hWV

/-- Forward stage `t` undoes inverse stage `L - 1 - t` (R93). -/
theorem fwdStage_invStage (hc : c.Legal) {t : Nat} {x : List Nat} (ht : t < c.l) (hx : FieldWords c x) :
    fwdStage c t (invStage c (c.l - 1 - t) x) = x := by
  have hlen' := (hx.invStage hc (c.l - 1 - t)).1
  obtain ⟨hlen, hlt⟩ := hx
  refine eq_of_coeffAt_eq (by rw [fwdStage_length, invStage_length]) fun k hk => ?_
  obtain ⟨b, j, m, hp, hkj⟩ := exists_stagePair hc ht (hlen ▸ hk)
  obtain ⟨hj, hjm⟩ := hp.lt_n hc
  obtain ⟨hinv, hinv'⟩ := coeffAt_invStage hc hlen hp
  obtain ⟨hfwd, hfwd'⟩ := coeffAt_fwdStage hc hlen' hp
  have hundo := ct_gs hc (hlt j hj) (hlt (j + m) hjm) (fwd_lt hc (2 ^ t + b))
    (inv_lt hc (c.h - 2 ^ (t + 1) + b)) (fwd_mul_inv hc ht hp.block)
  rcases hkj with rfl | rfl
  · rw [hfwd, hinv, hinv', hundo]
  · rw [hfwd', hinv, hinv', hundo]

/-- The inverse stages `0, ..., k - 1`. -/
def invStages (c : Config) (k : Nat) (x : List Nat) : List Nat :=
  (List.range k).foldl (fun y t => invStage c t y) x

theorem inttWords_eq_invStages (c : Config) (x : List Nat) : inttWords c x = invStages c c.l x := rfl

theorem invStages_succ (c : Config) (k : Nat) (x : List Nat) :
    invStages c (k + 1) x = invStage c k (invStages c k x) := by
  simp [invStages, List.range_succ]

theorem FieldWords.invStages (hc : c.Legal) (k : Nat) {x : List Nat} (hx : FieldWords c x) :
    FieldWords c (invStages c k x) := by
  induction k with
  | zero => exact hx
  | succ k ih =>
    rw [invStages_succ]
    exact ih.invStage hc k

/-- The last `k` forward stages undo the first `k` inverse ones. -/
theorem foldl_fwdStage_invStages (hc : c.Legal) {k : Nat} {x : List Nat} (hk : k ≤ c.l) (hx : FieldWords c x) :
    (List.range' (c.l - k) k).foldl (fun y t => fwdStage c t y) (invStages c k x) = x := by
  induction k with
  | zero => rfl
  | succ k ih =>
    have hstage := fwdStage_invStage hc (t := c.l - (k + 1)) (by omega) (hx.invStages hc k)
    rw [show c.l - 1 - (c.l - (k + 1)) = k by omega] at hstage
    rw [List.range'_succ, List.foldl_cons, invStages_succ, hstage, show c.l - (k + 1) + 1 = c.l - k by omega]
    exact ih (by omega)

/-- The forward transform undoes the inverse one (R95). -/
theorem nttWords_inttWords (hc : c.Legal) {x : List Nat} (hx : FieldWords c x) : nttWords c (inttWords c x) = x := by
  have h := foldl_fwdStage_invStages hc le_rfl hx
  rwa [Nat.sub_self, ← List.range_eq_range', ← inttWords_eq_invStages] at h

/-- Every bank of field elements is the transform of the polynomial that the inverse transform computes. -/
theorem forwardTransform_inttWords (hc : c.Legal) {x : List Nat} (hx : FieldWords c x) {i : Nat} (hi : i < c.n) :
    forwardTransform c (coeffAt (inttWords c x)) i = coeffAt x i := by
  rw [← coeffAt_nttWords hc (hx.inttWords hc) hi, nttWords_inttWords hc hx]

/-! ### Stage commands one after the other -/

theorem Memory.setBank_setBank (m : Memory) (b : Bank) (ws ws' : List (Option Nat)) :
    (m.setBank b ws).setBank b ws' = m.setBank b ws' := by
  cases b <;> rfl

theorem State.writeBank_writeBank (s : State) (d : Bank) (ws ws' : List Nat) :
    (s.writeBank d ws).writeBank d ws' = s.writeBank d ws' := by
  simp only [State.writeBank, Memory.setBank_setBank]

theorem State.readBank_writeBank (s : State) (d : Bank) {ws : List Nat} (h : ws.length = s.cfg.n) :
    (s.writeBank d ws).readBank d = some ws :=
  (State.readBank_eq_some_iff _ _ _).2 ⟨h, fun _ hi => s.word_writeBank_coeffAt d (h ▸ hi)⟩

/-- Commands that each replace bank `d` by a function `stage t` of it, one after the other, replace it by the
functions one after the other. -/
theorem execAll_map_stage {cmd : Nat → Instr} {stage : Nat → List Nat → List Nat} {d : Bank} {ts : List Nat}
    (hlen : ∀ t x, (stage t x).length = x.length)
    (hexec : ∀ s', s'.cfg = s.cfg → ∀ t ∈ ts, exec (cmd t) s' = .next (s'.finishBank d (s'.mapBank d (stage t))))
    {ws : List Nat} (hws : ws.length = s.cfg.n) :
    execAll (ts.map cmd) (s.writeBank d ws) = .next (s.writeBank d (ts.foldl (fun y t => stage t y) ws)) := by
  induction ts generalizing ws with
  | nil => rfl
  | cons t ts ih =>
    have hstep : exec (cmd t) (s.writeBank d ws) = .next (s.writeBank d (stage t ws)) := by
      rw [hexec (s.writeBank d ws) rfl t List.mem_cons_self, State.mapBank, s.readBank_writeBank d hws,
        Option.map_some, State.finishBank_some, State.writeBank_writeBank]
    rw [List.map_cons, execAll_cons_of_next hstep, List.foldl_cons]
    exact ih (fun s' hs' t' ht' => hexec s' hs' t' (List.mem_cons_of_mem t ht')) ((hlen t ws).trans hws)

/-- A transform, by its name and its stages: with no stage it does nothing, else it replaces the bank by all the
stages' work (R86, R94). -/
theorem exec_transform_eq_execAll {i : Instr} {cmd : Nat → Instr} {stage : Nat → List Nat → List Nat} {d : Bank}
    (hlen : ∀ t x, (stage t x).length = x.length)
    (hexec : ∀ s', s'.cfg = s.cfg → ∀ t < s.cfg.l,
      exec (cmd t) s' = .next (s'.finishBank d (s'.mapBank d (stage t))))
    (hi : exec i s = if s.cfg.l = 0 then .next s
      else .next (s.finishBank d (s.mapBank d fun x => (List.range s.cfg.l).foldl (fun y t => stage t y) x)))
    (hd : (s.readBank d).isSome = true) :
    exec i s = execAll ((List.range s.cfg.l).map cmd) s := by
  obtain ⟨ws, hws⟩ := Option.isSome_iff_exists.1 hd
  rw [hi]
  rcases hl : s.cfg.l with _ | l
  · rfl
  · have hfirst : exec (cmd 0) s = .next (s.writeBank d (stage 0 ws)) := by
      rw [hexec s rfl 0 (by omega), State.mapBank, hws, Option.map_some, State.finishBank_some]
    have hlen' : (stage 0 ws).length = s.cfg.n := by
      rw [hlen, ((s.readBank_eq_some_iff d ws).1 hws).1]
    have hrest := execAll_map_stage (ts := List.range' 1 l) hlen
      (fun s' hs' t ht => hexec s' hs' t (by have := (List.mem_range'_1.1 ht).2; omega)) hlen'
    rw [if_neg (by omega), List.range_eq_range', List.range'_succ, List.map_cons, execAll_cons_of_next hfirst,
      hrest, State.mapBank, hws, Option.map_some, State.finishBank_some, List.foldl_cons]

end Sys2Proof.Machine

open Sys2Proof Sys2Proof.Machine

/-- Settles O37, pair by pair (`coeffAt_fwdStage`). -/
theorem fstgPerformsTheForwardButterflies : Obligations.FstgPerformsTheForwardButterflies := by
  intro s d t x hc hx ht
  refine ⟨_, exec_fstg_of_holds ht hx, s.onlyBank_writeBank d _, fun b i hb hi => ?_⟩
  intro m j T
  have hp : StagePair s.cfg t b j m := ⟨ht, hb, h_div_two_pow hc ht.le, i, hi, rfl⟩
  obtain ⟨hj, hjm⟩ := hp.lt_n hc
  obtain ⟨hfst, hsnd⟩ := coeffAt_fwdStage hc (wordsOf_length s.cfg x) hp
  obtain ⟨hsum, hdiff⟩ := ct_eq (hx j hj).2 (hx (j + m) hjm).2 (fwd_lt hc (2 ^ t + b))
  have hlen : (fwdStage s.cfg t (wordsOf s.cfg x)).length = s.cfg.n := by rw [fwdStage_length, wordsOf_length]
  rw [s.word_writeBank_coeffAt d (hlen ▸ hj), s.word_writeBank_coeffAt d (hlen ▸ hjm), hfst, hsnd,
    coeffAt_wordsOf x hj, coeffAt_wordsOf x hjm, hsum, hdiff]
  exact ⟨rfl, rfl⟩

/-- Settles O38, pair by pair (`coeffAt_invStage_of_lt`). -/
theorem istgPerformsTheInverseButterflies : Obligations.IstgPerformsTheInverseButterflies := by
  intro s d t x hc hx ht
  refine ⟨_, exec_istg_of_holds ht hx, s.onlyBank_writeBank d _, fun b i hb hi => ?_⟩
  intro m j Wt
  obtain ⟨hj, hjm⟩ := (stagePair_of_inverse hc ht hb hi).lt_n hc
  obtain ⟨hfst, hsnd⟩ := coeffAt_invStage_of_lt hc (wordsOf_length s.cfg x) ht hb hi
  rw [coeffAt_wordsOf x hj, coeffAt_wordsOf x hjm] at hfst hsnd
  obtain ⟨hlt, hlt'⟩ := gs_lt hc (hx j hj).2 (hx (j + m) hjm).2 (inv_lt hc (s.cfg.h - s.cfg.h / 2 ^ t + b))
  obtain ⟨hsum, hdiff⟩ := gs_doubles hc (hx j hj).2 (hx (j + m) hjm).2 (inv_lt hc (s.cfg.h - s.cfg.h / 2 ^ t + b))
  have hlen : (invStage s.cfg t (wordsOf s.cfg x)).length = s.cfg.n := by rw [invStage_length, wordsOf_length]
  exact ⟨_, _, (s.word_writeBank_coeffAt d (hlen ▸ hj)).trans (congrArg some hfst),
    (s.word_writeBank_coeffAt d (hlen ▸ hjm)).trans (congrArg some hsnd), hlt, hlt', hsum, hdiff⟩

/-- Settles O39, for both transforms by `exec_transform_eq_execAll`. -/
theorem transformsAreTheirStagesInOrder : Obligations.TransformsAreTheirStagesInOrder := by
  intro s d hd
  refine ⟨exec_transform_eq_execAll (fwdStage_length s.cfg) (fun s' hs' t ht => ?_) rfl hd,
    exec_transform_eq_execAll (invStage_length s.cfg) (fun s' hs' t ht => ?_) rfl hd⟩
  · rw [exec_fstg, hs', if_neg (by omega)]
  · rw [exec_istg, hs', if_neg (by omega)]

/-- Settles O40: the forward transform at the words of slot `i` (`exec_ntt_of_holds`). -/
theorem nttComputesTheResidues : Obligations.NttComputesTheResidues := by
  intro s d p hc hp
  obtain ⟨t, hexec, hframe, htrans⟩ := exec_ntt_of_holds hc hp
  refine ⟨t, hexec, hframe, fun i hi => ?_⟩
  have hn := hc.n_eq_two_h
  rw [← hframe.cfg_eq] at hn hi
  obtain ⟨heven, -⟩ := htrans (2 * i) (by omega)
  obtain ⟨hodd, -⟩ := htrans (2 * i + 1) (by omega)
  rw [heven, hodd, forwardTransform, forwardTransform, show 2 * i % 2 = 0 by omega, show 2 * i / 2 = i by omega,
    show (2 * i + 1) % 2 = 1 by omega, show (2 * i + 1) / 2 = i by omega]
  exact ⟨rfl, rfl⟩

/-- Settles O42: the inverse stage computes the words the bank held (`invStage_fwdStage`). -/
theorem inverseStageUndoesForwardStage : Obligations.InverseStageUndoesForwardStage := by
  intro s d t x hc hx ht
  have hfield := hx.fieldWords.fwdStage hc ht
  have hinv := exec_istg_of_holds (s := s.writeBank d (fwdStage s.cfg t (wordsOf s.cfg x)))
    (t := s.cfg.l - 1 - t) (by rw [State.writeBank_cfg]; omega) (s.holds_writeBank_coeffAt d hfield)
  rw [State.writeBank_cfg, wordsOf_coeffAt hfield.1, invStage_fwdStage hc ht hx.fieldWords,
    State.writeBank_writeBank] at hinv
  exact ⟨s.writeBank d (wordsOf s.cfg x),
    (execAll_cons_of_next (exec_fstg_of_holds ht hx) _).trans (execAll_cons_of_next hinv _),
    s.onlyBank_writeBank d _, s.holds_writeBank d fun i hi => (hx i hi).2⟩

/-- Settles O43: `INTT` leaves the polynomial whose transform the bank held (`forwardTransform_inttWords`), and
undoes `NTT` (`exec_intt_of_holds`). -/
theorem inttInvertsNtt : Obligations.InttInvertsNtt := by
  intro s d y hc hy
  have hpoly := hy.fieldWords.inttWords hc
  have htrans : ∀ i, i < s.cfg.n → forwardTransform s.cfg (coeffAt (inttWords s.cfg (wordsOf s.cfg y))) i = y i :=
    fun i hi => (forwardTransform_inttWords hc hy.fieldWords hi).trans (coeffAt_wordsOf y hi)
  refine ⟨?_, ?_⟩
  · obtain ⟨t, hintt, hframe, hp⟩ := exec_intt_of_holds hc hpoly.2 (hy.congr fun i hi => (htrans i hi).symm)
    obtain ⟨u, hntt, hframe', hu⟩ := exec_ntt_of_holds (hframe.cfg_eq ▸ hc) hp
    rw [hframe.cfg_eq] at hu
    refine ⟨t, _, hintt, hframe, hp, u, hntt, hu.congr fun i hi => htrans i ?_⟩
    rwa [hframe'.cfg_eq, hframe.cfg_eq] at hi
  · obtain ⟨t, hntt, hframe, ht⟩ := exec_ntt_of_holds hc hy
    rw [← hframe.cfg_eq] at hc ht
    obtain ⟨u, hintt, hframe', hu⟩ :=
      exec_intt_of_holds hc (fun i hi => (hy i (hframe.cfg_eq ▸ hi)).2.trans_eq (by rw [hframe.cfg_eq])) ht
    exact ⟨u, (execAll_cons_of_next hntt _).trans (execAll_cons_of_next hintt _), hframe.trans hframe', hu⟩

end

/-! ## The loop nest of a stage, block by block (R83, R84, R91, R92) -/

section
namespace Sys2Proof.Machine

/-- Point `i` of block `b` of a stage `t` with distance `m` whose first twiddle index is `k₀`. -/
def blockPoint (t m k₀ b i : Nat) : LoopPoint :=
  { t := t, m := m, s := b * (2 * m), j := b * (2 * m) + i, k := k₀ + b }

theorem blockPoints_eq_flatMap (t m B k₀ : Nat) :
    blockPoints t m B (k₀ + ·) = (List.range B).flatMap fun b => (List.range m).map (blockPoint t m k₀ b) := rfl

theorem mem_blockPoints_iff {t m B k₀ : Nat} {p : LoopPoint} :
    p ∈ blockPoints t m B (k₀ + ·) ↔ ∃ b < B, ∃ i < m, p = blockPoint t m k₀ b i := mem_blockPoints

/-- The closed form of a stage's loop fields, as R20 states it. -/
theorem mem_blockPoints_iff_fields {t m B k₀ : Nat} {p : LoopPoint} :
    p ∈ blockPoints t m B (k₀ + ·) ↔
      p.t = t ∧ p.m = m ∧ ∃ b, b < B ∧ p.s = b * (2 * p.m) ∧ p.k = k₀ + b ∧ p.s ≤ p.j ∧ p.j < p.s + p.m := by
  rw [mem_blockPoints_iff]
  constructor
  · rintro ⟨b, hb, i, hi, rfl⟩
    exact ⟨rfl, rfl, b, hb, rfl, rfl, Nat.le_add_right _ i, Nat.add_lt_add_left hi _⟩
  · obtain ⟨t', m', s', j', k'⟩ := p
    dsimp only
    rintro ⟨rfl, rfl, b, hb, rfl, rfl, hle, hlt⟩
    refine ⟨b, hb, j' - b * (2 * m'), by omega, ?_⟩
    rw [blockPoint, Nat.add_sub_of_le hle]

/-- No point of a stage leaves the bank (R20, R32). -/
theorem block_fields_in_range {t m B k₀ n : Nat} (hn : n = B * (2 * m)) {p : LoopPoint}
    (hp : p ∈ blockPoints t m B (k₀ + ·)) :
    p.s % (2 * p.m) = 0 ∧ p.s + 2 * p.m ≤ n ∧ p.s ≤ p.j ∧ p.j < p.s + p.m ∧ p.j + p.m < n ∧ p.k < k₀ + B := by
  obtain ⟨-, rfl, b, hb, hs, hk, hle, hlt⟩ := mem_blockPoints_iff_fields.1 hp
  have hend := block_end_le (D := 2 * p.m) hb
  rw [← hn, ← hs] at hend
  exact ⟨by rw [hs, Nat.mul_mod_left], hend, hle, hlt, by omega, by omega⟩

theorem blockPoints_length (t m B k₀ : Nat) : (blockPoints t m B (k₀ + ·)).length = B * m := by
  simp [blockPoints]

/-- The pairs of a stage are disjoint and cover the bank. -/
theorem perm_flatMap_blockPoints {t m B k₀ n : Nat} (hn : n = B * (2 * m)) :
    ((blockPoints t m B (k₀ + ·)).flatMap fun p => [p.j, p.j + p.m]).Perm (List.range n) := by
  refine (List.perm_ext_iff_of_nodup (List.nodup_flatMap.2 ⟨fun p hp => ?_, ?_⟩) List.nodup_range).2 fun w => ?_
  · obtain ⟨b, -, i, hi, rfl⟩ := mem_blockPoints_iff.1 hp
    simp only [blockPoint, List.nodup_cons, List.mem_singleton, List.not_mem_nil, not_false_eq_true, List.nodup_nil,
      and_true]
    omega
  · refine (blockPoints_apart t m B (k₀ + ·)).imp fun {p p'} h => ?_
    obtain ⟨h1, h2, h3, h4⟩ := h
    simp [Function.onFun, h1.symm, h2.symm, h3.symm, h4.symm]
  · rw [List.mem_range, List.mem_flatMap]
    constructor
    · rintro ⟨p, hp, hw⟩
      obtain ⟨-, -, -, -, hlt, -⟩ := block_fields_in_range hn hp
      rcases List.mem_cons.1 hw with rfl | hw
      · omega
      · rwa [List.mem_singleton.1 hw]
    · intro hw
      rw [hn] at hw
      obtain ⟨b, hb, i, hi, h⟩ := exists_block_index hw
      refine ⟨blockPoint t m k₀ b i, mem_blockPoints_iff.2 ⟨b, hb, i, hi, rfl⟩, ?_⟩
      rcases h with rfl | rfl <;> simp [blockPoint]

variable {c : Config}

/-- Forward stage `t`: `2^t` blocks, twiddle indices from `2^t` on (R83). -/
theorem fwdPoints_eq (hc : c.Legal) {t : Nat} (ht : t ≤ c.l) :
    fwdPoints c t = blockPoints t (2 ^ (c.l - t)) (2 ^ t) (2 ^ t + ·) := by
  rw [fwdPoints_eq_blockPoints, hc.h_shiftRight ht]

/-- Inverse stage `t`: `2^(L-1-t)` blocks, twiddle indices from `H - 2^(L-t)` on (R91). -/
theorem invPoints_eq (hc : c.Legal) {t : Nat} (ht : t < c.l) :
    invPoints c t = blockPoints t (2 ^ (t + 1)) (2 ^ (c.l - (t + 1))) (2 ^ c.l - 2 ^ (c.l - t) + ·) := by
  rw [invPoints_eq_blockPoints, hc.h_shiftRight ht, hc.h_shiftRight ht.le, hc.h_eq, Nat.shiftLeft_eq,
    ← Nat.pow_succ']

/-- The N words as the blocks of inverse stage `t`. -/
theorem n_eq_inverse_blocks (hc : c.Legal) {t : Nat} (ht : t < c.l) :
    c.n = 2 ^ (c.l - (t + 1)) * (2 * 2 ^ (t + 1)) := by
  rw [← Nat.pow_succ', ← Nat.pow_add, hc.n_eq]
  congr 1
  omega

/-- Half a block, and as many twiddles as blocks: each inverse stage begins where the one before it ends (R91). -/
theorem inverse_index_succ {l t : Nat} (ht : t < l) :
    2 ^ l - 2 ^ (l - (t + 1)) = 2 ^ l - 2 ^ (l - t) + 2 ^ (l - (t + 1)) := by
  have hdouble : 2 ^ (l - t) = 2 * 2 ^ (l - (t + 1)) := by
    rw [← Nat.pow_succ']
    congr 1
    omega
  have hle : 2 ^ (l - t) ≤ 2 ^ l := Nat.pow_le_pow_right (by decide) (by omega)
  omega

/-! ### The twiddle index over all stages -/

/-- The stages `0, ..., L - 1` of a transform: stage `t` of `B t` blocks with distance `m t`, the twiddle index
counting on from stage to stage. -/
structure CountingStages (l : Nat) (stage : Nat → List LoopPoint) (m B K : Nat → Nat) : Prop where
  eq : ∀ t < l, stage t = blockPoints t (m t) (B t) (K t + ·)
  pos : ∀ t < l, 0 < m t
  succ : ∀ t < l, K (t + 1) = K t + B t

variable {l : Nat} {stage : Nat → List LoopPoint} {m B K : Nat → Nat}

/-- A stage's indices lie below those of every later stage. -/
theorem CountingStages.le (h : CountingStages l stage m B K) {t t' : Nat} (htt : t < t') (ht' : t' ≤ l) :
    K t + B t ≤ K t' := by
  induction t', htt using Nat.le_induction with
  | base => rw [h.succ t (by omega)]
  | succ t' _ ih =>
    have := ih (by omega)
    rw [h.succ t' (by omega)]
    omega

/-- The stage of an index. -/
theorem CountingStages.exists_stage (h : CountingStages l stage m B K) {k : Nat} (hfirst : K 0 ≤ k) (hlast : k < K l) :
    ∃ t < l, K t ≤ k ∧ k < K t + B t := by
  have hstep : ∀ n ≤ l, k < K n → ∃ t < n, K t ≤ k ∧ k < K t + B t := by
    intro n hn hk
    induction n with
    | zero => omega
    | succ n ih =>
      by_cases hlt : k < K n
      · obtain ⟨t, ht, hmem⟩ := ih (by omega) hlt
        exact ⟨t, by omega, hmem⟩
      · exact ⟨n, by omega, by omega, by rwa [← h.succ n (by omega)]⟩
  exact hstep l le_rfl hlast

theorem CountingStages.mem_iff (h : CountingStages l stage m B K) {p : LoopPoint} :
    p ∈ (List.range l).flatMap stage ↔ ∃ t < l, ∃ b < B t, ∃ i < m t, p = blockPoint t (m t) (K t) b i := by
  simp only [List.mem_flatMap, List.mem_range]
  refine exists_congr fun t => and_congr_right fun ht => ?_
  rw [h.eq t ht, mem_blockPoints_iff]

/-- Two points with one index are of one stage and one block. -/
theorem CountingStages.k_eq_iff (h : CountingStages l stage m B K) {p p' : LoopPoint}
    (hp : p ∈ (List.range l).flatMap stage) (hp' : p' ∈ (List.range l).flatMap stage) :
    p.k = p'.k ↔ p.t = p'.t ∧ p.s = p'.s := by
  obtain ⟨t, ht, b, hb, i, hi, rfl⟩ := h.mem_iff.1 hp
  obtain ⟨t', ht', b', hb', i', hi', rfl⟩ := h.mem_iff.1 hp'
  simp only [blockPoint]
  constructor
  · intro hk
    rcases Nat.lt_trichotomy t t' with hlt | rfl | hlt
    · have := h.le hlt ht'.le
      omega
    · obtain rfl : b = b' := by omega
      exact ⟨rfl, rfl⟩
    · have := h.le hlt ht.le
      omega
  · rintro ⟨rfl, hs⟩
    have hm := h.pos t ht
    rw [Nat.eq_of_mul_eq_mul_right (by omega) hs]

theorem CountingStages.exists_k_iff (h : CountingStages l stage m B K) (k : Nat) :
    (∃ p ∈ (List.range l).flatMap stage, p.k = k) ↔ K 0 ≤ k ∧ k < K l := by
  constructor
  · rintro ⟨p, hp, rfl⟩
    obtain ⟨t, ht, b, hb, i, -, rfl⟩ := h.mem_iff.1 hp
    have hlast := h.le ht le_rfl
    have hfirst : K 0 ≤ K t := by
      rcases Nat.eq_zero_or_pos t with rfl | hpos
      · exact le_rfl
      · have := h.le hpos ht.le
        omega
    simp only [blockPoint]
    omega
  · rintro ⟨hfirst, hlast⟩
    obtain ⟨t, ht, hle, hlt⟩ := h.exists_stage hfirst hlast
    refine ⟨blockPoint t (m t) (K t) (k - K t) 0, h.mem_iff.2 ⟨t, ht, _, by omega, 0, h.pos t ht, rfl⟩, ?_⟩
    simp only [blockPoint]
    omega

theorem pairwise_k_blockPoints (t m B k₀ : Nat) :
    (blockPoints t m B (k₀ + ·)).Pairwise fun p p' => p.k ≤ p'.k := by
  refine List.pairwise_flatMap.2 ⟨fun b _ => ?_, List.pairwise_lt_range.imp fun {b b'} hb p hp p' hp' => ?_⟩
  · exact List.pairwise_map.2 (List.pairwise_of_forall fun _ _ => le_rfl)
  · obtain ⟨i, -, rfl⟩ := List.mem_map.1 hp
    obtain ⟨i', -, rfl⟩ := List.mem_map.1 hp'
    dsimp only
    omega

theorem CountingStages.pairwise_k (h : CountingStages l stage m B K) :
    (((List.range l).flatMap stage).map LoopPoint.k).Pairwise (· ≤ ·) := by
  refine List.pairwise_map.2 (List.pairwise_flatMap.2 ⟨fun t ht => ?_, ?_⟩)
  · rw [h.eq t (List.mem_range.1 ht)]
    exact pairwise_k_blockPoints _ _ _ _
  · refine List.pairwise_lt_range.imp_of_mem fun {t t'} ht ht' hlt p hp p' hp' => ?_
    rw [List.mem_range] at ht ht'
    rw [h.eq t ht, mem_blockPoints_iff] at hp
    rw [h.eq t' ht', mem_blockPoints_iff] at hp'
    obtain ⟨b, hb, i, -, rfl⟩ := hp
    obtain ⟨b', hb', i', -, rfl⟩ := hp'
    have := h.le hlt ht'.le
    simp only [blockPoint]
    omega

theorem countingStages_fwdPoints (hc : c.Legal) :
    CountingStages c.l (fwdPoints c) (fun t => 2 ^ (c.l - t)) (fun t => 2 ^ t) (fun t => 2 ^ t) where
  eq _ ht := fwdPoints_eq hc ht.le
  pos _ _ := Nat.two_pow_pos _
  succ t _ := by rw [Nat.pow_succ]; omega

theorem countingStages_invPoints (hc : c.Legal) :
    CountingStages c.l (invPoints c) (fun t => 2 ^ (t + 1)) (fun t => 2 ^ (c.l - (t + 1)))
      (fun t => 2 ^ c.l - 2 ^ (c.l - t)) where
  eq _ ht := invPoints_eq hc ht
  pos _ _ := Nat.two_pow_pos _
  succ _ ht := inverse_index_succ ht

end Sys2Proof.Machine

open Sys2Proof Sys2Proof.Machine

/-- Settles O44, for the stages of both transforms by `CountingStages`. -/
theorem twiddleIndexCountsUpOncePerBlock : Obligations.TwiddleIndexCountsUpOncePerBlock := by
  intro c hc
  have hfwd := countingStages_fwdPoints hc
  have hinv := countingStages_invPoints hc
  refine ⟨⟨hfwd.pairwise_k, fun k => ?_, fun p hp p' hp' => hfwd.k_eq_iff hp hp'⟩,
    ⟨hinv.pairwise_k, fun k => ?_, fun p hp p' hp' => hinv.k_eq_iff hp hp'⟩⟩
  · rw [hc.h_eq]
    exact hfwd.exists_k_iff k
  · have h := hinv.exists_k_iff k
    rwa [Nat.sub_zero, Nat.sub_self, Nat.sub_self, pow_zero, ← hc.h_eq] at h

/-- Settles O45: the pairs of a stage are disjoint and cover the bank (`perm_flatMap_blockPoints`). -/
theorem stageTouchesEveryWordOnce : Obligations.StageTouchesEveryWordOnce := by
  intro c t hc ht
  rw [fwdPoints_eq hc ht.le, invPoints_eq hc ht]
  refine ⟨⟨?_, perm_flatMap_blockPoints (hc.n_eq_blocks ht.le)⟩, ?_,
    perm_flatMap_blockPoints (n_eq_inverse_blocks hc ht)⟩
  · rw [blockPoints_length, ← Nat.pow_add, hc.h_eq, Nat.add_sub_of_le ht.le]
  · rw [blockPoints_length, ← Nat.pow_add, hc.h_eq, Nat.sub_add_cancel ht]

end

/-! ## The points a command's loop visits, in order (R20, R21, R86, R94) -/

section
namespace Sys2Proof.Machine

/-- The loop that starts at `o` and goes on with `next` passes the points of the list, in order, and then is at
`o'`. -/
def Visits (next : LoopPoint → Option LoopPoint) :
    Option LoopPoint → List LoopPoint → Option LoopPoint → Prop
  | o, [], o' => o = o'
  | o, p :: ps, o' => o = some p ∧ Visits next (next p) ps o'

variable {next : LoopPoint → Option LoopPoint}

theorem Visits.append {ps qs : List LoopPoint} {o o' o'' : Option LoopPoint} (h : Visits next o ps o')
    (h' : Visits next o' qs o'') : Visits next o (ps ++ qs) o'' := by
  induction ps generalizing o with
  | nil =>
    obtain rfl : o = o' := h
    exact h'
  | cons p ps ih => exact ⟨h.1, ih h.2⟩

theorem Visits.flatMap_range {f : Nat → List LoopPoint} {o : Nat → Option LoopPoint} {n : Nat}
    (h : ∀ b < n, Visits next (o b) (f b) (o (b + 1))) : Visits next (o 0) ((List.range n).flatMap f) (o n) := by
  induction n with
  | zero => rfl
  | succ n ih =>
    rw [List.range_succ, List.flatMap_append, List.flatMap_singleton]
    exact (ih fun b hb => h b (by omega)).append (h n (by omega))

theorem Visits.map_range {f : Nat → LoopPoint} {o : Nat → Option LoopPoint} {n : Nat}
    (h : ∀ i < n, o i = some (f i) ∧ next (f i) = o (i + 1)) : Visits next (o 0) ((List.range n).map f) (o n) := by
  rw [← List.flatMap_pure_eq_map]
  exact Visits.flatMap_range h

theorem Visits.mem_of_start {p : LoopPoint} {ps : List LoopPoint} (h : Visits next (some p) ps none) : p ∈ ps := by
  cases ps with
  | nil => cases h
  | cons p' ps =>
    cases h.1
    exact List.mem_cons_self

/-- A loop that ends with its list stays in it. -/
theorem Visits.next_mem {o : Option LoopPoint} {ps : List LoopPoint} (h : Visits next o ps none) {p p' : LoopPoint}
    (hp : p ∈ ps) (hnext : next p = some p') : p' ∈ ps := by
  induction ps generalizing o with
  | nil => cases hp
  | cons r ps ih =>
    obtain ⟨-, h⟩ := h
    rcases List.mem_cons.1 hp with rfl | hp
    · rw [hnext] at h
      exact List.mem_cons_of_mem _ h.mem_of_start
    · exact List.mem_cons_of_mem _ (ih h hp)

/-! ### One stage -/

variable {c : Config} {t m B k₀ : Nat}

theorem nextInStage_blockPoint_of_lt {b i : Nat} (hi : i + 1 < m) :
    nextInStage c (blockPoint t m k₀ b i) = some (blockPoint t m k₀ b (i + 1)) := by
  rw [nextInStage, if_pos (by simp only [blockPoint]; omega)]
  rfl

theorem nextInStage_blockPoint_last {b i : Nat} (hn : c.n = B * (2 * m)) (hi : i + 1 = m) (hb : b + 1 < B) :
    nextInStage c (blockPoint t m k₀ b i) = some (blockPoint t m k₀ (b + 1) 0) := by
  have hend := block_end_le (D := 2 * m) hb
  have hsucc := Nat.add_one_mul b (2 * m)
  rw [nextInStage, if_neg (by simp only [blockPoint]; omega), if_pos (by simp only [blockPoint]; omega)]
  simp only [blockPoint, hsucc, Nat.add_zero, Nat.add_assoc]

theorem nextInStage_blockPoint_end {b i : Nat} (hn : c.n = B * (2 * m)) (hi : i + 1 = m) (hb : b + 1 = B) :
    nextInStage c (blockPoint t m k₀ b i) = none := by
  have hsucc := Nat.add_one_mul b (2 * m)
  rw [← hb] at hn
  rw [nextInStage, if_neg (by simp only [blockPoint]; omega), if_neg (by simp only [blockPoint]; omega)]

/-- The loop passes a stage block by block, and goes on with what follows the stage's last point. -/
theorem visits_blockPoints {after : LoopPoint → Option LoopPoint} (hm : 0 < m) (hB : 0 < B)
    (hn : c.n = B * (2 * m)) (hnext : ∀ p, next p = (nextInStage c p).or (after p)) :
    Visits next (some (blockPoint t m k₀ 0 0)) (blockPoints t m B (k₀ + ·))
      (after (blockPoint t m k₀ (B - 1) (m - 1))) := by
  rw [blockPoints_eq_flatMap]
  have hstage := Visits.flatMap_range (next := next) (n := B)
    (f := fun b => (List.range m).map (blockPoint t m k₀ b))
    (o := fun b => if b < B then some (blockPoint t m k₀ b 0) else after (blockPoint t m k₀ (B - 1) (m - 1)))
    fun b hb => ?_
  · simpa only [if_pos hB, if_neg (Nat.lt_irrefl B)] using hstage
  · have hblock := Visits.map_range (next := next) (n := m) (f := blockPoint t m k₀ b)
      (o := fun i => if i < m then some (blockPoint t m k₀ b i)
        else if b + 1 < B then some (blockPoint t m k₀ (b + 1) 0) else after (blockPoint t m k₀ (B - 1) (m - 1)))
      fun i hi => ⟨if_pos hi, ?_⟩
    · simpa only [if_pos hm, if_neg (Nat.lt_irrefl m), if_pos hb] using hblock
    · rw [hnext]
      by_cases hi' : i + 1 < m
      · rw [nextInStage_blockPoint_of_lt hi', if_pos hi', Option.some_or]
      · by_cases hb' : b + 1 < B
        · rw [nextInStage_blockPoint_last hn (by omega) hb', if_neg hi', if_pos hb', Option.some_or]
        · rw [nextInStage_blockPoint_end hn (by omega) (by omega), if_neg hi', if_neg hb', Option.none_or,
            show B - 1 = b by omega, show m - 1 = i by omega]

/-- The loop passes the stages of a transform, each followed by the first point of the next. -/
theorem CountingStages.visits {l : Nat} {stage : Nat → List LoopPoint} {m B K : Nat → Nat}
    (h : CountingStages l stage m B K) {after : LoopPoint → Option LoopPoint} (hB : ∀ t < l, 0 < B t)
    (hn : ∀ t < l, c.n = B t * (2 * m t)) (hnext : ∀ p, next p = (nextInStage c p).or (after p))
    (hafter : ∀ t < l, after (blockPoint t (m t) (K t) (B t - 1) (m t - 1)) =
      if t + 1 < l then some (blockPoint (t + 1) (m (t + 1)) (K (t + 1)) 0 0) else none) :
    Visits next (if 0 < l then some (blockPoint 0 (m 0) (K 0) 0 0) else none) ((List.range l).flatMap stage) none := by
  have hstages := Visits.flatMap_range (next := next) (n := l) (f := stage)
    (o := fun t => if t < l then some (blockPoint t (m t) (K t) 0 0) else none) fun t ht => ?_
  · simpa only [if_neg (Nat.lt_irrefl l)] using hstages
  · rw [if_pos ht, h.eq t ht, ← hafter t ht]
    exact visits_blockPoints (h.pos t ht) (hB t ht) (hn t ht) hnext

/-! ### Every command -/

/-- The points of a word-wise command or of `PWM`. -/
def itemPoint (j : Nat) : LoopPoint := { t := 0, m := 0, s := 0, j := j, k := 0 }

/-- The loop points a command passes, by the closed forms of R83 and R91. -/
def loopPoints (c : Config) : Instr → List LoopPoint
  | .nop => []
  | .ldc _ _ _ => []
  | .rdc _ _ => []
  | .rdt _ _ => []
  | .rds => []
  | .ntt _ => (List.range c.l).flatMap (fwdPoints c)
  | .intt _ => (List.range c.l).flatMap (invPoints c)
  | .pwm _ _ _ => (List.range c.h).map itemPoint
  | .madd _ _ _ => (List.range c.n).map itemPoint
  | .msub _ _ _ => (List.range c.n).map itemPoint
  | .mmul _ _ _ => (List.range c.n).map itemPoint
  | .mhlv _ _ => (List.range c.n).map itemPoint
  | .fstg _ t => if t < c.l then fwdPoints c t else []
  | .istg _ t => if t < c.l then invPoints c t else []

theorem visits_items {count : Nat} (hpos : 0 < count) :
    Visits (nextItem count) (some (itemPoint 0)) ((List.range count).map itemPoint) none := by
  have h := Visits.map_range (next := nextItem count) (n := count) (f := itemPoint)
    (o := fun j => if j < count then some (itemPoint j) else none) fun j hj => ⟨if_pos hj, rfl⟩
  simpa only [if_pos hpos, if_neg (Nat.lt_irrefl count)] using h

theorem visits_ntt (hc : c.Legal) (d : Bank) :
    Visits (nextPoint c (.ntt d)) (firstPoint c (.ntt d)) (loopPoints c (.ntt d)) none := by
  have hfirst : firstPoint c (.ntt d) = if 0 < c.l then some (blockPoint 0 (2 ^ (c.l - 0)) (2 ^ 0) 0 0) else none := by
    have hn : c.n / 2 = 2 ^ c.l := hc.h_eq
    rcases Nat.eq_zero_or_pos c.l with hl | hl
    · simp [firstPoint, hl]
    · simp [firstPoint, hl, hl.ne', blockPoint, hn]
  rw [hfirst]
  refine (countingStages_fwdPoints hc).visits (c := c) (fun t _ => Nat.two_pow_pos t)
    (fun t ht => hc.n_eq_blocks ht.le) (fun p => rfl) fun t ht => ?_
  have hhalf : 2 ^ (c.l - t) / 2 = 2 ^ (c.l - (t + 1)) := by
    rw [show c.l - t = c.l - (t + 1) + 1 by omega, Nat.pow_succ, Nat.mul_div_cancel _ (by decide)]
  have hindex : 2 ^ t + (2 ^ t - 1) + 1 = 2 ^ (t + 1) := by
    have := Nat.two_pow_pos t
    rw [Nat.pow_succ]
    omega
  by_cases hlast : t + 1 < c.l
  · have hne : c.l - (t + 1) ≠ 0 := by omega
    simp [blockPoint, hhalf, hindex, hlast, hne]
  · simp [blockPoint, hhalf, show c.l - (t + 1) = 0 by omega, hlast]

theorem visits_intt (hc : c.Legal) (d : Bank) :
    Visits (nextPoint c (.intt d)) (firstPoint c (.intt d)) (loopPoints c (.intt d)) none := by
  have hfirst : firstPoint c (.intt d) =
      if 0 < c.l then some (blockPoint 0 (2 ^ (0 + 1)) (2 ^ c.l - 2 ^ (c.l - 0)) 0 0) else none := by
    rcases Nat.eq_zero_or_pos c.l with hl | hl
    · simp [firstPoint, hl]
    · simp [firstPoint, hl, hl.ne', blockPoint]
  rw [hfirst]
  refine (countingStages_invPoints hc).visits (c := c) (fun t _ => Nat.two_pow_pos _)
    (fun t ht => n_eq_inverse_blocks hc ht) (fun p => rfl) fun t ht => ?_
  have hn : c.n / 2 = 2 ^ c.l := hc.h_eq
  have hdouble : 2 * 2 ^ (t + 1) = 2 ^ (t + 1 + 1) := by rw [← Nat.pow_succ']
  have hindex : 2 ^ c.l - 2 ^ (c.l - t) + (2 ^ (c.l - (t + 1)) - 1) + 1 = 2 ^ c.l - 2 ^ (c.l - (t + 1)) := by
    have := Nat.two_pow_pos (c.l - (t + 1))
    rw [inverse_index_succ ht]
    omega
  by_cases hlast : t + 1 < c.l
  · have hle : 2 ^ (t + 1 + 1) ≤ 2 ^ c.l := Nat.pow_le_pow_right (by decide) (by omega)
    simp [blockPoint, hn, hdouble, hindex, hlast, hle]
  · have hgt : ¬ 2 ^ (t + 1 + 1) ≤ 2 ^ c.l := by
      rw [not_le]
      exact Nat.pow_lt_pow_right (by decide) (by omega)
    simp [blockPoint, hn, hdouble, hlast, hgt]

theorem visits_fstg (hc : c.Legal) (d : Bank) (t : Nat) :
    Visits (nextPoint c (.fstg d t)) (firstPoint c (.fstg d t)) (loopPoints c (.fstg d t)) none := by
  by_cases ht : t < c.l
  · have hfirst : firstPoint c (.fstg d t) = some (blockPoint t (2 ^ (c.l - t)) (2 ^ t) 0 0) := by
      simp [firstPoint, stageOk, ht, blockPoint, hc.h_shiftRight ht.le]
    rw [hfirst, loopPoints, if_pos ht, fwdPoints_eq hc ht.le]
    exact visits_blockPoints (after := fun _ => none) (Nat.two_pow_pos _) (Nat.two_pow_pos _)
      (hc.n_eq_blocks ht.le) fun p => (Option.or_none).symm
  · simp [firstPoint, loopPoints, stageOk, ht, Visits]

theorem visits_istg (hc : c.Legal) (d : Bank) (t : Nat) :
    Visits (nextPoint c (.istg d t)) (firstPoint c (.istg d t)) (loopPoints c (.istg d t)) none := by
  by_cases ht : t < c.l
  · have hfirst : firstPoint c (.istg d t) =
        some (blockPoint t (2 ^ (t + 1)) (2 ^ c.l - 2 ^ (c.l - t)) 0 0) := by
      have hshift := hc.h_shiftRight ht.le
      rw [hc.h_eq] at hshift
      simp [firstPoint, stageOk, ht, blockPoint, hshift, hc.h_eq, Nat.shiftLeft_eq, Nat.pow_succ']
    rw [hfirst, loopPoints, if_pos ht, invPoints_eq hc ht]
    exact visits_blockPoints (after := fun _ => none) (Nat.two_pow_pos _) (Nat.two_pow_pos _)
      (n_eq_inverse_blocks hc ht) fun p => (Option.or_none).symm
  · simp [firstPoint, loopPoints, stageOk, ht, Visits]

/-- R21: the sequencer passes exactly the points of the closed forms, and then is idle. -/
theorem visits_loopPoints (hc : c.Legal) (i : Instr) :
    Visits (nextPoint c i) (firstPoint c i) (loopPoints c i) none := by
  have hn : 0 < c.n := by have := hc.size.2.1; omega
  have hh : 0 < c.h := by have := hc.n_eq_two_h; omega
  cases i with
  | nop | ldc | rdc | rdt | rds => rfl
  | ntt d => exact visits_ntt hc d
  | intt d => exact visits_intt hc d
  | pwm => exact visits_items hh
  | madd | msub | mmul | mhlv => exact visits_items hn
  | fstg d t => exact visits_fstg hc d t
  | istg d t => exact visits_istg hc d t

/-! ### The closed form is membership in the command's points -/

theorem mem_fwdPoints_iff {p : LoopPoint} :
    p ∈ fwdPoints c t ↔ p.t = t ∧ p.m = c.h >>> t ∧
      ∃ b, b < 2 ^ t ∧ p.s = b * (2 * p.m) ∧ p.k = 2 ^ t + b ∧ p.s ≤ p.j ∧ p.j < p.s + p.m := by
  rw [fwdPoints_eq_blockPoints]
  exact mem_blockPoints_iff_fields

theorem mem_invPoints_iff {p : LoopPoint} :
    p ∈ invPoints c t ↔ p.t = t ∧ p.m = 2 <<< t ∧
      ∃ b, b < c.h >>> (t + 1) ∧ p.s = b * (2 * p.m) ∧ p.k = c.h - (c.h >>> t) + b ∧ p.s ≤ p.j ∧
        p.j < p.s + p.m := by
  rw [invPoints_eq_blockPoints]
  exact mem_blockPoints_iff_fields

/-- Whether a command is a transform or one stage of a transform. -/
def isStageCommand : Instr → Bool
  | .ntt _ => true
  | .intt _ => true
  | .fstg _ _ => true
  | .istg _ _ => true
  | _ => false

theorem ok_iff_mem_loopPoints {q : Sequencer} (hi : isStageCommand q.cmd = true) :
    q.Ok c ↔ q.point ∈ loopPoints c q.cmd := by
  obtain ⟨i, p, draw⟩ := q
  cases i with
  | ntt d =>
    simp only [Sequencer.Ok, loopPoints, List.mem_flatMap, List.mem_range, mem_fwdPoints_iff]
    exact ⟨fun ⟨ht, h⟩ => ⟨p.t, ht, rfl, h⟩, fun ⟨t, ht, htp, h⟩ => htp ▸ ⟨htp ▸ ht, htp ▸ h⟩⟩
  | intt d =>
    simp only [Sequencer.Ok, loopPoints, List.mem_flatMap, List.mem_range, mem_invPoints_iff]
    exact ⟨fun ⟨ht, h⟩ => ⟨p.t, ht, rfl, h⟩, fun ⟨t, ht, htp, h⟩ => htp ▸ ⟨htp ▸ ht, htp ▸ h⟩⟩
  | fstg d t =>
    by_cases ht : t < c.l
    · simp only [Sequencer.Ok, loopPoints, if_pos ht, mem_fwdPoints_iff]
      exact and_congr_right fun htp => by simp [htp, ht]
    · simp only [Sequencer.Ok, loopPoints, if_neg ht, List.not_mem_nil, iff_false]
      rintro ⟨rfl, h, -⟩
      exact ht h
  | istg d t =>
    by_cases ht : t < c.l
    · simp only [Sequencer.Ok, loopPoints, if_pos ht, mem_invPoints_iff]
      exact and_congr_right fun htp => by simp [htp, ht]
    · simp only [Sequencer.Ok, loopPoints, if_neg ht, List.not_mem_nil, iff_false]
      rintro ⟨rfl, h, -⟩
      exact ht h
  | _ => cases hi

theorem j_lt_of_nextItem {count : Nat} {p p' : LoopPoint} (h : nextItem count p = some p') : p'.j < count := by
  unfold nextItem at h
  split_ifs at h with hlt
  cases h
  exact hlt

/-- R20: what loading the sequencer leaves in it has the closed form. -/
theorem ok_of_firstPoint (hc : c.Legal) {i : Instr} {p : LoopPoint} (hp : firstPoint c i = some p)
    (draw : Option Nat) : Sequencer.Ok c ⟨i, p, draw⟩ := by
  have hn : 0 < c.n := by have := hc.size.2.1; omega
  have hh : 0 < c.h := by have := hc.n_eq_two_h; omega
  have hmem : p ∈ loopPoints c i := by
    have h := visits_loopPoints hc i
    rw [hp] at h
    exact h.mem_of_start
  cases i with
  | nop | ldc | rdc | rdt | rds => cases hp
  | pwm =>
    cases hp
    exact hh
  | madd | msub | mmul | mhlv =>
    cases hp
    exact hn
  | ntt | intt | fstg | istg => exact (ok_iff_mem_loopPoints rfl).2 hmem

/-- R20, R83, R91: counting on from a point with the closed form gives one. -/
theorem ok_of_nextPoint (hc : c.Legal) {q : Sequencer} (hq : q.Ok c) {p : LoopPoint}
    (hp : nextPoint c q.cmd q.point = some p) : Sequencer.Ok c { q with point := p } := by
  have hnext : isStageCommand q.cmd = true → Sequencer.Ok c { q with point := p } := fun hi =>
    (ok_iff_mem_loopPoints (q := { q with point := p }) hi).2
      ((visits_loopPoints hc q.cmd).next_mem ((ok_iff_mem_loopPoints hi).1 hq) hp)
  obtain ⟨i, p₀, draw⟩ := q
  cases i with
  | nop | ldc | rdc | rdt | rds => cases hp
  | pwm | madd | msub | mmul | mhlv => exact j_lt_of_nextItem hp
  | ntt | intt | fstg | istg => exact hnext rfl

/-- R20's ranges of the loop fields of a transform or stage command, with no index outside the bank or the ROM. -/
def LoopPoint.InRange (c : Config) (p : LoopPoint) : Prop :=
  p.t < c.l ∧ (∃ e, p.m = 2 ^ e) ∧ 2 ≤ p.m ∧ p.m ≤ c.n / 2 ∧ p.s % (2 * p.m) = 0 ∧ p.s + 2 * p.m ≤ c.n ∧
    p.s ≤ p.j ∧ p.j < p.s + p.m ∧ p.j + p.m < c.n ∧ p.k < c.h

theorem LoopPoint.InRange.pair_lt {p : LoopPoint} (h : p.InRange c) : p.j + p.m < c.n := by
  obtain ⟨-, -, -, -, -, -, -, -, hlt, -⟩ := h
  exact hlt

/-- R20: the ranges of the fields at the points of forward stage `t`. -/
theorem fwdPoints_in_range (hc : c.Legal) (ht : t < c.l) {p : LoopPoint} (hp : p ∈ fwdPoints c t) : p.InRange c := by
  rw [fwdPoints_eq hc ht.le] at hp
  obtain ⟨hmod, hend, hle, hlt, hjm, hk⟩ := block_fields_in_range (hc.n_eq_blocks ht.le) hp
  obtain ⟨hpt, hpm, -⟩ := mem_blockPoints_iff_fields.1 hp
  have hm : 2 ^ 1 ≤ 2 ^ (c.l - t) := Nat.pow_le_pow_right (by decide) (by omega)
  have hh : 2 ^ t + 2 ^ t ≤ c.h := by
    rw [hc.h_eq, ← Nat.two_mul, ← Nat.pow_succ']
    exact Nat.pow_le_pow_right (by decide) ht
  exact ⟨hpt ▸ ht, ⟨_, hpm⟩, hpm ▸ hm, by omega, hmod, hend, hle, hlt, hjm, by omega⟩

/-- R20: the ranges of the fields at the points of inverse stage `t`. -/
theorem invPoints_in_range (hc : c.Legal) (ht : t < c.l) {p : LoopPoint} (hp : p ∈ invPoints c t) : p.InRange c := by
  rw [invPoints_eq hc ht] at hp
  obtain ⟨hmod, hend, hle, hlt, hjm, hk⟩ := block_fields_in_range (n_eq_inverse_blocks hc ht) hp
  obtain ⟨hpt, hpm, -⟩ := mem_blockPoints_iff_fields.1 hp
  have hm : 2 ^ 1 ≤ 2 ^ (t + 1) := Nat.pow_le_pow_right (by decide) (by omega)
  have hh : 2 ^ c.l - 2 ^ (c.l - t) + 2 ^ (c.l - (t + 1)) ≤ c.h := by
    rw [hc.h_eq, ← inverse_index_succ ht]
    exact Nat.sub_le _ _
  exact ⟨hpt ▸ ht, ⟨_, hpm⟩, hpm ▸ hm, by omega, hmod, hend, hle, hlt, hjm, by omega⟩

theorem inRange_of_mem_loopPoints (hc : c.Legal) {i : Instr} (hi : isStageCommand i = true) {p : LoopPoint}
    (hp : p ∈ loopPoints c i) : p.InRange c := by
  cases i with
  | ntt d =>
    obtain ⟨t, ht, hp⟩ := List.mem_flatMap.1 hp
    exact fwdPoints_in_range hc (List.mem_range.1 ht) hp
  | intt d =>
    obtain ⟨t, ht, hp⟩ := List.mem_flatMap.1 hp
    exact invPoints_in_range hc (List.mem_range.1 ht) hp
  | fstg d t =>
    rw [loopPoints, List.mem_ite_nil_right] at hp
    exact fwdPoints_in_range hc hp.1 hp.2
  | istg d t =>
    rw [loopPoints, List.mem_ite_nil_right] at hp
    exact invPoints_in_range hc hp.1 hp.2
  | _ => cases hi

/-! ### The sequencer-level step -/

theorem engineTick_of_wait {s : State} (hseq : s.seq = none) (hin : s.inbox = []) : engineTick s = .next s := by
  simp [engineTick, hseq, hin]

variable {s : State} {w : CommandWord} {rest : List HostInput}

theorem engineTick_of_decode_error {r : DecodeError} (hseq : s.seq = none) (hin : s.inbox = .command w :: rest)
    (hw : decode w = .error r) : engineTick s = .next ((s.accept rest).raise .op) := by
  simp [engineTick, hseq, hin, State.startWord, hw]

/-- R21: a multi-step command that passes its checks loads the sequencer. -/
theorem engineTick_of_firstPoint {i : Instr} {p : LoopPoint} (hseq : s.seq = none)
    (hin : s.inbox = .command w :: rest) (hw : decode w = .ok i) (hp : firstPoint s.cfg i = some p) :
    engineTick s = .next ((s.accept rest).loadSequencer i p) := by
  simp [engineTick, hseq, hin, State.startWord, hw, hp]

theorem engineTick_of_firstPoint_none {i : Instr} (hseq : s.seq = none) (hin : s.inbox = .command w :: rest)
    (hw : decode w = .ok i) (hp : firstPoint s.cfg i = none) : engineTick s = exec i (s.accept rest) := by
  simp [engineTick, hseq, hin, State.startWord, hw, hp]

theorem State.loadSequencer_frame (s : State) (i : Instr) (p : LoopPoint) :
    (s.loadSequencer i p).cfg = s.cfg ∧ (s.loadSequencer i p).inbox = s.inbox ∧
      ∃ draw, (s.loadSequencer i p).seq = some ⟨i, p, draw⟩ := by
  rcases s.loadSequencer_cases i p with ⟨-, h⟩ | ⟨-, h⟩ <;> rw [h] <;> exact ⟨rfl, rfl, _, rfl⟩

/-- What one sequencer-level step can do. -/
inductive TickEffect (s : State) : State → Prop where
  /-- R124: a reset, also in the middle of a command. -/
  | reset {rest : List HostInput} (hin : s.inbox = .reset :: rest) : TickEffect s (s.takeReset rest)
  /-- R21: one butterfly, pair or word of the command in execution. -/
  | work {q : Sequencer} (hseq : s.seq = some q) (hin : ∀ rest, s.inbox ≠ .reset :: rest) :
      TickEffect s (s.sequencerStep q)
  /-- R122: no input. -/
  | wait (hseq : s.seq = none) (hin : s.inbox = []) : TickEffect s s
  /-- R109: a word that is no command. -/
  | refuse {w : CommandWord} {rest : List HostInput} {r : DecodeError} (hseq : s.seq = none)
      (hin : s.inbox = .command w :: rest) (hw : decode w = .error r) : TickEffect s ((s.accept rest).raise .op)
  /-- R21: a multi-step command accepted. -/
  | load {w : CommandWord} {rest : List HostInput} {i : Instr} {p : LoopPoint} (hseq : s.seq = none)
      (hin : s.inbox = .command w :: rest) (hw : decode w = .ok i) (hp : firstPoint s.cfg i = some p) :
      TickEffect s ((s.accept rest).loadSequencer i p)
  /-- R21: any other command, completely. -/
  | complete {w : CommandWord} {rest : List HostInput} {i : Instr} {t : State} (hseq : s.seq = none)
      (hin : s.inbox = .command w :: rest) (hw : decode w = .ok i) (hp : firstPoint s.cfg i = none)
      (h : ExecEffect (s.accept rest) i t) : TickEffect s t

/-- Inversion of `engineTick`. -/
theorem engineTick_effect {s t : State} (h : engineTick s = .next t) : TickEffect s t := by
  rcases hin : s.inbox with _ | ⟨w | _, rest⟩
  case cons.reset =>
    cases h.symm.trans (engineTick_of_reset hin)
    exact .reset hin
  all_goals
    rcases hseq : s.seq with _ | q
    case some =>
      have hno : ∀ rest, s.inbox ≠ .reset :: rest := by simp [hin]
      cases h.symm.trans (engineTick_of_busy hseq hno)
      exact .work hseq hno
  case nil.none =>
    cases h.symm.trans (engineTick_of_wait hseq hin)
    exact .wait hseq hin
  case cons.command.none =>
    cases hw : decode w with
    | error r =>
      cases h.symm.trans (engineTick_of_decode_error hseq hin hw)
      exact .refuse hseq hin hw
    | ok i =>
      cases hp : firstPoint s.cfg i with
      | none =>
        rw [engineTick_of_firstPoint_none hseq hin hw hp] at h
        exact .complete hseq hin hw hp (exec_effect h)
      | some p =>
        cases h.symm.trans (engineTick_of_firstPoint hseq hin hw hp)
        exact .load hseq hin hw hp

/-- A busy block has just loaded its command's first point, or has counted on from the point before. -/
theorem TickEffect.seq_cases {s t : State} (h : TickEffect s t) {q : Sequencer} (hq : t.seq = some q) :
    t.cfg = s.cfg ∧
      ((∃ q₀ p, s.seq = some q₀ ∧ nextPoint s.cfg q₀.cmd q₀.point = some p ∧ q = { q₀ with point := p }) ∨
        ∃ i p draw, firstPoint s.cfg i = some p ∧ q = ⟨i, p, draw⟩) := by
  cases h with
  | reset => cases hq
  | @work q₀ hseq =>
    obtain ⟨p, hp, rfl⟩ := Option.map_eq_some_iff.1 hq
    exact ⟨s.sequencerStep_cfg q₀, .inl ⟨q₀, p, hseq, hp, rfl⟩⟩
  | wait hseq | refuse hseq => cases hseq.symm.trans hq
  | @load _ rest i p _ _ _ hp =>
    obtain ⟨hcfg, -, draw, hload⟩ := (s.accept rest).loadSequencer_frame i p
    exact ⟨hcfg, .inr ⟨i, p, draw, hp, Option.some.inj (hq.symm.trans hload)⟩⟩
  | complete hseq _ _ _ heff =>
    obtain ⟨-, hseq', -⟩ := heff.frame
    cases (hseq'.trans hseq).symm.trans hq

end Sys2Proof.Machine

open Sys2Proof Sys2Proof.Machine

/-- Settles O59: the closed form is membership in the list of points that the counters pass
(`visits_loopPoints`). -/
theorem sequencerKeepsTheClosedForm : Obligations.SequencerKeepsTheClosedForm := by
  intro s t hc hok h q hq
  obtain ⟨hcfg, ⟨q₀, p, hseq, hp, rfl⟩ | ⟨i, p, draw, hp, rfl⟩⟩ := (engineTick_effect h).seq_cases hq
  · rw [hcfg]
    exact ok_of_nextPoint hc (hok q₀ hseq) hp
  · rw [hcfg]
    exact ok_of_firstPoint hc hp draw

/-- Settles O60: the fields stand at a point of the command (`ok_iff_mem_loopPoints`), where their ranges are known
stage by stage. -/
theorem sequencerIndicesStayInRange : Obligations.SequencerIndicesStayInRange := by
  intro c q d t hc hok hcmd
  have hi : isStageCommand q.cmd = true := by rcases hcmd with h | h | h | h <;> rw [h] <;> rfl
  exact inRange_of_mem_loopPoints hc hi ((ok_iff_mem_loopPoints hi).1 hok)

end

/-! ## The sequencer's steps refine the atomic command (R21, R22) -/

section
namespace Sys2Proof.Machine

/-! ### `SEQ` is a function of the command words and N -/

/-- The inputs and the `SEQ` that a sequencer-level step leaves, from those it finds. -/
def nextSeq (c : Config) : List HostInput → Option (Instr × LoopPoint) → List HostInput × Option (Instr × LoopPoint)
  | .reset :: rest, _ => (rest, none)
  | inbox, some (i, p) => (inbox, (nextPoint c i p).map fun p' => (i, p'))
  | .command w :: rest, none => (rest, (decode w).toOption.bind fun i => (firstPoint c i).map fun p => (i, p))
  | [], none => ([], none)

theorem nextSeq_of_busy (c : Config) {inbox : List HostInput} (h : ∀ rest, inbox ≠ .reset :: rest) (i : Instr)
    (p : LoopPoint) : nextSeq c inbox (some (i, p)) = (inbox, (nextPoint c i p).map fun p' => (i, p')) := by
  rcases inbox with _ | ⟨_ | _, rest⟩
  case cons.reset => exact absurd rfl (h rest)
  all_goals rfl

theorem seqTuple_of_idle {s : State} (h : s.seq = none) : s.seqTuple = none := by rw [State.seqTuple, h]; rfl

/-- R21: the inputs and `SEQ` after a sequencer-level step are `nextSeq` of those before it. -/
theorem TickEffect.nextSeq {s t : State} (h : TickEffect s t) :
    (t.inbox, t.seqTuple) = nextSeq s.cfg s.inbox s.seqTuple := by
  cases h with
  | reset hin =>
    rw [hin]
    rfl
  | @work q hseq hin =>
    have htuple : s.seqTuple = some (q.cmd, q.point) := by rw [State.seqTuple, hseq]; rfl
    rw [State.sequencerStep_inbox, State.sequencerStep_seqTuple, htuple, nextSeq_of_busy _ hin]
  | wait hseq hin =>
    rw [seqTuple_of_idle hseq, hin]
    rfl
  | @refuse _ rest _ hseq hin hw =>
    rw [seqTuple_of_idle hseq, seqTuple_of_idle (s := (s.accept rest).raise .op) hseq, hin, Machine.nextSeq, hw]
    rfl
  | @load _ rest i p hseq hin hw hp =>
    obtain ⟨-, hin', -⟩ := (s.accept rest).loadSequencer_frame i p
    rw [seqTuple_of_idle hseq, State.loadSequencer_seqTuple, hin', hin, Machine.nextSeq, hw]
    simp [Except.toOption, hp]
  | complete hseq hin hw hp heff =>
    obtain ⟨-, hseq', hin', -⟩ := heff.frame
    rw [seqTuple_of_idle hseq, seqTuple_of_idle (hseq'.trans hseq), hin', hin, Machine.nextSeq, hw]
    simp [Except.toOption, hp]

/-- R21: of the configuration, `SEQ` depends on N alone. -/
theorem nextSeq_congr {c c' : Config} (h : c'.n = c.n) : nextSeq c' = nextSeq c := by
  obtain ⟨q, n, w⟩ := c
  obtain ⟨q', n', w'⟩ := c'
  obtain rfl : n' = n := h
  have hnext : nextPoint ⟨q', n', w'⟩ = nextPoint ⟨q, n', w⟩ := by
    funext i p
    cases i <;> rfl
  have hfirst : firstPoint ⟨q', n', w'⟩ = firstPoint ⟨q, n', w⟩ := by
    funext i
    cases i <;> rfl
  funext inbox tuple
  unfold nextSeq
  rw [hnext, hfirst]

/-! ### Running a loaded command to its end -/

/-- The work of one point of a command. -/
def pointWork (i : Instr) (draw : Option Nat) (s : State) (p : LoopPoint) : State :=
  s.bodyAt { cmd := i, point := p, draw := draw }

/-- A point's work neither reads nor writes `SEQ`. -/
theorem pointWork_setSeq (i : Instr) (draw : Option Nat) (s : State) (x : Option Sequencer) (p : LoopPoint) :
    pointWork i draw { s with seq := x } p = { pointWork i draw s p with seq := x } := by
  cases draw <;> cases i <;> rfl

theorem foldl_pointWork_setSeq (i : Instr) (draw : Option Nat) (ps : List LoopPoint) (s : State)
    (x : Option Sequencer) :
    ps.foldl (pointWork i draw) { s with seq := x } = { ps.foldl (pointWork i draw) s with seq := x } := by
  induction ps generalizing s with
  | nil => rfl
  | cons p ps ih => rw [List.foldl_cons, pointWork_setSeq, ih, List.foldl_cons]

theorem State.setSeq_self {s : State} {x : Option Sequencer} (h : s.seq = x) : { s with seq := x } = s := by
  subst h
  rfl

theorem engineTicks_succ_of_next {s t : State} (h : engineTick s = .next t) (k : Nat) :
    engineTicks (k + 1) s = engineTicks k t := by
  rw [engineTicks, h]

/-- R21, R22: a busy block does the work of the points still to come, one a step, busy all the while, and then is
idle. -/
theorem engineTicks_of_visits {i : Instr} {draw : Option Nat} {p : LoopPoint} {ps : List LoopPoint} {s : State}
    (hin : ∀ rest, s.inbox ≠ .reset :: rest) (hseq : s.seq = some ⟨i, p, draw⟩)
    (h : Visits (nextPoint s.cfg i) (some p) ps none) :
    engineTicks ps.length s = .next { ps.foldl (pointWork i draw) s with seq := none } ∧
      ∀ j < ps.length, ∃ t, engineTicks j s = .next t ∧ t.busy = true := by
  induction ps generalizing s p with
  | nil => cases h
  | cons p' ps ih =>
    obtain ⟨hp, h⟩ := h
    obtain rfl : p = p' := Option.some.inj hp
    have htick := engineTick_of_busy hseq hin
    have hstep : s.sequencerStep ⟨i, p, draw⟩ =
        { pointWork i draw s p with seq := (nextPoint s.cfg i p).map fun p => ⟨i, p, draw⟩ } := rfl
    rw [hstep] at htick
    have hbusy : ∃ t, engineTicks 0 s = .next t ∧ t.busy = true :=
      ⟨s, rfl, by rw [State.busy, State.cmdReady, hseq]; rfl⟩
    rw [List.length_cons, engineTicks_succ_of_next htick, List.foldl_cons]
    cases hnext : nextPoint s.cfg i p with
    | none =>
      obtain rfl : ps = [] := by
        rw [hnext] at h
        cases ps with
        | nil => rfl
        | cons => cases h.1
      refine ⟨rfl, fun j hj => ?_⟩
      obtain rfl : j = 0 := by simpa using hj
      exact hbusy
    | some p' =>
      rw [hnext] at h htick
      have hcfg : (pointWork i draw s p).cfg = s.cfg := s.bodyAt_cfg _
      obtain ⟨hend, hrun⟩ := ih (s := { pointWork i draw s p with seq := some ⟨i, p', draw⟩ })
        (fun rest => (s.bodyAt_inbox _).trans_ne (hin rest)) rfl (by rwa [hcfg])
      rw [foldl_pointWork_setSeq] at hend
      refine ⟨hend, fun j hj => ?_⟩
      cases j with
      | zero => exact hbusy
      | succ j =>
        rw [engineTicks_succ_of_next htick]
        exact hrun j (by omega)

/-! ### The points' work on written sources: stages, in place -/

theorem Memory.setBank_bank_self (m : Memory) (b : Bank) : m.setBank b (m.bank b) = m := by cases b <;> rfl

variable {s : State} {d : Bank}

/-- A written bank of a memory in its form is its words. -/
theorem bank_of_readBank (hm : s.coef.wf s.cfg = true) {x : List Nat} (hx : s.readBank d = some x) :
    s.coef.bank d = x.map some := by
  obtain ⟨hlen, hword⟩ := (s.readBank_eq_some_iff d x).1 hx
  refine List.ext_getElem? fun i => ?_
  by_cases hi : i < s.cfg.n
  · rw [List.getElem?_map, getElem?_eq_coeffAt (hlen ▸ hi)]
    exact Option.join_eq_some_iff.1 (hword i hi)
  · rw [List.getElem?_eq_none (by rw [Memory.wf_bank_length hm]; omega),
      List.getElem?_eq_none (by rw [List.length_map]; omega)]

theorem writeBank_of_readBank (hm : s.coef.wf s.cfg = true) {x : List Nat} (hx : s.readBank d = some x) :
    s.writeBank d x = s := by
  rw [State.writeBank, ← bank_of_readBank hm hx, Memory.setBank_bank_self]

theorem readWord_of_readBank {b : Bank} {x : List Nat} (hx : s.readBank b = some x) {i : Nat} (hi : i < s.cfg.n) :
    s.readWord b i = coeffAt x i := by
  rw [State.readWord, ((s.readBank_eq_some_iff b x).1 hx).2 i hi, Option.getD_some]

theorem readWord_writeBank (s : State) (d : Bank) {x : List Nat} {i : Nat} (hi : i < x.length) :
    (s.writeBank d x).readWord d i = coeffAt x i := by
  rw [State.readWord, s.word_writeBank_coeffAt d hi, Option.getD_some]

theorem Memory.setWord_setBank (m : Memory) (d : Bank) (ws : List (Option Nat)) (i v : Nat) :
    (m.setBank d ws).setWord d i v = m.setBank d (ws.set i (some v)) := by
  rw [Memory.setWord, Memory.bank_setBank_same, Memory.setBank_setBank]

theorem writeWord_writeBank (s : State) (d : Bank) (x : List Nat) (i v : Nat) :
    (s.writeBank d x).writeWord d i v = s.writeBank d (x.set i v) := by
  simp only [State.writeWord, State.writeBank, Memory.setWord_setBank, List.map_set]

/-- One butterfly of the sequencer on a bank's words (R37). -/
theorem butterflyAt_writeBank (s : State) (d : Bank) (f : Nat → Nat → Nat × Nat) {x : List Nat} {p : LoopPoint}
    (hp : p.j + p.m < x.length) :
    (s.writeBank d x).butterflyAt none d f p = s.writeBank d (butterfly f x p.j p.m) := by
  simp only [State.butterflyAt, State.writeResult_none, readWord_writeBank s d hp,
    readWord_writeBank s d (show p.j < x.length by omega), writeWord_writeBank, butterfly]

/-- A stage command's points, one after the other, do to the bank what the list of butterflies does to its words. -/
theorem foldl_pointWork_writeBank {i : Instr} {g : List Nat → LoopPoint → List Nat} {ps : List LoopPoint}
    (hlen : ∀ x p, (g x p).length = x.length)
    (hwork : ∀ x p, p.j + p.m < x.length → pointWork i none (s.writeBank d x) p = s.writeBank d (g x p))
    {x : List Nat} (hin : ∀ p ∈ ps, p.j + p.m < x.length) :
    ps.foldl (pointWork i none) (s.writeBank d x) = s.writeBank d (ps.foldl g x) := by
  induction ps generalizing x with
  | nil => rfl
  | cons p ps ih =>
    rw [List.foldl_cons, List.foldl_cons, hwork x p (hin p List.mem_cons_self)]
    exact ih fun p' hp' => (hin p' (List.mem_cons_of_mem p hp')).trans_eq (hlen x p).symm

/-- A stage command on a written bank ends with the words its list of butterflies computes. -/
theorem foldl_pointWork_stage {i : Instr} {g : List Nat → LoopPoint → List Nat} {x : List Nat}
    (hm : s.coef.wf s.cfg = true) (hc : s.cfg.Legal) (hi : isStageCommand i = true)
    (hlen : ∀ x p, (g x p).length = x.length)
    (hwork : ∀ x p, p.j + p.m < x.length → pointWork i none (s.writeBank d x) p = s.writeBank d (g x p))
    (hx : s.readBank d = some x) :
    (loopPoints s.cfg i).foldl (pointWork i none) s = s.writeBank d ((loopPoints s.cfg i).foldl g x) := by
  have hlen_x := ((s.readBank_eq_some_iff d x).1 hx).1
  have h := foldl_pointWork_writeBank hlen hwork (x := x) fun p hp =>
    hlen_x ▸ (inRange_of_mem_loopPoints hc hi hp).pair_lt
  rwa [writeBank_of_readBank hm hx] at h

/-- The forward commands (R85, R86). -/
theorem foldl_pointWork_forward {i : Instr} {x : List Nat} (hm : s.coef.wf s.cfg = true) (hc : s.cfg.Legal)
    (hi : i = .ntt d ∨ ∃ t, i = .fstg d t) (hx : s.readBank d = some x) :
    (loopPoints s.cfg i).foldl (pointWork i none) s =
      s.writeBank d ((loopPoints s.cfg i).foldl (fwdButterfly s.cfg) x) := by
  refine foldl_pointWork_stage hm hc ?_ (fun _ _ => butterfly_length _ _ _ _) (fun x p hp => ?_) hx
  · rcases hi with rfl | ⟨t, rfl⟩ <;> rfl
  · rcases hi with rfl | ⟨t, rfl⟩ <;>
      exact butterflyAt_writeBank s d (fun A B => ct s.cfg A B (fwd s.cfg p.k)) hp

/-- The inverse commands (R93, R94). -/
theorem foldl_pointWork_inverse {i : Instr} {x : List Nat} (hm : s.coef.wf s.cfg = true) (hc : s.cfg.Legal)
    (hi : i = .intt d ∨ ∃ t, i = .istg d t) (hx : s.readBank d = some x) :
    (loopPoints s.cfg i).foldl (pointWork i none) s =
      s.writeBank d ((loopPoints s.cfg i).foldl (invButterfly s.cfg) x) := by
  refine foldl_pointWork_stage hm hc ?_ (fun _ _ => butterfly_length _ _ _ _) (fun x p hp => ?_) hx
  · rcases hi with rfl | ⟨t, rfl⟩ <;> rfl
  · rcases hi with rfl | ⟨t, rfl⟩ <;>
      exact butterflyAt_writeBank s d (fun A B => gs s.cfg A B (inv s.cfg p.k)) hp

/-! ### The points' work on written sources: `PWM` and the word-wise commands, whose destination may be a source -/

/-- The state in which the first `k` words of bank `d` are those of `ws` already. -/
def State.partBank (s : State) (d : Bank) (ws : List Nat) (k : Nat) : State :=
  { s with coef := s.coef.setBank d ((ws.map some).take k ++ (s.coef.bank d).drop k) }

theorem partBank_zero (s : State) (d : Bank) (ws : List Nat) : s.partBank d ws 0 = s := by
  rw [State.partBank, List.take_zero, List.drop_zero, List.nil_append, Memory.setBank_bank_self]

theorem partBank_full (hm : s.coef.wf s.cfg = true) {ws : List Nat} (hws : ws.length = s.cfg.n) :
    s.partBank d ws s.cfg.n = s.writeBank d ws := by
  rw [State.partBank, List.take_of_length_le (by rw [List.length_map, hws]),
    List.drop_of_length_le (Memory.wf_bank_length hm d).le, List.append_nil]
  rfl

theorem writeWord_partBank (hm : s.coef.wf s.cfg = true) {ws : List Nat} (hws : ws.length = s.cfg.n) {k : Nat}
    (hk : k < s.cfg.n) : (s.partBank d ws k).writeWord d k (coeffAt ws k) = s.partBank d ws (k + 1) := by
  have hbank := Memory.wf_bank_length hm d
  have hlist : ((ws.map some).take k ++ (s.coef.bank d).drop k).set k (some (coeffAt ws k)) =
      (ws.map some).take (k + 1) ++ (s.coef.bank d).drop (k + 1) := by
    have hval : (ws.map some)[k]? = some (some (coeffAt ws k)) := by
      rw [List.getElem?_map, getElem?_eq_coeffAt (hws ▸ hk), Option.map_some]
    rw [List.set_append_right _ _ (by rw [List.length_take]; exact min_le_left _ _), List.length_take,
      List.length_map, hws, min_eq_left hk.le, Nat.sub_self, List.drop_eq_getElem_cons (hbank ▸ hk), List.set_cons_zero,
      List.take_add_one, hval]
    simp
  simp only [State.writeWord, State.partBank, Memory.setWord_setBank, hlist]

/-- A word not reached yet is read as it was. -/
theorem readWord_partBank (s : State) (d b : Bank) {ws : List Nat} {k j : Nat} (hk : k ≤ ws.length) (hj : k ≤ j) :
    (s.partBank d ws k).readWord b j = s.readWord b j := by
  have hword : (s.partBank d ws k).word b j = s.word b j := by
    by_cases hb : b = d
    · subst hb
      have hlen : ((ws.map some).take k).length = k := by rw [List.length_take, List.length_map, min_eq_left hk]
      simp only [State.word, State.partBank, Memory.word, Memory.bank_setBank_same]
      rw [List.getElem?_append_right (by omega), hlen, List.getElem?_drop, Nat.add_sub_of_le hj]
    · exact Memory.word_setBank_of_ne _ _ _ hb
  rw [State.readWord, hword]
  rfl

theorem foldl_pointWork_items {i : Instr} {draw : Option Nat} {S : Nat → State} {count : Nat}
    (h : ∀ k < count, pointWork i draw (S k) (itemPoint k) = S (k + 1)) :
    ((List.range count).map itemPoint).foldl (pointWork i draw) (S 0) = S count := by
  induction count with
  | zero => rfl
  | succ count ih =>
    rw [List.range_succ, List.map_append, List.foldl_append, ih fun k hk => h k (by omega)]
    exact h count (by omega)

/-- A word-wise command on written sources: lane `k` of the result from lane `k` of the sources, whatever banks
coincide. -/
theorem foldl_pointWork_lanes {i : Instr} {a b : Bank} {F : Nat → Nat → Nat} {ws : List Nat}
    (hm : s.coef.wf s.cfg = true)
    (hwork : ∀ u k, u.cfg = s.cfg →
      pointWork i none u (itemPoint k) = u.writeWord d k (F (u.readWord a k) (u.readWord b k)))
    (hws : ws.length = s.cfg.n) (hval : ∀ k < s.cfg.n, coeffAt ws k = F (s.readWord a k) (s.readWord b k)) :
    ((List.range s.cfg.n).map itemPoint).foldl (pointWork i none) s = s.writeBank d ws := by
  have h := foldl_pointWork_items (i := i) (draw := none) (S := s.partBank d ws) (count := s.cfg.n) fun k hk => ?_
  · rwa [partBank_zero, partBank_full hm hws] at h
  · rw [hwork (s.partBank d ws k) k rfl, readWord_partBank s d a (by omega) le_rfl,
      readWord_partBank s d b (by omega) le_rfl, ← hval k hk, writeWord_partBank hm hws hk]

/-- The two-source commands (R66 to R68). -/
theorem foldl_pointWork_zipWith {i : Instr} {a b : Bank} {F : Nat → Nat → Nat} {ws : List Nat}
    (hm : s.coef.wf s.cfg = true)
    (hwork : ∀ u k, u.cfg = s.cfg →
      pointWork i none u (itemPoint k) = u.writeWord d k (F (u.readWord a k) (u.readWord b k)))
    (hws : s.mapBanks a b (List.zipWith F) = some ws) :
    ((List.range s.cfg.n).map itemPoint).foldl (pointWork i none) s = s.writeBank d ws := by
  obtain ⟨x, hx, hws⟩ := Option.bind_eq_some_iff.1 hws
  obtain ⟨y, hy, rfl⟩ := Option.map_eq_some_iff.1 hws
  have hlen_x := ((s.readBank_eq_some_iff a x).1 hx).1
  have hlen_y := ((s.readBank_eq_some_iff b y).1 hy).1
  refine foldl_pointWork_lanes hm hwork (by rw [List.length_zipWith, hlen_x, hlen_y, min_self]) fun k hk => ?_
  rw [readWord_of_readBank hx hk, readWord_of_readBank hy hk]
  simp [coeffAt, hlen_x, hlen_y, hk]

/-- The one-source command (R69). -/
theorem foldl_pointWork_map {i : Instr} {a : Bank} {F : Nat → Nat} {ws : List Nat} (hm : s.coef.wf s.cfg = true)
    (hwork : ∀ u k, u.cfg = s.cfg → pointWork i none u (itemPoint k) = u.writeWord d k (F (u.readWord a k)))
    (hws : s.mapBank a (List.map F) = some ws) :
    ((List.range s.cfg.n).map itemPoint).foldl (pointWork i none) s = s.writeBank d ws := by
  obtain ⟨x, hx, rfl⟩ := Option.map_eq_some_iff.1 hws
  have hlen := ((s.readBank_eq_some_iff a x).1 hx).1
  refine foldl_pointWork_lanes (b := a) (F := fun v _ => F v) hm hwork (by rw [List.length_map, hlen]) fun k hk => ?_
  rw [readWord_of_readBank hx hk]
  simp [coeffAt, hlen, hk]

/-- `PWM` on written sources, slot by slot (R97, R98). -/
theorem foldl_pointWork_pwm (hc : s.cfg.Legal) (hm : s.coef.wf s.cfg = true) {a b : Bank} {ws : List Nat}
    (hws : s.mapBanks a b (pwmWords s.cfg) = some ws) :
    ((List.range s.cfg.h).map itemPoint).foldl (pointWork (.pwm d a b) none) s = s.writeBank d ws := by
  obtain ⟨x, hx, hws⟩ := Option.bind_eq_some_iff.1 hws
  obtain ⟨y, hy, rfl⟩ := Option.map_eq_some_iff.1 hws
  have hn := hc.n_eq_two_h
  have hlen : (pwmWords s.cfg x y).length = s.cfg.n := by rw [pwmWords_length, hn]
  have h := foldl_pointWork_items (i := .pwm d a b) (draw := none)
    (S := fun k => s.partBank d (pwmWords s.cfg x y) (2 * k))
    (count := s.cfg.h) fun k hk => ?_
  · rwa [Nat.mul_zero, partBank_zero, ← hn, partBank_full hm hlen] at h
  · have hread (e : Bank) (j : Nat) (hj : 2 * k ≤ j) :
        (s.partBank d (pwmWords s.cfg x y) (2 * k)).readWord e j = s.readWord e j :=
      readWord_partBank s d e (by omega) hj
    obtain ⟨heven, hodd⟩ := coeffAt_pwmWords s.cfg x y hk
    have hslot : pwmSlot s.cfg x y k = pairMul s.cfg (s.readWord a (2 * k)) (s.readWord a (2 * k + 1))
        (s.readWord b (2 * k)) (s.readWord b (2 * k + 1)) (wq s.cfg k) := by
      rw [pwmSlot, readWord_of_readBank hx (by omega), readWord_of_readBank hx (by omega),
        readWord_of_readBank hy (by omega), readWord_of_readBank hy (by omega)]
    have hwork : pointWork (.pwm d a b) none (s.partBank d (pwmWords s.cfg x y) (2 * k)) (itemPoint k) =
        ((s.partBank d (pwmWords s.cfg x y) (2 * k)).writeWord d (2 * k) (pwmSlot s.cfg x y k).1).writeWord d
          (2 * k + 1) (pwmSlot s.cfg x y k).2 := by
      rw [hslot, ← hread a (2 * k) le_rfl, ← hread a (2 * k + 1) (by omega), ← hread b (2 * k) le_rfl,
        ← hread b (2 * k + 1) (by omega)]
      rfl
    rw [hwork, ← heven, ← hodd, writeWord_partBank hm hlen (by omega), writeWord_partBank hm hlen (by omega)]
    rfl

theorem firstPoint_fstg_iff {c : Config} {d : Bank} {t : Nat} :
    (firstPoint c (.fstg d t)).isSome = true ↔ t < c.l := by
  by_cases ht : t < c.l <;> simp [firstPoint, stageOk, ht]

theorem firstPoint_istg_iff {c : Config} {d : Bank} {t : Nat} :
    (firstPoint c (.istg d t)).isSome = true ↔ t < c.l := by
  by_cases ht : t < c.l <;> simp [firstPoint, stageOk, ht]

/-- On written sources a command's points do all that the command computes (R21, R22). -/
theorem foldl_pointWork_none (hc : s.cfg.Legal) (hm : s.coef.wf s.cfg = true) {i : Instr}
    (hp : (firstPoint s.cfg i).isSome = true) (hd : i.dest = some d) {ws : List Nat} (hws : s.result i = some ws) :
    (loopPoints s.cfg i).foldl (pointWork i none) s = s.writeBank d ws := by
  cases i with
  | nop | ldc | rdc | rdt | rds => cases hws
  | pwm d' a b =>
    cases hd
    exact foldl_pointWork_pwm hc hm hws
  | madd d' a b | msub d' a b | mmul d' a b =>
    cases hd
    exact foldl_pointWork_zipWith hm (fun u k hu => by rw [← hu]; rfl) hws
  | mhlv d' a =>
    cases hd
    exact foldl_pointWork_map hm (fun u k hu => by rw [← hu]; rfl) hws
  | ntt d' =>
    cases hd
    obtain ⟨x, hx, rfl⟩ := Option.map_eq_some_iff.1 hws
    rw [foldl_pointWork_forward hm hc (.inl rfl) hx, loopPoints, List.foldl_flatMap]
    rfl
  | intt d' =>
    cases hd
    obtain ⟨x, hx, rfl⟩ := Option.map_eq_some_iff.1 hws
    rw [foldl_pointWork_inverse hm hc (.inl rfl) hx, loopPoints, List.foldl_flatMap]
    rfl
  | fstg d' t =>
    cases hd
    obtain ⟨x, hx, rfl⟩ := Option.map_eq_some_iff.1 hws
    rw [foldl_pointWork_forward hm hc (.inr ⟨t, rfl⟩) hx, loopPoints, if_pos (firstPoint_fstg_iff.1 hp)]
    rfl
  | istg d' t =>
    cases hd
    obtain ⟨x, hx, rfl⟩ := Option.map_eq_some_iff.1 hws
    rw [foldl_pointWork_inverse hm hc (.inr ⟨t, rfl⟩) hx, loopPoints, if_pos (firstPoint_istg_iff.1 hp)]
    rfl

/-! ### The points' work when a source word is unwritten: every word of the destination gets its free value -/

/-- The words of its destination that a command writes at one point (R37, R97). -/
def writtenAt (i : Instr) (p : LoopPoint) : List Nat :=
  match i with
  | .nop => []
  | .ldc _ _ _ => []
  | .rdc _ _ => []
  | .rdt _ _ => []
  | .rds => []
  | .ntt _ => [p.j, p.j + p.m]
  | .intt _ => [p.j, p.j + p.m]
  | .pwm _ _ _ => [2 * p.j, 2 * p.j + 1]
  | .madd _ _ _ => [p.j]
  | .msub _ _ _ => [p.j]
  | .mmul _ _ _ => [p.j]
  | .mhlv _ _ => [p.j]
  | .fstg _ _ => [p.j, p.j + p.m]
  | .istg _ _ => [p.j, p.j + p.m]

/-- Word `k` of the destination gets the free value `r` has for it (R15). -/
def writeFree (r : Nat) (d : Bank) (s : State) (k : Nat) : State :=
  s.writeWord d k (unspecifiedResult s.cfg r k)

theorem pointWork_some {i : Instr} (hd : i.dest = some d) (r : Nat) (s : State) (p : LoopPoint) :
    pointWork i (some r) s p = (writtenAt i p).foldl (writeFree r d) s := by
  cases i <;> cases hd <;> rfl

theorem foldl_pointWork_some {i : Instr} (hd : i.dest = some d) (r : Nat) (ps : List LoopPoint) (s : State) :
    ps.foldl (pointWork i (some r)) s = (ps.flatMap (writtenAt i)).foldl (writeFree r d) s := by
  rw [List.foldl_flatMap]
  congr 1
  funext u p
  exact pointWork_some hd r u p

theorem foldl_writeFree (r : Nat) (ks : List Nat) (s : State) :
    ks.foldl (writeFree r d) s =
      { s with coef := s.coef.setBank d (ks.foldl (fun ws k =>
          ws.set k (some (unspecifiedResult s.cfg r k))) (s.coef.bank d)) } := by
  induction ks generalizing s with
  | nil => rw [List.foldl_nil, List.foldl_nil, Memory.setBank_bank_self]
  | cons k ks ih =>
    rw [List.foldl_cons, ih, List.foldl_cons]
    simp only [writeFree, State.writeWord, Memory.setWord, Memory.bank_setBank_same, Memory.setBank_setBank]

theorem getElem?_foldl_set {α : Type} (g : Nat → α) (ks : List Nat) (ws : List α) (j : Nat) :
    (ks.foldl (fun ws k => ws.set k (g k)) ws)[j]? = if j ∈ ks ∧ j < ws.length then some (g j) else ws[j]? := by
  induction ks generalizing ws with
  | nil => simp
  | cons k ks ih =>
    rw [List.foldl_cons, ih, List.length_set]
    simp only [List.mem_cons]
    by_cases hj : j < ws.length
    · by_cases hk : j = k
      · subst hk
        by_cases hmem : j ∈ ks <;> simp [hmem, hj]
      · simp [hk, hj, Ne.symm hk]
    · by_cases hmem : j ∈ ks <;> simp [hmem, hj]

/-- Every word of the bank is written at some point of the command (R16, R84, R92, R97). -/
theorem mem_writtenAt {c : Config} (hc : c.Legal) {i : Instr} (hp : (firstPoint c i).isSome = true) {j : Nat}
    (hj : j < c.n) : j ∈ (loopPoints c i).flatMap (writtenAt i) := by
  have hfwd {t : Nat} (ht : t < c.l) : j ∈ (fwdPoints c t).flatMap fun p => [p.j, p.j + p.m] :=
    (stageTouchesEveryWordOnce c t hc ht).1.2.mem_iff.2 (List.mem_range.2 hj)
  have hinv {t : Nat} (ht : t < c.l) : j ∈ (invPoints c t).flatMap fun p => [p.j, p.j + p.m] :=
    (stageTouchesEveryWordOnce c t hc ht).2.2.mem_iff.2 (List.mem_range.2 hj)
  cases i with
  | nop | ldc | rdc | rdt | rds => cases hp
  | pwm =>
    have hn := hc.n_eq_two_h
    refine List.mem_flatMap.2 ⟨itemPoint (j / 2), List.mem_map_of_mem (List.mem_range.2 (by omega)), ?_⟩
    simp only [writtenAt, itemPoint, List.mem_cons, List.not_mem_nil, or_false]
    omega
  | madd | msub | mmul | mhlv =>
    exact List.mem_flatMap.2
      ⟨itemPoint j, List.mem_map_of_mem (List.mem_range.2 hj), List.mem_singleton.2 rfl⟩
  | ntt d =>
    have hl : 0 < c.l := Nat.pos_of_ne_zero fun hl => by simp [firstPoint, hl] at hp
    obtain ⟨p, hmem, hw⟩ := List.mem_flatMap.1 (hfwd hl)
    exact List.mem_flatMap.2 ⟨p, List.mem_flatMap.2 ⟨0, List.mem_range.2 hl, hmem⟩, hw⟩
  | intt d =>
    have hl : 0 < c.l := Nat.pos_of_ne_zero fun hl => by simp [firstPoint, hl] at hp
    obtain ⟨p, hmem, hw⟩ := List.mem_flatMap.1 (hinv hl)
    exact List.mem_flatMap.2 ⟨p, List.mem_flatMap.2 ⟨0, List.mem_range.2 hl, hmem⟩, hw⟩
  | fstg d t =>
    have ht := firstPoint_fstg_iff.1 hp
    rw [loopPoints, if_pos ht]
    exact hfwd ht
  | istg d t =>
    have ht := firstPoint_istg_iff.1 hp
    rw [loopPoints, if_pos ht]
    exact hinv ht

/-- With an unwritten source word the points leave the unspecified bank (R15). -/
theorem foldl_pointWork_unspecified (hc : s.cfg.Legal) (hm : s.coef.wf s.cfg = true) {i : Instr}
    (hp : (firstPoint s.cfg i).isSome = true) (hd : i.dest = some d) (r : Nat) :
    (loopPoints s.cfg i).foldl (pointWork i (some r)) s = s.writeBank d (unspecifiedBank s.cfg r) := by
  have hlen := Memory.wf_bank_length hm d
  rw [foldl_pointWork_some hd, foldl_writeFree, State.writeBank]
  congr 2
  refine List.ext_getElem? fun j => ?_
  rw [getElem?_foldl_set fun k => some (unspecifiedResult s.cfg r k)]
  by_cases hj : j < s.cfg.n
  · rw [if_pos ⟨mem_writtenAt hc hp hj, hlen ▸ hj⟩]
    simp [unspecifiedBank, hj]
  · rw [if_neg (by omega), List.getElem?_eq_none (by omega), List.getElem?_eq_none (by simp [unspecifiedBank]; omega)]

/-! ### The two levels agree -/

/-- A command accepted by the idle block: loading `SEQ` and doing its points' work gives what `exec` gives. -/
theorem foldl_pointWork_loadSequencer (hc : s.cfg.Legal) (hm : s.coef.wf s.cfg = true) (hseq : s.seq = none)
    {i : Instr} {p : LoopPoint} (hp : firstPoint s.cfg i = some p) :
    ∃ draw, (s.loadSequencer i p).seq = some ⟨i, p, draw⟩ ∧
      exec i s = .next { (loopPoints s.cfg i).foldl (pointWork i draw) (s.loadSequencer i p) with seq := none } := by
  obtain ⟨d, hd, hexec⟩ := exec_of_firstPoint hp
  have hsome : (firstPoint s.cfg i).isSome = true := by rw [hp, Option.isSome_some]
  rw [hexec]
  rcases s.loadSequencer_cases i p with ⟨hw, hload⟩ | ⟨hw, hload⟩ <;> rw [hload]
  · obtain ⟨ws, hws⟩ := Option.isSome_iff_exists.1 ((result_isSome hp).trans hw)
    refine ⟨none, rfl, ?_⟩
    rw [foldl_pointWork_setSeq, foldl_pointWork_none hc hm hsome hd hws, hws, State.finishBank_some]
    exact congrArg _ (State.setSeq_self (s := s.writeBank d ws) hseq).symm
  · have hnone : s.result i = none := by
      rw [← Option.not_isSome_iff_eq_none, result_isSome hp, hw]
      decide
    refine ⟨some s.draws, rfl, ?_⟩
    rw [foldl_pointWork_setSeq (s := { s with draws := s.draws + 1 })]
    have hwork := foldl_pointWork_unspecified (s := { s with draws := s.draws + 1 }) hc hm hsome hd s.draws
    dsimp only at hwork
    rw [hwork, hnone, State.finishBank_none]
    exact congrArg _ (State.setSeq_self (s := { s.writeBank d (unspecifiedBank s.cfg s.draws) with
      draws := s.draws + 1 }) hseq).symm

theorem engineTicks_one_of_next {s t : State} (h : engineTick s = .next t) : engineTicks 1 s = .next t := by
  rw [engineTicks_succ_of_next h, engineTicks]

/-- Some number of sequencer-level steps ends in the state of the atomic step, with the block busy in between. -/
def RefinesStep (s : State) : Prop :=
  ∃ k, engineTicks (k + 1) s = step s ∧ ∀ j, 0 < j → j ≤ k → ∃ t, engineTicks j s = .next t ∧ t.busy = true

/-- An input that the block completes in one sequencer-level step. -/
theorem refines_in_one_tick {s t : State} (htick : engineTick s = .next t) (hstep : step s = .next t) :
    RefinesStep s :=
  ⟨0, by rw [engineTicks_one_of_next htick, hstep], fun j hpos hle => by omega⟩

/-- R22: from the acceptance of a command word on, the block is busy until it is in the state of the atomic step. -/
theorem engineTicks_refine_step (hs : s.Inv) {w : CommandWord} {rest : List HostInput}
    (hin : s.inbox = .command w :: rest) (hrest : ∀ r, rest ≠ .reset :: r) : RefinesStep s := by
  obtain ⟨hc, hm, -, hseq⟩ := hs
  cases hw : decode w with
  | error r => exact refines_in_one_tick (engineTick_of_decode_error hseq hin hw) (step_of_decode_error hseq hin hw)
  | ok i =>
    have hstep := step_of_command hseq hin hw
    cases hp : firstPoint s.cfg i with
    | none =>
      obtain ⟨t, hexec, -⟩ := exists_exec_effect i (s.accept rest)
      exact refines_in_one_tick ((engineTick_of_firstPoint_none hseq hin hw hp).trans hexec) (hstep.trans hexec)
    | some p =>
      obtain ⟨draw, hload, hexec⟩ := foldl_pointWork_loadSequencer (s := s.accept rest) hc hm hseq hp
      obtain ⟨hcfg, hinbox, -⟩ := (s.accept rest).loadSequencer_frame i p
      have hvisits := visits_loopPoints hc i
      rw [hp, ← s.accept_cfg rest, ← hcfg] at hvisits
      obtain ⟨hend, hrun⟩ := engineTicks_of_visits (fun r => hinbox.trans_ne (hrest r)) hload hvisits
      rw [hcfg] at hend hrun
      have htick := engineTick_of_firstPoint hseq hin hw hp
      refine ⟨(loopPoints s.cfg i).length, ?_, fun j hpos hle => ?_⟩
      · rw [engineTicks_succ_of_next htick, hstep, hexec]
        exact hend
      · obtain ⟨j, rfl⟩ := Nat.exists_eq_succ_of_ne_zero hpos.ne'
        rw [engineTicks_succ_of_next htick]
        exact hrun j hle

end Sys2Proof.Machine

open Sys2Proof Sys2Proof.Machine

/-- Settles O58: the loop passes the points of the closed forms (`visits_loopPoints`), their work in place is the
command's result (`foldl_pointWork_loadSequencer`), and `SEQ` is the function `nextSeq` of the inputs and N. -/
theorem sequencerStepsRefineTheAtomicCommand : Obligations.SequencerStepsRefineTheAtomicCommand := by
  refine ⟨fun s w rest hs hin hrest => engineTicks_refine_step hs hin hrest, fun s s' t t' hn hin htuple h h' => ?_⟩
  have hseq : (t'.inbox, t'.seqTuple) = (t.inbox, t.seqTuple) := by
    rw [(engineTick_effect h).nextSeq, (engineTick_effect h').nextSeq, nextSeq_congr hn, hin, htuple]
  exact Prod.mk.inj hseq

end
